-- ==== Sys2Proof/Word.lean ====
section
/-! DEFINITION. The word types of the block (R14 of 00_scope.md) and the plainest helpers on them. -/

namespace Sys2Proof

/-- A byte: 8 bits, bit 7 the most significant (R14 of 00_scope.md). -/
abbrev Byte := BitVec 8

/-- One request field of 16 bits (R63 of 30_encoding.md). -/
abbrev Field16 := BitVec 16

/-- `zext_8` of one bit (R14 of 00_scope.md). -/
def bitByte (b : Bool) : Byte := if b then 1#8 else 0#8

end Sys2Proof
end

