-- ==== Sys2Proof/Config.lean ====
section
/-! DEFINITION. The parameters of an instance (R6 to R13 of 00_scope.md) and the open parameters of the spec. -/

namespace Sys2Proof

/-- `ORIENT`: the rotation, fixed for an instance (R7 of 00_scope.md). -/
inductive Orientation where
  | deg0
  | deg90
  | deg180
  | deg270
deriving DecidableEq, Repr

/-- The 2-bit code of `ORIENT` (R7 of 00_scope.md; STATUS bits 15:14, R33 of 10_state.md). -/
def Orientation.code : Orientation → BitVec 2
  | .deg0 => 0
  | .deg90 => 1
  | .deg180 => 2
  | .deg270 => 3

/-- `BUS`: the transport variant (R8 of 00_scope.md). -/
inductive Bus where
  | i2c
  | spi
deriving DecidableEq, Repr

/-- `HBIT_ORDER`: the bit order of the 90°/270° packing (R10 of 00_scope.md). -/
inductive HBitOrder where
  | msbFirst
  | lsbFirst
deriving DecidableEq, Repr

/-- `T_TICK` as a positive fraction of milliseconds, `(numPred + 1) / (denPred + 1)` ms: R13's
`T_TICK > 0` holds by the representation (R11 of 00_scope.md). DESIGN CHOICE, log 11. -/
structure Period where
  numPred : Nat
  denPred : Nat
deriving DecidableEq, Repr

/-- The parameter record of an instance (R6 to R12 of 00_scope.md). Which records are instances is
`Config.WF` (R13 of 00_scope.md). -/
structure Config where
  /-- `W`, the panel width in pixels (R6). -/
  W : Nat
  /-- `H`, the panel height in pixels (R6). -/
  H : Nat
  /-- `ORIENT` (R7). -/
  orient : Orientation
  /-- `BUS` (R8). -/
  bus : Bus
  /-- `I2C_ADDR`, the 7-bit base address; OPEN (R8). -/
  i2cAddr : BitVec 7
  /-- `HAS_DC` (R8). -/
  hasDc : Bool
  /-- `HAS_CS` (R8). -/
  hasCs : Bool
  /-- `HAS_RST` (R8). -/
  hasRst : Bool
  /-- `PM_VALUE`; OPEN (R9). -/
  pmValue : Byte
  /-- `COM_END_VALUE`; OPEN (R9). -/
  comEndValue : Byte
  /-- `HBIT_ORDER` (R10). -/
  hbitOrder : HBitOrder
  /-- `T_TICK`; OPEN (R11). -/
  tTick : Period
  /-- `RST_ACTIVE`, the level of the reset line while reset is active (R12). -/
  rstActive : Bool
  /-- `CS_ACTIVE`, the level of the chip-select while a transaction is framed (R12). -/
  csActive : Bool
deriving DecidableEq, Repr

/-- `P = H / 8`, the page count (R6 of 00_scope.md). -/
def Config.P (c : Config) : Nat := c.H / 8

/-- `N = P * W`, the byte length of the framebuffer (R6 of 00_scope.md, R22 of 10_state.md). -/
def Config.N (c : Config) : Nat := c.P * c.W

/-- `T_RST_ASSERT`, in milliseconds (R11 of 00_scope.md). -/
def tRstAssert : Nat := 10

/-- `T_RST_RECOVER`, in milliseconds (R11 of 00_scope.md). -/
def tRstRecover : Nat := 100

/-- `T_SETTLE`, in milliseconds (R11 of 00_scope.md). -/
def tSettle : Nat := 10

/-- The open `I2C_ADDR` of `Config.worked`: a free value (R8 of 00_scope.md, log 2). -/
opaque Config.openI2cAddr : BitVec 7

/-- The open `PM_VALUE` of `Config.worked`: a free value (R9 of 00_scope.md, log 2). -/
opaque Config.openPmValue : Byte

/-- The open `COM_END_VALUE` of `Config.worked`: a free value (R9 of 00_scope.md, log 2). -/
opaque Config.openComEndValue : Byte

/-- The open `T_TICK` of `Config.worked`: its numerator less one, a free value (R11 of 00_scope.md, log 2). -/
opaque Config.openTickNumPred : Nat

/-- The open `T_TICK` of `Config.worked`: its denominator less one, a free value (R11 of 00_scope.md, log 2). -/
opaque Config.openTickDenPred : Nat

/-- The configuration of `State.reset`: the spec's worked geometry (R6 of 00_scope.md), the lines of
95_test_vectors.md, the normative bit order (R10) and polarities (R12), and a free value for each
OPEN parameter. DESIGN CHOICE, log 2. -/
def Config.worked : Config where
  W := 192
  H := 64
  orient := .deg0
  bus := .spi
  i2cAddr := Config.openI2cAddr
  hasDc := true
  hasCs := true
  hasRst := true
  pmValue := Config.openPmValue
  comEndValue := Config.openComEndValue
  hbitOrder := .msbFirst
  tTick := ⟨Config.openTickNumPred, Config.openTickDenPred⟩
  rstActive := false
  csActive := false

end Sys2Proof
end

