-- ==== Sys2Proof/Syntax.lean ====
section
/-! DEFINITION. The syntax: the request bundle (R63 of 30_encoding.md) and one constructor of `Instr` for each row
of spec/opcode_table.json. -/

namespace Sys2Proof

/-- The fields of one request as they stand on the request port and in the latch
(R63 of 30_encoding.md, R21 and R38 of 10_state.md). -/
structure Request where
  op : BitVec 4
  x : Field16
  y : Field16
  w : Field16
  h : Field16
  d : Byte
deriving DecidableEq, Repr

/-- The instructions. The first sixteen are host requests (R65 of 30_encoding.md), with the operands
R64 assembles; the others are the command bytes and value bytes that a CMD step sends
(R68 to R88 of 30_encoding.md). -/
inductive Instr where
  /-- SET x, y, c (R93 of 40_pixel_ops.md). -/
  | set (x y : Int) (c : Bool)
  /-- GET x, y (R94 of 40_pixel_ops.md). -/
  | get (x y : Int)
  /-- FILL c (R95 of 40_pixel_ops.md). -/
  | fill (c : Bool)
  /-- FILL_RECT x, y, w, h, c (R96 of 40_pixel_ops.md). -/
  | fillRect (x y w h : Int) (c : Bool)
  /-- FLUSH (R121 of 42_runtime_ops.md). -/
  | flush
  /-- POWER_ON (R122 of 42_runtime_ops.md). -/
  | powerOn
  /-- POWER_OFF (R123 of 42_runtime_ops.md). -/
  | powerOff
  /-- SET_CONTRAST with its level `L = d[2:0]` (R124 of 42_runtime_ops.md). -/
  | setContrast (L : BitVec 3)
  /-- SET_INVERT with its flag `f = d[0]` (R125 of 42_runtime_ops.md). -/
  | setInvert (f : Bool)
  /-- BUF_RD a (R97 of 40_pixel_ops.md). -/
  | bufRd (a : Nat)
  /-- BUF_WR a, v (R98 of 40_pixel_ops.md). -/
  | bufWr (a : Nat) (v : Byte)
  /-- RESERVED_0x0 (R66 of 30_encoding.md). -/
  | reserved0
  /-- RESERVED_0xC (R66 of 30_encoding.md). -/
  | reservedC
  /-- RESERVED_0xD (R66 of 30_encoding.md). -/
  | reservedD
  /-- RESERVED_0xE (R66 of 30_encoding.md). -/
  | reservedE
  /-- RESERVED_0xF (R66 of 30_encoding.md). -/
  | reservedF
  /-- DISPLAY_OFF, 0xAE (R68 of 30_encoding.md). -/
  | displayOff
  /-- DISPLAY_ON, 0xAF (R69 of 30_encoding.md). -/
  | displayOn
  /-- SOFT_RESET, 0xE2 (R70 of 30_encoding.md). -/
  | softReset
  /-- TEMP_COMP, 0x24 (R71 of 30_encoding.md). -/
  | tempComp
  /-- POWER_CTRL, 0x2C (R72 of 30_encoding.md). -/
  | powerCtrl
  /-- BIAS_RATIO, 0xEB (R73 of 30_encoding.md). -/
  | biasRatio
  /-- PM_PREFIX, 0x81 (R74 of 30_encoding.md). -/
  | pmPrefix
  /-- SCROLL_ORIGIN, 0x40 (R76 of 30_encoding.md). -/
  | scrollOrigin
  /-- ANALOG_A, 0x33 (R77 of 30_encoding.md). -/
  | analogA
  /-- ANALOG_B, 0x2A (R78 of 30_encoding.md). -/
  | analogB
  /-- LINE_CORR, 0xC4 (R79 of 30_encoding.md). -/
  | lineCorr
  /-- COM_END_PREFIX, 0xF1 (R80 of 30_encoding.md). -/
  | comEndPrefix
  /-- CONTRAST, 0x20 | L (R82 of 30_encoding.md). -/
  | contrast (L : BitVec 3)
  /-- INVERT, 0x21 | f (R83 of 30_encoding.md); the byte does not carry `f` (C1 of 90_conflicts.md, log 14). -/
  | invert (f : Bool)
  /-- PAGE_ADDR_0, 0xB0 (R84 of 30_encoding.md). -/
  | pageAddr0
  /-- COL_HI_0, 0x10 (R85 of 30_encoding.md). -/
  | colHi0
  /-- COL_LO_0, 0x00 (R86 of 30_encoding.md). -/
  | colLo0
  /-- MAP_ORIENT0, 0xC4 (R87 of 30_encoding.md). -/
  | mapOrient0
  /-- MAP_ORIENT1, 0xC0 (R87 of 30_encoding.md). -/
  | mapOrient1
  /-- MAP_ORIENT2, 0xC2 (R87 of 30_encoding.md). -/
  | mapOrient2
  /-- MAP_ORIENT3, 0xC6 (R87 of 30_encoding.md). -/
  | mapOrient3
  /-- RAMCTL_ORIENT0_2, 0x89 (R88 of 30_encoding.md). -/
  | ramctlOrient02
  /-- RAMCTL_ORIENT1_3, 0x8B (R88 of 30_encoding.md). -/
  | ramctlOrient13
  /-- PM_VALUE, any byte right after 0x81 (R75 of 30_encoding.md). -/
  | pmValue (v : Byte)
  /-- COM_END_VALUE, any byte right after 0xF1 (R81 of 30_encoding.md). -/
  | comEndValue (v : Byte)
deriving DecidableEq, Repr

end Sys2Proof
end

