-- ==== Sys2Proof/WellFormed.lean ====
section
/-! DEFINITION. Which instructions and which configuration records are well-formed. -/

namespace Sys2Proof

/-- The range of a coordinate or size: what `sext_16` of a field can be
(R64 and R92 of 30_encoding.md). -/
abbrev InCoordRange (v : Int) : Prop := -32768 ≤ v ∧ v ≤ 32767

/-- The range of a byte address: what `zext_16` of a field can be (R64 and R92 of 30_encoding.md). -/
abbrev InAddrRange (a : Nat) : Prop := a ≤ 65535

/-- An instruction whose operands its encoding can hold. The assembler of R92 (30_encoding.md) refuses
any other. -/
def Instr.wellFormed : Instr → Bool
  | .set x y _ => decide (InCoordRange x ∧ InCoordRange y)
  | .get x y => decide (InCoordRange x ∧ InCoordRange y)
  | .fillRect x y w h _ => decide (InCoordRange x ∧ InCoordRange y ∧ InCoordRange w ∧ InCoordRange h)
  | .bufRd a => decide (InAddrRange a)
  | .bufWr a _ => decide (InAddrRange a)
  | .fill _ => true
  | .flush => true
  | .powerOn => true
  | .powerOff => true
  | .setContrast _ => true
  | .setInvert _ => true
  | .reserved0 => true
  | .reservedC => true
  | .reservedD => true
  | .reservedE => true
  | .reservedF => true
  | .displayOff => true
  | .displayOn => true
  | .softReset => true
  | .tempComp => true
  | .powerCtrl => true
  | .biasRatio => true
  | .pmPrefix => true
  | .scrollOrigin => true
  | .analogA => true
  | .analogB => true
  | .lineCorr => true
  | .comEndPrefix => true
  | .contrast _ => true
  | .invert _ => true
  | .pageAddr0 => true
  | .colHi0 => true
  | .colLo0 => true
  | .mapOrient0 => true
  | .mapOrient1 => true
  | .mapOrient2 => true
  | .mapOrient3 => true
  | .ramctlOrient02 => true
  | .ramctlOrient13 => true
  | .pmValue _ => true
  | .comEndValue _ => true

/-- A parameter record is an instance (R13 of 00_scope.md). `ORIENT`, the 8-bit values and
`T_TICK > 0` hold by their types. -/
abbrev Config.WF (c : Config) : Prop :=
  c.H % 8 = 0 ∧ 8 ≤ c.H ∧ 1 ≤ c.W ∧ c.N ≤ 65536 ∧
    (c.bus = .i2c → c.i2cAddr ≤ 0x7E#7 ∧ c.hasRst = false)

end Sys2Proof
end

