-- ==== Sys2Proof/Decode.lean ====
section
/-! DEFINITION. Decoding of request bundles and of emitted command bytes, and the encoder of both
(30_encoding.md). Two encodings, two channels: the request port and the transport port. -/

namespace Sys2Proof

/-! ## The request bundle -/

/-- A field read as a coordinate or size: `sext_16` (R64 of 30_encoding.md). -/
def sext16 (v : Field16) : Int := v.toInt

/-- A field read as a byte address: `zext_16` (R64 of 30_encoding.md). -/
def zext16 (v : Field16) : Nat := v.toNat

/-- The color or the inversion flag, `d[0]` (R64 of 30_encoding.md). -/
def Request.bit0 (r : Request) : Bool := r.d.getLsbD 0

/-- The contrast level, `d[2:0]` (R64 of 30_encoding.md). -/
def Request.level (r : Request) : BitVec 3 := r.d.extractLsb' 0 3

/-- The fields of a packed bundle, bit 0 the least significant (R63 of 30_encoding.md). -/
def Request.ofWord (b : BitVec 76) : Request where
  op := b.extractLsb' 0 4
  x := b.extractLsb' 4 16
  y := b.extractLsb' 20 16
  w := b.extractLsb' 36 16
  h := b.extractLsb' 52 16
  d := b.extractLsb' 68 8

/-- The packed bundle of the fields (R63 of 30_encoding.md). -/
def Request.toWord (r : Request) : BitVec 76 := r.d ++ r.h ++ r.w ++ r.y ++ r.x ++ r.op

/-- The request an accepted bundle asks for: the opcode map and operand assembly of R64 and R65
(30_encoding.md). Fields the operation does not list are ignored. Every bundle decodes. -/
def decodeRequest (r : Request) : Instr :=
  match r.op.toFin with
  | 0 => .reserved0
  | 1 => .set (sext16 r.x) (sext16 r.y) r.bit0
  | 2 => .get (sext16 r.x) (sext16 r.y)
  | 3 => .fill r.bit0
  | 4 => .fillRect (sext16 r.x) (sext16 r.y) (sext16 r.w) (sext16 r.h) r.bit0
  | 5 => .flush
  | 6 => .powerOn
  | 7 => .powerOff
  | 8 => .setContrast r.level
  | 9 => .setInvert r.bit0
  | 10 => .bufRd (zext16 r.x)
  | 11 => .bufWr (zext16 r.x) r.d
  | 12 => .reservedC
  | 13 => .reservedD
  | 14 => .reservedE
  | 15 => .reservedF
  | ⟨n + 16, h⟩ => absurd h (by omega)

/-! ## The emitted bytes -/

/-- Where in the command stream a byte stands. Byte values overlap (R90 of 30_encoding.md), so a byte
is read back only with its place (log 18). -/
inductive Slot where
  /-- Every place but the ones below. -/
  | main
  /-- Right after 0x81 (R75 of 30_encoding.md). -/
  | pmArg
  /-- Right after 0xF1 (R81 of 30_encoding.md). -/
  | comEndArg
  /-- The first byte of the orientation pair (R87 of 30_encoding.md). -/
  | scanMirror
  /-- The second byte of the orientation pair (R88 of 30_encoding.md). -/
  | ramControl
  /-- The byte of SET_CONTRAST (R82 of 30_encoding.md). -/
  | contrast
  /-- The byte of SET_INVERT (R83 of 30_encoding.md). -/
  | invert
deriving DecidableEq, Repr

/-- Why bits are no instruction. -/
inductive DecodeError where
  /-- A bundle is ten bytes and a command byte one (R63 and R91 of 30_encoding.md). -/
  | wrongLength (n : Nat)
  /-- A bundle has 76 bits (R63 of 30_encoding.md); a bit above them is set. -/
  | bitAboveBundle
  /-- The block never sends this byte at this place (R89 of 30_encoding.md). -/
  | neverSentHere (slot : Slot) (b : Byte)
deriving DecidableEq, Repr

/-- The bytes of the main stream (R68 to R74, R76 to R80, R84 to R86 of 30_encoding.md). -/
def mainTable : List (Byte × Instr) :=
  [(0xAE, .displayOff), (0xAF, .displayOn), (0xE2, .softReset), (0x24, .tempComp),
   (0x2C, .powerCtrl), (0xEB, .biasRatio), (0x81, .pmPrefix), (0x40, .scrollOrigin),
   (0x33, .analogA), (0x2A, .analogB), (0xC4, .lineCorr), (0xF1, .comEndPrefix),
   (0xB0, .pageAddr0), (0x10, .colHi0), (0x00, .colLo0)]

/-- The scan-mirror bytes (R87 of 30_encoding.md). -/
def scanMirrorTable : List (Byte × Instr) :=
  [(0xC4, .mapOrient0), (0xC0, .mapOrient1), (0xC2, .mapOrient2), (0xC6, .mapOrient3)]

/-- The RAM address-control bytes (R88 of 30_encoding.md). -/
def ramControlTable : List (Byte × Instr) :=
  [(0x89, .ramctlOrient02), (0x8B, .ramctlOrient13)]

/-- The row of a table with a given byte. -/
def rowOf (table : List (Byte × Instr)) (b : Byte) : Option Instr :=
  (table.find? fun row => row.1 == b).map (·.2)

/-- The command a byte is at its place in the stream, if the block ever sends it there. -/
def commandAt (slot : Slot) (b : Byte) : Option Instr :=
  match slot with
  | .main => rowOf mainTable b
  | .pmArg => some (.pmValue b)
  | .comEndArg => some (.comEndValue b)
  | .scanMirror => rowOf scanMirrorTable b
  | .ramControl => rowOf ramControlTable b
  | .contrast => if b.extractLsb' 3 5 = 0b00100#5 then some (.contrast (b.extractLsb' 0 3)) else none
  | .invert => if b = 0x21#8 then some (.invert (b.getLsbD 0)) else none

/-- Decoding of one emitted byte at its place, rejecting by name. -/
def decodeCommand (slot : Slot) (b : Byte) : Except DecodeError Instr :=
  match commandAt slot b with
  | some i => .ok i
  | none => .error (.neverSentHere slot b)

/-- The place of the byte that follows a command: a value byte right after its prefix (R91 of
30_encoding.md), the orientation pair right after the COM-end pair (R113 of 41_sequencer_init.md). -/
def slotAfter : Instr → Slot
  | .pmPrefix => .pmArg
  | .comEndPrefix => .comEndArg
  | .comEndValue _ => .scanMirror
  | .mapOrient0 => .ramControl
  | .mapOrient1 => .ramControl
  | .mapOrient2 => .ramControl
  | .mapOrient3 => .ramControl
  | _ => .main

/-- Decoding of a stream of command bytes from a place on, each byte at the place the one before it
leaves. -/
def decodeStream (slot : Slot) : List Byte → Except DecodeError (List Instr)
  | [] => .ok []
  | b :: rest =>
    match decodeCommand slot b with
    | .error e => .error e
    | .ok i =>
      match decodeStream (slotAfter i) rest with
      | .error e => .error e
      | .ok is => .ok (i :: is)

/-! ## Both channels as bytes -/

/-- The port an instruction's bits stand on. -/
inductive Channel where
  /-- The request port (R38 of 10_state.md). -/
  | request
  /-- The transport port, at a place of the command stream (R40 of 10_state.md). -/
  | command (slot : Slot)
deriving DecidableEq, Repr

/-- A list of bytes as a number, the first byte the least significant (log 19). -/
def natOfBytes : List Byte → Nat
  | [] => 0
  | b :: rest => b.toNat + 256 * natOfBytes rest

/-- The `n` low bytes of a number, the least significant first (log 19). -/
def bytesOfNat : Nat → Nat → List Byte
  | 0, _ => []
  | n + 1, v => BitVec.ofNat 8 v :: bytesOfNat n (v / 256)

/-- The decoder, total on any bytes, rejecting by name. -/
def decode (ch : Channel) (bytes : List Byte) : Except DecodeError Instr :=
  match ch with
  | .request =>
    if bytes.length ≠ 10 then .error (.wrongLength bytes.length)
    else if 2 ^ 76 ≤ natOfBytes bytes then .error .bitAboveBundle
    else .ok (decodeRequest (.ofWord (BitVec.ofNat 76 (natOfBytes bytes))))
  | .command slot =>
    match bytes with
    | [b] => decodeCommand slot b
    | _ => .error (.wrongLength bytes.length)

/-! ## The encoder -/

/-- The bundle with only an opcode: every field a request does not list is 0 (R92 of 30_encoding.md). -/
def Request.ofOp (op : BitVec 4) : Request := ⟨op, 0, 0, 0, 0, 0⟩

/-- What an instruction is encoded as. -/
inductive Code where
  | bundle (r : Request)
  | byte (slot : Slot) (b : Byte)
deriving DecidableEq, Repr

/-- The encoding of an instruction (R63, R65, R92 for requests; R68 to R88 for emitted bytes;
30_encoding.md). -/
def encodeCode : Instr → Code
  | .set x y c => .bundle ⟨0x1, .ofInt 16 x, .ofInt 16 y, 0, 0, bitByte c⟩
  | .get x y => .bundle ⟨0x2, .ofInt 16 x, .ofInt 16 y, 0, 0, 0⟩
  | .fill c => .bundle ⟨0x3, 0, 0, 0, 0, bitByte c⟩
  | .fillRect x y w h c =>
    .bundle ⟨0x4, .ofInt 16 x, .ofInt 16 y, .ofInt 16 w, .ofInt 16 h, bitByte c⟩
  | .flush => .bundle (.ofOp 0x5)
  | .powerOn => .bundle (.ofOp 0x6)
  | .powerOff => .bundle (.ofOp 0x7)
  | .setContrast L => .bundle ⟨0x8, 0, 0, 0, 0, L.zeroExtend 8⟩
  | .setInvert f => .bundle ⟨0x9, 0, 0, 0, 0, bitByte f⟩
  | .bufRd a => .bundle ⟨0xA, .ofNat 16 a, 0, 0, 0, 0⟩
  | .bufWr a v => .bundle ⟨0xB, .ofNat 16 a, 0, 0, 0, v⟩
  | .reserved0 => .bundle (.ofOp 0x0)
  | .reservedC => .bundle (.ofOp 0xC)
  | .reservedD => .bundle (.ofOp 0xD)
  | .reservedE => .bundle (.ofOp 0xE)
  | .reservedF => .bundle (.ofOp 0xF)
  | .displayOff => .byte .main 0xAE
  | .displayOn => .byte .main 0xAF
  | .softReset => .byte .main 0xE2
  | .tempComp => .byte .main 0x24
  | .powerCtrl => .byte .main 0x2C
  | .biasRatio => .byte .main 0xEB
  | .pmPrefix => .byte .main 0x81
  | .scrollOrigin => .byte .main 0x40
  | .analogA => .byte .main 0x33
  | .analogB => .byte .main 0x2A
  | .lineCorr => .byte .main 0xC4
  | .comEndPrefix => .byte .main 0xF1
  | .contrast L => .byte .contrast (0x20#8 ||| L.zeroExtend 8)
  | .invert f => .byte .invert (0x21#8 ||| bitByte f)
  | .pageAddr0 => .byte .main 0xB0
  | .colHi0 => .byte .main 0x10
  | .colLo0 => .byte .main 0x00
  | .mapOrient0 => .byte .scanMirror 0xC4
  | .mapOrient1 => .byte .scanMirror 0xC0
  | .mapOrient2 => .byte .scanMirror 0xC2
  | .mapOrient3 => .byte .scanMirror 0xC6
  | .ramctlOrient02 => .byte .ramControl 0x89
  | .ramctlOrient13 => .byte .ramControl 0x8B
  | .pmValue v => .byte .pmArg v
  | .comEndValue v => .byte .comEndArg v

/-- The port an encoding stands on. -/
def Code.channel : Code → Channel
  | .bundle _ => .request
  | .byte slot _ => .command slot

/-- The bytes of an encoding: ten for a bundle, one for a command byte (log 19). -/
def Code.bytes : Code → List Byte
  | .bundle r => bytesOfNat 10 r.toWord.toNat
  | .byte _ b => [b]

/-- The port an instruction's bits stand on. -/
def channelOf (i : Instr) : Channel := (encodeCode i).channel

/-- The encoder. -/
def encode (i : Instr) : List Byte := (encodeCode i).bytes

/-- The request bundle of an instruction, for the instructions that are requests. -/
def bundleOf (i : Instr) : Option Request :=
  match encodeCode i with
  | .bundle r => some r
  | .byte _ _ => none

/-- The byte a command instruction sends, for the instructions that are commands. -/
def commandByteOf (i : Instr) : Option Byte :=
  match encodeCode i with
  | .bundle _ => none
  | .byte _ b => some b

/-! ## Words as spec/opcode_table.json numbers them -/

/-- The byte of the transport port with a given value, wherever the block sends it: the main stream
first, then the orientation pair, then SET_INVERT, then SET_CONTRAST (log 15). -/
def commandOfValue (b : Byte) : Option Instr :=
  (commandAt .main b).or <| (commandAt .scanMirror b).or <| (commandAt .ramControl b).or <|
    (commandAt .invert b).or (commandAt .contrast b)

/-- A word of the opcode table: the table mixes request bundles, of which it gives the four bits of
`op`, with emitted bytes. A word of one byte below 0x10 is a bundle with only an opcode, any other
word of one byte an emitted byte, and a longer word a bundle (log 15). -/
inductive TableWord where
  | request (r : Request)
  | command (i : Instr)
deriving DecidableEq, Repr

/-- The reading of a table word. -/
def tableWord (nbits w : Nat) : Option TableWord :=
  if nbits ≤ 8 ∧ 16 ≤ w then
    if w < 256 then (commandOfValue (BitVec.ofNat 8 w)).map .command else none
  else if w < 2 ^ 76 then some (.request (.ofWord (BitVec.ofNat 76 w)))
  else none

/-- The instruction the decoder reads from a word numbered as spec/opcode_table.json numbers it. -/
def decodeTableWord (nbits w : Nat) : Option Instr :=
  (tableWord nbits w).map fun t =>
    match t with
    | .request r => decodeRequest r
    | .command i => i

end Sys2Proof
end

