-- ==== Sys2Proof/Machine/State.lean ====
section
/-! DEFINITION. The state of the block (10_state.md), its reset value, and the reasons a step can stop. -/

namespace Sys2Proof.Machine

/-- `phase` (R18 of 10_state.md). Code 7 is never held (U6 of 93_implementation_defined.md). -/
inductive Phase where
  | uninit
  | resetting
  | configuring
  | cleared
  | poweredOn
  | fault
  | configError
deriving DecidableEq, Repr

/-- The 3-bit code of a phase (R18 of 10_state.md). -/
def Phase.code : Phase → BitVec 3
  | .uninit => 0
  | .resetting => 1
  | .configuring => 2
  | .cleared => 3
  | .poweredOn => 4
  | .fault => 5
  | .configError => 6

/-- `err_code` (R26 of 10_state.md). Value 3 is never held. -/
inductive ErrCode where
  | none
  | config
  | transport
deriving DecidableEq, Repr

/-- The 2-bit code of `err_code` (R26 of 10_state.md). -/
def ErrCode.code : ErrCode → BitVec 2
  | .none => 0
  | .config => 1
  | .transport => 2

/-- The response statuses (R67 of 30_encoding.md). Codes 5 to 7 are never produced. -/
inductive RspStatus where
  | ok
  | oob
  | illegal
  | transportErr
  | faulted
deriving DecidableEq, Repr

/-- The 3-bit code of a response status (R67 of 30_encoding.md). -/
def RspStatus.code : RspStatus → BitVec 3
  | .ok => 0
  | .oob => 1
  | .illegal => 2
  | .transportErr => 3
  | .faulted => 4

/-- The request scripts (42_runtime_ops.md), each with the operand its steps are made from
(R20 of 10_state.md, log 12). -/
inductive ReqScript where
  | flush
  | powerOn
  | powerOff
  | setContrast (L : BitVec 3)
  | setInvert (f : Bool)
deriving DecidableEq, Repr

/-- `script` (R20 of 10_state.md). -/
inductive Script where
  | none
  | init
  | req (r : ReqScript)
deriving DecidableEq, Repr

/-- The adapter's answer to a transaction (R40 of 10_state.md, R129 of 43_transport.md). -/
inductive Answer where
  | ok
  | err
deriving DecidableEq, Repr

/-- `tx_kind` (R40 of 10_state.md). -/
inductive TxKind where
  | cmd
  | data
deriving DecidableEq, Repr

/-- The code of `tx_kind` (R40 of 10_state.md). -/
def TxKind.code : TxKind → BitVec 1
  | .cmd => 0
  | .data => 1

/-- A transaction on the transport port (R40 of 10_state.md, R127 and R128 of 43_transport.md). -/
structure Transaction where
  kind : TxKind
  bytes : List Byte
deriving DecidableEq, Repr

/-- An outstanding transaction and how many of its bytes the adapter has taken
(R36 and R40 of 10_state.md, log 7). -/
structure InFlight where
  txn : Transaction
  handed : Nat
deriving DecidableEq, Repr

/-- The observable events (R16 of 00_scope.md). The answer of a transaction is `none` only when block
reset abandoned it (R156 of 70_reset_and_hazards.md, log 9). Durations are in milliseconds. -/
inductive Event where
  | rst (level : Bool)
  | delay (ms : Nat)
  | cmd (b : Byte) (answer : Option Answer)
  | data (bs : List Byte) (answer : Option Answer)
  | rsp (status : RspStatus) (d : Byte)
deriving DecidableEq, Repr

/-- The response register's contents (R30 of 10_state.md). -/
structure Response where
  status : RspStatus
  data : Byte
deriving DecidableEq, Repr

/-- The input levels of one step (R37 to R42 of 10_state.md; log 4). -/
structure Pins where
  /-- `rst_n`, active low (R37). -/
  rstN : Bool
  /-- A request the host begins to offer in this step (R38; log 5). -/
  req : Option Request
  /-- `rsp_ready` (R39). -/
  rspReady : Bool
  /-- `tx_done` with `tx_err`: the adapter's answer to the transaction of this step (R40). -/
  answer : Option Answer
  /-- `tx_ready`: the adapter takes the byte presented (R40). -/
  txReady : Bool
  /-- The tick strobe (R42). -/
  tick : Bool
deriving DecidableEq, Repr

/-- The inputs when the environment does nothing: reset released, nothing offered, taken, answered or
ticked. -/
def Pins.quiet : Pins := ⟨true, none, false, none, false, false⟩

/-- Memory: (index, byte) pairs, indices strictly rising, no byte equal to what an unlisted index
reads as. -/
abbrev Mem := List Host.Cell

/-- The state. The fields up to `rsp` are the architectural state of R17 (10_state.md) after the
instance's parameters; `delaying` and `tx` are the hidden state of R36; the others are the model's
own, the environment's inputs and the observable trace (INVENTORY.md). -/
structure State where
  /-- The instance's parameters; no step writes them (R17; log 1). -/
  cfg : Config
  /-- `phase` (R18). -/
  phase : Phase
  /-- `seq_ptr`, the program counter (R19). -/
  seqPtr : BitVec 8
  /-- `script` (R20). -/
  script : Script
  /-- `req`, the request latch (R21; log 30). -/
  req : Option Request
  /-- `fb`, the framebuffer (R22; log 3). -/
  fb : Mem
  /-- `sh_disp` (R23). -/
  shDisp : Option Bool
  /-- `sh_con` (R24). -/
  shCon : Option (BitVec 3)
  /-- `sh_inv` (R25). -/
  shInv : Option Bool
  /-- `err_code` (R26). -/
  errCode : ErrCode
  /-- `err_phase` (R27). -/
  errPhase : BitVec 3
  /-- `err_step` (R27). -/
  errStep : BitVec 8
  /-- `wait_cnt` (R28). -/
  waitCnt : Nat
  /-- `rst_out` (R29; log 31). -/
  rstOut : Bool
  /-- `rsp`, the response register (R30). -/
  rsp : Option Response
  /-- Whether the current DELAY step has started (R105 of 41_sequencer_init.md; log 10). -/
  delaying : Bool
  /-- The outstanding transaction (R36, R40; log 7). -/
  tx : Option InFlight
  /-- The requests the host offers, oldest first; the oldest is on the port (R38; log 5). -/
  offered : List Request
  /-- The inputs of the step in progress (log 4). -/
  pins : Pins
  /-- The inputs of the steps to come; quiet when it runs out (log 4). -/
  inputs : List Pins
  /-- The observable events so far, oldest first (R16 of 00_scope.md; log 9). -/
  trace : List Event
deriving DecidableEq, Repr

/-- Why the machine stops with a fault. -/
inductive Fault where
  /-- Raised by `runStep` (Machine/Sequencer.lean) when `seq_ptr` is past the end of the active script.
  R19 of 10_state.md says it never is: no state that meets `Safety.Inv` raises it. Safe (log 20). -/
  | seqPtrPastEnd
deriving DecidableEq, Repr

/-- Why the machine refuses. -/
inductive Refusal where
  /-- Raised by `exec` alone, for an instruction that has no meaning yet; no arm raises it. Safe. -/
  | notModelled (mnemonic : String)
  /-- Raised by `step` when the parameter record is no instance: "A model refuses any other record; no
  instance exists for it" (R13 of 00_scope.md, U8 of 93_implementation_defined.md). Safe (log 21). -/
  | notAnInstance
deriving DecidableEq, Repr

/-- The state of an instance right after block reset (R157 of 70_reset_and_hazards.md), with no input
and no event yet. -/
def State.ofConfig (c : Config) : State where
  cfg := c
  phase := .uninit
  seqPtr := 0
  script := .none
  req := none
  fb := []
  shDisp := none
  shCon := none
  shInv := none
  errCode := .none
  errPhase := 0
  errStep := 0
  waitCnt := 0
  rstOut := !c.rstActive
  rsp := none
  delaying := false
  tx := none
  offered := []
  pins := .quiet
  inputs := []
  trace := []

/-- The machine right after reset, in the spec's worked configuration (log 2, log 17). -/
def State.reset : State := State.ofConfig Config.worked

end Sys2Proof.Machine
end

