-- ==== Sys2Proof/Machine/Operands.lean ====
section
/-! DEFINITION. The orientation-dependent address mapper and the coordinate ranges of a rectangle
(R45 to R51 of 20_memory.md, R96 of 40_pixel_ops.md). -/

namespace Sys2Proof.Machine

/-- The vertical packing is used at 0° and 180° (R47 of 20_memory.md). -/
def isVertical (c : Config) : Bool :=
  match c.orient with
  | .deg0 => true
  | .deg90 => false
  | .deg180 => true
  | .deg270 => false

/-- `LW` (R45 of 20_memory.md). -/
def logicalW (c : Config) : Nat := if isVertical c then c.W else c.H

/-- `LH` (R45 of 20_memory.md). -/
def logicalH (c : Config) : Nat := if isVertical c then c.H else c.W

/-- The in-bounds test (R46 of 20_memory.md). -/
abbrev InBounds (c : Config) (x y : Int) : Prop := 0 ≤ x ∧ x < logicalW c ∧ 0 ≤ y ∧ y < logicalH c

/-- A pixel's place in the framebuffer: the byte index and the bit. -/
structure Place where
  index : Nat
  bit : Nat
deriving DecidableEq, Repr

/-- VLSB packing (R47 of 20_memory.md). -/
def placeVertical (c : Config) (x y : Nat) : Place := ⟨y / 8 * c.W + x, y % 8⟩

/-- HMSB packing with the bit order of `HBIT_ORDER` (R48 of 20_memory.md). -/
def placeHorizontal (c : Config) (x y : Nat) : Place :=
  ⟨y * c.P + x / 8,
   match c.hbitOrder with
   | .msbFirst => 7 - x % 8
   | .lsbFirst => x % 8⟩

/-- `Map(x, y)`; `none` is `inb = false` (R49 of 20_memory.md). -/
def mapPixel (c : Config) (x y : Int) : Option Place :=
  if InBounds c x y then
    some (if isVertical c then placeVertical c x.toNat y.toNat else placeHorizontal c x.toNat y.toNat)
  else none

/-- The integers from `lo` to `hi - 1`. -/
def intRange (lo hi : Int) : List Int := (List.range (hi - lo).toNat).map fun k : Nat => lo + (k : Int)

/-- The columns of a clipped rectangle, `xs .. xe - 1` (R96 of 40_pixel_ops.md). -/
def rectColumns (c : Config) (x w : Int) : List Int := intRange (max x 0) (min (x + w) (logicalW c))

/-- The rows of a clipped rectangle, `ys .. ye - 1` (R96 of 40_pixel_ops.md). -/
def rectRows (c : Config) (y h : Int) : List Int := intRange (max y 0) (min (y + h) (logicalH c))

/-- The unclipped rectangle as a set of pixels (R96 of 40_pixel_ops.md). -/
abbrev InRect (x y w h px py : Int) : Prop := x ≤ px ∧ px < x + w ∧ y ≤ py ∧ py < y + h

end Sys2Proof.Machine
end

