-- ==== Sys2Proof/Machine/Memory.lean ====
section
/-! DEFINITION. The framebuffer: one byte, one bit, all bytes (R15 of 00_scope.md, R43, R51 and R52 of
20_memory.md). Indices are bounded by their callers: a byte outside the framebuffer is never reached. -/

namespace Sys2Proof.Machine

/-- What an unlisted byte reads as. The spec gives no value before CLEARBUF (R22 of 10_state.md).
DESIGN CHOICE, unsafe, log 3. -/
def unlistedByte : Byte := 0#8

/-- The canonical form: indices strictly rising from a bound, no listed byte equal to `unlistedByte`. -/
def Mem.wfFrom : Nat → Mem → Bool
  | _, [] => true
  | lo, (a, v) :: rest => decide (lo ≤ a) && decide (v ≠ unlistedByte) && Mem.wfFrom (a + 1) rest

/-- The canonical form of a memory. -/
def Mem.wf (m : Mem) : Bool := Mem.wfFrom 0 m

/-- Every listed index is below a bound. -/
def Mem.below (n : Nat) (m : Mem) : Bool := m.all fun cell => decide (cell.1 < n)

/-- Reading one byte: `FbRead` on the framebuffer (R15 of 00_scope.md). -/
def Mem.read : Mem → Nat → Byte
  | [], _ => unlistedByte
  | (a, v) :: rest, i => if i = a then v else Mem.read rest i

/-- One listed byte in front, unless it reads as unlisted. -/
def Mem.cons (i : Nat) (v : Byte) (m : Mem) : Mem := if v = unlistedByte then m else (i, v) :: m

/-- Writing one byte: `FbWrite` on the framebuffer (R15 of 00_scope.md). It keeps the canonical form. -/
def Mem.write : Mem → Nat → Byte → Mem
  | [], i, v => Mem.cons i v []
  | (a, u) :: rest, i, v =>
    if i < a then Mem.cons i v ((a, u) :: rest)
    else if i = a then Mem.cons i v rest
    else (a, u) :: Mem.write rest i v

/-- `PixWrite` (R51 of 20_memory.md). -/
def Mem.writeBit (m : Mem) (p : Place) (c : Bool) : Mem :=
  m.write p.index ((m.read p.index &&& ~~~(1#8 <<< p.bit)) ||| (bitByte c <<< p.bit))

/-- `PixRead` (R51 of 20_memory.md). -/
def Mem.readBit (m : Mem) (p : Place) : Bool := (m.read p.index).getLsbD p.bit

/-- The same byte in every index below `n`: `for i in 0 .. N-1: FbWrite(i, v)` (R95 of
40_pixel_ops.md, R106 of 41_sequencer_init.md). Indices from `n` on keep their bytes. -/
def Mem.fill (n : Nat) (v : Byte) (m : Mem) : Mem :=
  (if v = unlistedByte then [] else (List.range n).map fun i => (i, v)) ++
    m.filter fun cell => decide (n ≤ cell.1)

/-- The bytes 0 to `n - 1` in ascending order (R52 of 20_memory.md). -/
def Mem.bytes (n : Nat) (m : Mem) : List Byte := (List.range n).map m.read

/-- SET on the framebuffer: the pixel when it is in bounds, nothing otherwise (R93 of 40_pixel_ops.md). -/
def Mem.setPixel (cfg : Config) (m : Mem) (x y : Int) (c : Bool) : Mem :=
  match mapPixel cfg x y with
  | some p => m.writeBit p c
  | none => m

/-- FILL_RECT on the framebuffer: the loops of R96 (40_pixel_ops.md). -/
def Mem.fillRect (cfg : Config) (m : Mem) (x y w h : Int) (c : Bool) : Mem :=
  (rectRows cfg y h).foldl
    (fun m py => (rectColumns cfg x w).foldl (fun m px => m.setPixel cfg px py c) m) m

end Sys2Proof.Machine
end

