-- ==== Sys2Proof/Machine/Script.lean ====
section
/-! DEFINITION. The scripts: the fixed lists of steps the sequencer runs (R101 and R110 to R115 of
41_sequencer_init.md, R121 to R125 of 42_runtime_ops.md). -/

namespace Sys2Proof.Machine

/-- The kinds of script steps (R101 of 41_sequencer_init.md). A CMD step names the command instruction
it sends, which fixes its byte and its shadow update (log 13). -/
inductive StepKind where
  | rst (level : Bool)
  | delay (ms : Nat)
  | cmd (i : Instr)
  | data
  | clearBuf
deriving DecidableEq, Repr

/-- A script step: its kind and its phase label (R101 of 41_sequencer_init.md). -/
structure ScriptStep where
  kind : StepKind
  label : Phase
deriving DecidableEq, Repr

/-- The reset part, hardware path or soft path (R110 and R111 of 41_sequencer_init.md). -/
def resetPart (c : Config) : List ScriptStep :=
  if c.hasRst then
    [⟨.rst c.rstActive, .resetting⟩, ⟨.delay tRstAssert, .resetting⟩,
     ⟨.rst (!c.rstActive), .resetting⟩, ⟨.delay tRstRecover, .resetting⟩,
     ⟨.rst (!c.rstActive), .resetting⟩, ⟨.delay tSettle, .configuring⟩]
  else
    [⟨.cmd .softReset, .configuring⟩, ⟨.delay tSettle, .configuring⟩]

/-- The commands of the configuration sequence (R112 of 41_sequencer_init.md). -/
def configCommands (c : Config) : List Instr :=
  [.displayOff, .tempComp, .powerCtrl, .biasRatio, .pmPrefix, .pmValue c.pmValue, .scrollOrigin,
   .analogA, .analogB, .lineCorr, .comEndPrefix, .comEndValue c.comEndValue]

/-- `MAP(ORIENT)` (R113 of 41_sequencer_init.md). -/
def scanMirrorOf : Orientation → Instr
  | .deg0 => .mapOrient0
  | .deg90 => .mapOrient1
  | .deg180 => .mapOrient2
  | .deg270 => .mapOrient3

/-- `RAMCTL(ORIENT)` (R113 of 41_sequencer_init.md). -/
def ramControlOf : Orientation → Instr
  | .deg0 => .ramctlOrient02
  | .deg90 => .ramctlOrient13
  | .deg180 => .ramctlOrient02
  | .deg270 => .ramctlOrient13

/-- The orientation pair (R113 of 41_sequencer_init.md). -/
def orientationPair (c : Config) : List Instr := [scanMirrorOf c.orient, ramControlOf c.orient]

/-- The kinds of the flush steps, shared by FLUSH and INIT (R114 of 41_sequencer_init.md, R121 of
42_runtime_ops.md). -/
def flushKinds : List StepKind := [.cmd .pageAddr0, .cmd .colHi0, .cmd .colLo0, .data]

/-- The clear, flush and display-on part (R114 of 41_sequencer_init.md). -/
def clearPart : List ScriptStep :=
  ⟨.clearBuf, .configuring⟩ ::
    (flushKinds ++ [StepKind.cmd .displayOn]).map fun k => ⟨k, .cleared⟩

/-- The INIT script (R115 of 41_sequencer_init.md). -/
def initScript (c : Config) : List ScriptStep :=
  resetPart c ++ (configCommands c ++ orientationPair c).map (fun i => ⟨.cmd i, .configuring⟩) ++
    clearPart

/-- The steps of a request script (R121 to R125 of 42_runtime_ops.md). -/
def reqKinds : ReqScript → List StepKind
  | .flush => flushKinds
  | .powerOn => [.cmd .displayOn]
  | .powerOff => [.cmd .displayOff]
  | .setContrast L => [.cmd (.contrast L)]
  | .setInvert f => [.cmd (.invert f)]

/-- The steps of a script; every step of a request script is labelled POWERED_ON (R107 of
41_sequencer_init.md). -/
def scriptSteps (c : Config) : Script → List ScriptStep
  | .none => []
  | .init => initScript c
  | .req r => (reqKinds r).map fun k => ⟨k, .poweredOn⟩

/-- The step at `seq_ptr` (R19 of 10_state.md). -/
def currentStep (s : State) : Option ScriptStep := (scriptSteps s.cfg s.script)[s.seqPtr.toNat]?

end Sys2Proof.Machine
end

