-- ==== Sys2Proof/Machine/Flags.lean ====
section
/-! DEFINITION. The status outputs and the port outputs, each a function of the state (R33 to R41 of
10_state.md), the tick count of a DELAY step (R105 of 41_sequencer_init.md) and the width of its
counter (R28 of 10_state.md). -/

namespace Sys2Proof.Machine

/-- The faulted phases (R35 of 10_state.md, R142 of 60_exceptions.md). -/
def Phase.isFaulted : Phase → Bool
  | .fault => true
  | .configError => true
  | .uninit => false
  | .resetting => false
  | .configuring => false
  | .cleared => false
  | .poweredOn => false

/-- The phases in which requests are accepted (R38 of 10_state.md). -/
def Phase.isServing : Phase → Bool
  | .poweredOn => true
  | .fault => true
  | .configError => true
  | .uninit => false
  | .resetting => false
  | .configuring => false
  | .cleared => false

/-- `BUSY` (R33 of 10_state.md). -/
def busy (s : State) : Bool := decide (s.script ≠ .none) || s.rsp.isSome

/-- `STATUS[15:0]` (R33 of 10_state.md). -/
def status (s : State) : BitVec 16 :=
  s.cfg.orient.code ++ BitVec.ofBool (s.shInv.getD false) ++ BitVec.ofBool s.shInv.isSome ++
    s.shCon.getD 0#3 ++ BitVec.ofBool s.shCon.isSome ++ BitVec.ofBool (s.shDisp.getD false) ++
    BitVec.ofBool s.shDisp.isSome ++ BitVec.ofBool (busy s) ++ s.errCode.code ++ s.phase.code

/-- `ERRINFO[15:0]` (R34 of 10_state.md). -/
def errInfo (s : State) : BitVec 16 := s.errStep ++ 0#5 ++ s.errPhase

/-- The `fault` output (R35 of 10_state.md). -/
def faultOut (s : State) : Bool := s.phase.isFaulted

/-- `req_ready` (R38 of 10_state.md; 0 while `rst_n = 0`, R37). -/
def reqReady (s : State) : Bool :=
  s.pins.rstN && decide (s.script = .none) && s.rsp.isNone && s.phase.isServing

/-- `rsp_valid` (R39 of 10_state.md; 0 while `rst_n = 0`, R37). -/
def rspValid (s : State) : Bool := s.pins.rstN && s.rsp.isSome

/-- `rsp_status[2:0]` and `rsp_data[7:0]` while `rsp_valid = 1` (R39 of 10_state.md). -/
def rspOut (s : State) : Option (BitVec 3 × Byte) := s.rsp.map fun r => (r.status.code, r.data)

/-- A command transaction of one byte (R127 of 43_transport.md). -/
def cmdTransaction (b : Byte) : Transaction := ⟨.cmd, [b]⟩

/-- A data transaction (R128 of 43_transport.md). -/
def dataTransaction (bs : List Byte) : Transaction := ⟨.data, bs⟩

/-- The transaction that the step at `seq_ptr` makes, if it is a CMD or DATA step
(R102 and R103 of 41_sequencer_init.md). -/
def stepTransaction (s : State) : Option Transaction :=
  (currentStep s).bind fun st =>
    match st.kind with
    | .cmd i => (commandByteOf i).map cmdTransaction
    | .data => some (dataTransaction (s.fb.bytes s.cfg.N))
    | .rst _ => none
    | .delay _ => none
    | .clearBuf => none

/-- The transaction on the transport port: the outstanding one, or the one the step at `seq_ptr` offers, with no
byte taken yet (R40 of 10_state.md). In UNINIT no step of a script is performed (R100 of 41_sequencer_init.md). -/
def onPort (s : State) : Option InFlight :=
  match s.tx with
  | some f => some f
  | none => if s.phase = .uninit then none else (stepTransaction s).map fun t => ⟨t, 0⟩

/-- The byte presented to the adapter: `tx_kind`, `tx_byte[7:0]`, `tx_last` while `tx_valid = 1`
(R40 of 10_state.md; `tx_valid = 0` while `rst_n = 0`, R37). The first byte is presented from the step that offers
the transaction on, so the adapter may take it in that step (`hold`); `none` once every byte has been taken. -/
def txOut (s : State) : Option (BitVec 1 × Byte × Bool) :=
  if s.pins.rstN then
    (onPort s).bind fun f =>
      f.txn.bytes[f.handed]?.map fun b => (f.txn.kind.code, b, decide (f.handed + 1 = f.txn.bytes.length))
  else none

/-- `lcd_rst`; `none` when it is not connected (R41 of 10_state.md, R137 of 43_transport.md; inactive
while `rst_n = 0`, R29 and R37). -/
def lcdRst (s : State) : Option Bool :=
  if s.cfg.hasRst then some (if s.pins.rstN then s.rstOut else !s.cfg.rstActive) else none

/-- `ceil(t / T_TICK)` for a duration in milliseconds (R105 of 41_sequencer_init.md). -/
def ticksCeil (p : Period) (ms : Nat) : Nat := (ms * (p.denPred + 1) + p.numPred) / (p.numPred + 1)

/-- `ceil(t / T_TICK) + 1` (R105 of 41_sequencer_init.md). -/
def delayTicks (c : Config) (ms : Nat) : Nat := ticksCeil c.tTick ms + 1

/-- The width of `wait_cnt`: `ceil(log2(ceil(100 ms / T_TICK) + 2))` bits (R28 of 10_state.md). -/
def waitWidth (c : Config) : Nat := Nat.clog 2 (ticksCeil c.tTick tRstRecover + 2)

end Sys2Proof.Machine
end

