-- ==== Sys2Proof/Machine/Ops.lean ====
section
/-! DEFINITION. The shared operations on the state: responding, advancing a script, making a transaction,
entering FAULT and CONFIG_ERROR, and the only return from them, block reset. -/

namespace Sys2Proof.Machine

/-- What an instruction or a step answers. -/
abbrev Result := Host.Outcome State Fault Refusal

/-- `Respond(status, d)` (R119 of 41_sequencer_init.md), with its trace event (R16 of 00_scope.md). -/
def respond (st : RspStatus) (d : Byte) (s : State) : State :=
  { s with rsp := some ⟨st, d⟩, trace := s.trace ++ [.rsp st d] }

/-- The framebuffer replaced, and nothing else. -/
def setFb (m : Mem) (s : State) : State := { s with fb := m }

/-- A request is answered FAULTED without effect in a faulted phase, and performed otherwise
(R118 of 41_sequencer_init.md, R142 and R145 of 60_exceptions.md). -/
def serve (perform : State → State) (s : State) : Result :=
  .next (if s.phase.isFaulted then respond .faulted 0x00 s else perform s)

/-- A request script is started (R118 of 41_sequencer_init.md). -/
def startScript (r : ReqScript) (s : State) : State := { s with script := .req r, seqPtr := 0 }

/-- A completed step: `seq_ptr <- seq_ptr + 1` (R19 of 10_state.md), and `phase` follows the label of
the step reached (R107 of 41_sequencer_init.md). -/
def advance (s : State) : State :=
  { s with
    seqPtr := s.seqPtr + 1
    phase := ((scriptSteps s.cfg s.script)[(s.seqPtr + 1).toNat]?.map (·.label)).getD s.phase }

/-- The shadow updates of a CMD step, the step's own `u` (R101 of 41_sequencer_init.md). -/
inductive ShadowUpdate where
  | none
  | disp (v : Bool)
  | con (L : BitVec 3)
  | inv (f : Bool)
deriving DecidableEq, Repr

/-- A shadow update applied (R102 of 41_sequencer_init.md; R23 to R25 of 10_state.md). -/
def applyShadow (u : ShadowUpdate) (s : State) : State :=
  match u with
  | .none => s
  | .disp v => { s with shDisp := some v }
  | .con L => { s with shCon := some L }
  | .inv f => { s with shInv := some f }

/-- The trace event of a transaction (R16 of 00_scope.md). -/
def Transaction.event (t : Transaction) (a : Option Answer) : Event :=
  match t.kind with
  | .cmd => .cmd (t.bytes.headD 0x00) a
  | .data => .data t.bytes a

/-- What a transaction's answer does to `sh_disp`: `Cmd(0xAF)` and `Cmd(0xAE)` write it once answered Ok
(R23 of 10_state.md). The rule is about the transaction, whichever step makes it: a value byte of 0xAF or 0xAE is
such a transaction too (R127 of 43_transport.md, log 32). -/
def displayShadow (t : Transaction) (a : Answer) (d : Option Bool) : Option Bool :=
  match a with
  | .ok =>
    if t = cmdTransaction 0xAF then some true
    else if t = cmdTransaction 0xAE then some false
    else d
  | .err => d

/-- The adapter has answered the transaction: it is outstanding no more, its event is observed with its answer
(R16 of 00_scope.md, R129 of 43_transport.md), and `sh_disp` follows it (R23 of 10_state.md). -/
def answered (t : Transaction) (a : Answer) (s : State) : State :=
  { s with
    tx := none
    shDisp := displayShadow t a s.shDisp
    trace := s.trace ++ [t.event (some a)] }

/-- The adapter takes the byte presented, when it is ready for one (R40 of 10_state.md, log 7). -/
def handOver (ready : Bool) (f : InFlight) : InFlight :=
  if ready && decide (f.handed < f.txn.bytes.length) then { f with handed := f.handed + 1 } else f

/-- The transaction is outstanding and unanswered: the step is held (R100 and R102 of
41_sequencer_init.md). The adapter may take the byte that `txOut` presents in this step. -/
def hold (t : Transaction) (s : State) : State :=
  { s with tx := some (handOver s.pins.txReady (s.tx.getD ⟨t, 0⟩)) }

/-- Transport fault entry, for the step at `seq_ptr` in `phase` (R141 of 60_exceptions.md). -/
def transportFault (s : State) : State :=
  let s1 : State :=
    { s with
      errCode := .transport
      errPhase := s.phase.code
      errStep := s.seqPtr
      shDisp := none
      shCon := none
      shInv := none }
  let s2 : State :=
    match s.script with
    | .req _ => respond .transportErr 0x00 s1
    | .none => s1
    | .init => s1
  { s2 with script := .none, seqPtr := 0, phase := .fault }

/-- `EmitCmd` and `EmitData` with what follows their answer (R102 and R103 of 41_sequencer_init.md):
on Ok the shadow update and the next step, on Err the transport fault, held while unanswered. -/
def emit (t : Transaction) (u : ShadowUpdate) (s : State) : State :=
  match s.pins.answer with
  | some .ok => advance (applyShadow u (answered t .ok s))
  | some .err => transportFault (answered t .err s)
  | none => hold t s

/-- A CMD step (R102 of 41_sequencer_init.md). -/
def sendCommand (b : Byte) (u : ShadowUpdate) (s : State) : Result := .next (emit (cmdTransaction b) u s)

/-- Configuration error entry (R140 of 60_exceptions.md). -/
def configErrorEntry (s : State) : State := { s with phase := .configError, errCode := .config }

/-- The events block reset adds: an outstanding transaction is abandoned without an answer
(R156 of 70_reset_and_hazards.md, log 9). -/
def abandonedEvents (s : State) : List Event :=
  match s.tx with
  | some f => [f.txn.event none]
  | none => []

/-- Block reset: every register at its reset value (R37 of 10_state.md, R146 and R147 of
60_exceptions.md, R156 and R157 of 70_reset_and_hazards.md). The instance, the environment's inputs
and the events observed so far stay. DESIGN CHOICE, log 9: the reset line going inactive makes no `Rst` event (only
an RST step does), also in the middle of a reset pulse, and the `Delay` event of a DELAY step that block reset cuts
short stays as it is. -/
def blockReset (s : State) : State :=
  { State.ofConfig s.cfg with
    offered := s.offered
    pins := s.pins
    inputs := s.inputs
    trace := s.trace ++ abandonedEvents s }

end Sys2Proof.Machine
end

