-- ==== Sys2Proof/Machine/PanelCommands.lean ====
section
/-! DEFINITION. The command bytes and value bytes the block sends: each is one CMD step with its byte and its
shadow update (R68 to R88 of 30_encoding.md, R102 of 41_sequencer_init.md). -/

namespace Sys2Proof.Machine

/-- DISPLAY_OFF sends 0xAE; once answered Ok, `sh_disp <- some false` (R68 of 30_encoding.md). -/
def execDisplayOff (s : State) : Result := sendCommand 0xAE (.disp false) s

/-- DISPLAY_ON sends 0xAF; once answered Ok, `sh_disp <- some true` (R69 of 30_encoding.md). -/
def execDisplayOn (s : State) : Result := sendCommand 0xAF (.disp true) s

/-- SOFT_RESET sends 0xE2 (R70 of 30_encoding.md). -/
def execSoftReset (s : State) : Result := sendCommand 0xE2 .none s

/-- TEMP_COMP sends 0x24 (R71 of 30_encoding.md). -/
def execTempComp (s : State) : Result := sendCommand 0x24 .none s

/-- POWER_CTRL sends 0x2C (R72 of 30_encoding.md). -/
def execPowerCtrl (s : State) : Result := sendCommand 0x2C .none s

/-- BIAS_RATIO sends 0xEB (R73 of 30_encoding.md). -/
def execBiasRatio (s : State) : Result := sendCommand 0xEB .none s

/-- PM_PREFIX sends 0x81 (R74 of 30_encoding.md). -/
def execPmPrefix (s : State) : Result := sendCommand 0x81 .none s

/-- SCROLL_ORIGIN sends 0x40 (R76 of 30_encoding.md). -/
def execScrollOrigin (s : State) : Result := sendCommand 0x40 .none s

/-- ANALOG_A sends 0x33 (R77 of 30_encoding.md). -/
def execAnalogA (s : State) : Result := sendCommand 0x33 .none s

/-- ANALOG_B sends 0x2A (R78 of 30_encoding.md). -/
def execAnalogB (s : State) : Result := sendCommand 0x2A .none s

/-- LINE_CORR sends 0xC4 (R79 of 30_encoding.md). -/
def execLineCorr (s : State) : Result := sendCommand 0xC4 .none s

/-- COM_END_PREFIX sends 0xF1 (R80 of 30_encoding.md). -/
def execComEndPrefix (s : State) : Result := sendCommand 0xF1 .none s

/-- CONTRAST sends `0x20 | L`; once answered Ok, `sh_con <- some L` (R82 of 30_encoding.md, R24 of
10_state.md). -/
def execContrast (L : BitVec 3) (s : State) : Result := sendCommand (0x20#8 ||| L.zeroExtend 8) (.con L) s

/-- INVERT sends `0x21 | zext_8(f)`; once answered Ok, `sh_inv <- some f` (R83 of 30_encoding.md, R25 of
10_state.md). -/
def execInvert (f : Bool) (s : State) : Result := sendCommand (0x21#8 ||| bitByte f) (.inv f) s

/-- PAGE_ADDR_0 sends 0xB0 (R84 of 30_encoding.md). -/
def execPageAddr0 (s : State) : Result := sendCommand 0xB0 .none s

/-- COL_HI_0 sends 0x10 (R85 of 30_encoding.md). -/
def execColHi0 (s : State) : Result := sendCommand 0x10 .none s

/-- COL_LO_0 sends 0x00 (R86 of 30_encoding.md). -/
def execColLo0 (s : State) : Result := sendCommand 0x00 .none s

/-- MAP_ORIENT0 sends 0xC4 (R87 of 30_encoding.md). -/
def execMapOrient0 (s : State) : Result := sendCommand 0xC4 .none s

/-- MAP_ORIENT1 sends 0xC0 (R87 of 30_encoding.md). -/
def execMapOrient1 (s : State) : Result := sendCommand 0xC0 .none s

/-- MAP_ORIENT2 sends 0xC2 (R87 of 30_encoding.md). -/
def execMapOrient2 (s : State) : Result := sendCommand 0xC2 .none s

/-- MAP_ORIENT3 sends 0xC6 (R87 of 30_encoding.md). -/
def execMapOrient3 (s : State) : Result := sendCommand 0xC6 .none s

/-- RAMCTL_ORIENT0_2 sends 0x89 (R88 of 30_encoding.md). -/
def execRamctlOrient02 (s : State) : Result := sendCommand 0x89 .none s

/-- RAMCTL_ORIENT1_3 sends 0x8B (R88 of 30_encoding.md). -/
def execRamctlOrient13 (s : State) : Result := sendCommand 0x8B .none s

/-- PM_VALUE sends its byte (R75 of 30_encoding.md), with no shadow update of its step (R112 of
41_sequencer_init.md). -/
def execPmValue (v : Byte) (s : State) : Result := sendCommand v .none s

/-- COM_END_VALUE sends its byte (R81 of 30_encoding.md), with no shadow update of its step (R112 of
41_sequencer_init.md). -/
def execComEndValue (v : Byte) (s : State) : Result := sendCommand v .none s

end Sys2Proof.Machine
end

