-- ==== Sys2Proof/Machine/PixelOps.lean ====
section
/-! DEFINITION. The pixel buffer operations: SET, GET, FILL, FILL_RECT, BUF_RD, BUF_WR (40_pixel_ops.md). -/

namespace Sys2Proof.Machine

/-- SET: one pixel written, out of bounds clipped (R93 of 40_pixel_ops.md, R144 of 60_exceptions.md). -/
def execSet (x y : Int) (c : Bool) (s : State) : Result :=
  serve (fun s => respond .ok 0x00 (setFb (s.fb.setPixel s.cfg x y c) s)) s

/-- GET: one pixel read, out of bounds answered OOB (R94 of 40_pixel_ops.md, R143 of 60_exceptions.md). -/
def execGet (x y : Int) (s : State) : Result :=
  serve (fun s =>
    match mapPixel s.cfg x y with
    | some p => respond .ok (bitByte (s.fb.readBit p)) s
    | none => respond .oob 0x00 s) s

/-- FILL: every byte 0xFF or 0x00 (R95 of 40_pixel_ops.md). -/
def execFill (c : Bool) (s : State) : Result :=
  serve (fun s => respond .ok 0x00 (setFb (s.fb.fill s.cfg.N (if c then 0xFF else 0x00)) s)) s

/-- FILL_RECT: every pixel of the clipped rectangle (R96 of 40_pixel_ops.md, R144 of 60_exceptions.md). -/
def execFillRect (x y w h : Int) (c : Bool) (s : State) : Result :=
  serve (fun s => respond .ok 0x00 (setFb (s.fb.fillRect s.cfg x y w h c) s)) s

/-- BUF_RD: one byte read (R97 of 40_pixel_ops.md, R143 of 60_exceptions.md). -/
def execBufRd (a : Nat) (s : State) : Result :=
  serve (fun s => if a < s.cfg.N then respond .ok (s.fb.read a) s else respond .oob 0x00 s) s

/-- BUF_WR: one byte written (R98 of 40_pixel_ops.md, R143 of 60_exceptions.md). -/
def execBufWr (a : Nat) (v : Byte) (s : State) : Result :=
  serve (fun s =>
    if a < s.cfg.N then respond .ok 0x00 (setFb (s.fb.write a v) s) else respond .oob 0x00 s) s

end Sys2Proof.Machine
end

