-- ==== Sys2Proof/Machine/RuntimeOps.lean ====
section
/-! DEFINITION. The requests that start a script (42_runtime_ops.md, dispatched by R118 of
41_sequencer_init.md) and the reserved requests (R66 of 30_encoding.md). -/

namespace Sys2Proof.Machine

/-- FLUSH starts its script (R118; R121 of 42_runtime_ops.md). -/
def execFlush (s : State) : Result := serve (startScript .flush) s

/-- POWER_ON starts its script (R118; R122 of 42_runtime_ops.md). -/
def execPowerOn (s : State) : Result := serve (startScript .powerOn) s

/-- POWER_OFF starts its script (R118; R123 of 42_runtime_ops.md). -/
def execPowerOff (s : State) : Result := serve (startScript .powerOff) s

/-- SET_CONTRAST starts its script (R118; R124 of 42_runtime_ops.md). -/
def execSetContrast (L : BitVec 3) (s : State) : Result := serve (startScript (.setContrast L)) s

/-- SET_INVERT starts its script (R118; R125 of 42_runtime_ops.md). -/
def execSetInvert (f : Bool) (s : State) : Result := serve (startScript (.setInvert f)) s

/-- A reserved request: answered ILLEGAL, no other effect (R66 of 30_encoding.md). -/
def illegalRequest (s : State) : Result := serve (respond .illegal 0x00) s

/-- RESERVED_0x0 (R66 of 30_encoding.md). -/
def execReserved0 (s : State) : Result := illegalRequest s

/-- RESERVED_0xC (R66 of 30_encoding.md). -/
def execReservedC (s : State) : Result := illegalRequest s

/-- RESERVED_0xD (R66 of 30_encoding.md). -/
def execReservedD (s : State) : Result := illegalRequest s

/-- RESERVED_0xE (R66 of 30_encoding.md). -/
def execReservedE (s : State) : Result := illegalRequest s

/-- RESERVED_0xF (R66 of 30_encoding.md). -/
def execReservedF (s : State) : Result := illegalRequest s

end Sys2Proof.Machine
end

