-- ==== Sys2Proof/Machine/Dispatch.lean ====
section
/-! DEFINITION. The dispatch of an instruction to its meaning (R118 of 41_sequencer_init.md for requests,
R102 for the command instructions of a script). -/

namespace Sys2Proof.Machine

def exec (i : Instr) (s : State) : Host.Outcome State Fault Refusal :=
  match i with
  | .set x y c => Sys2Proof.Machine.execSet x y c s
  | .get x y => Sys2Proof.Machine.execGet x y s
  | .fill c => Sys2Proof.Machine.execFill c s
  | .fillRect x y w h c => Sys2Proof.Machine.execFillRect x y w h c s
  | .flush => Sys2Proof.Machine.execFlush s
  | .powerOn => Sys2Proof.Machine.execPowerOn s
  | .powerOff => Sys2Proof.Machine.execPowerOff s
  | .setContrast L => Sys2Proof.Machine.execSetContrast L s
  | .setInvert f => Sys2Proof.Machine.execSetInvert f s
  | .bufRd a => Sys2Proof.Machine.execBufRd a s
  | .bufWr a v => Sys2Proof.Machine.execBufWr a v s
  | .reserved0 => Sys2Proof.Machine.execReserved0 s
  | .reservedC => Sys2Proof.Machine.execReservedC s
  | .reservedD => Sys2Proof.Machine.execReservedD s
  | .reservedE => Sys2Proof.Machine.execReservedE s
  | .reservedF => Sys2Proof.Machine.execReservedF s
  | .displayOff => Sys2Proof.Machine.execDisplayOff s
  | .displayOn => Sys2Proof.Machine.execDisplayOn s
  | .softReset => Sys2Proof.Machine.execSoftReset s
  | .tempComp => Sys2Proof.Machine.execTempComp s
  | .powerCtrl => Sys2Proof.Machine.execPowerCtrl s
  | .biasRatio => Sys2Proof.Machine.execBiasRatio s
  | .pmPrefix => Sys2Proof.Machine.execPmPrefix s
  | .scrollOrigin => Sys2Proof.Machine.execScrollOrigin s
  | .analogA => Sys2Proof.Machine.execAnalogA s
  | .analogB => Sys2Proof.Machine.execAnalogB s
  | .lineCorr => Sys2Proof.Machine.execLineCorr s
  | .comEndPrefix => Sys2Proof.Machine.execComEndPrefix s
  | .contrast L => Sys2Proof.Machine.execContrast L s
  | .invert f => Sys2Proof.Machine.execInvert f s
  | .pageAddr0 => Sys2Proof.Machine.execPageAddr0 s
  | .colHi0 => Sys2Proof.Machine.execColHi0 s
  | .colLo0 => Sys2Proof.Machine.execColLo0 s
  | .mapOrient0 => Sys2Proof.Machine.execMapOrient0 s
  | .mapOrient1 => Sys2Proof.Machine.execMapOrient1 s
  | .mapOrient2 => Sys2Proof.Machine.execMapOrient2 s
  | .mapOrient3 => Sys2Proof.Machine.execMapOrient3 s
  | .ramctlOrient02 => Sys2Proof.Machine.execRamctlOrient02 s
  | .ramctlOrient13 => Sys2Proof.Machine.execRamctlOrient13 s
  | .pmValue v => Sys2Proof.Machine.execPmValue v s
  | .comEndValue v => Sys2Proof.Machine.execComEndValue v s

end Sys2Proof.Machine
end

