-- ==== Sys2Proof/Machine/Sequencer.lean ====
section
/-! DEFINITION. The sequencer: script steps, the UNINIT step, the end of a script, and accepting and answering
requests (41_sequencer_init.md). -/

namespace Sys2Proof.Machine

/-- The inputs of the next step are sampled: the next row, or quiet inputs when none is left. A newly
offered request queues behind the ones already offered (R38 of 10_state.md, R117 of
41_sequencer_init.md; log 4, log 5). -/
def sample (s : State) : State :=
  match s.inputs with
  | [] => { s with pins := .quiet }
  | p :: rest => { s with pins := p, inputs := rest, offered := s.offered ++ p.req.toList }

/-- The RST step (R104 of 41_sequencer_init.md). -/
def rstStep (level : Bool) (s : State) : State :=
  advance { s with rstOut := level, trace := s.trace ++ [.rst level] }

/-- The DELAY step: it starts by loading `wait_cnt`, counts tick strobes down, and completes when
`wait_cnt` is 0 (R105 of 41_sequencer_init.md, log 10). -/
def delayStep (ms : Nat) (s : State) : State :=
  if s.delaying then
    if s.waitCnt = 0 then advance { s with delaying := false }
    else if s.pins.tick then { s with waitCnt := s.waitCnt - 1 }
    else s
  else
    { s with delaying := true, waitCnt := delayTicks s.cfg ms, trace := s.trace ++ [.delay ms] }

/-- The bytes of the DATA step: the snapshot taken at its start, which an outstanding transaction holds
(R103 of 41_sequencer_init.md, R52 of 20_memory.md). -/
def dataBytes (s : State) : List Byte :=
  match s.tx with
  | some f => f.txn.bytes
  | none => s.fb.bytes s.cfg.N

/-- The DATA step (R103 of 41_sequencer_init.md). -/
def dataStep (s : State) : State := emit (dataTransaction (dataBytes s)) .none s

/-- The CLEARBUF step (R106 of 41_sequencer_init.md). -/
def clearBufStep (s : State) : State := advance (setFb (s.fb.fill s.cfg.N 0x00) s)

/-- One script step by its kind; a CMD step runs its command instruction
(R102 to R106 of 41_sequencer_init.md). -/
def performStep (k : StepKind) (s : State) : Result :=
  match k with
  | .rst level => .next (rstStep level s)
  | .delay ms => .next (delayStep ms s)
  | .cmd i => exec i s
  | .data => .next (dataStep s)
  | .clearBuf => .next (clearBufStep s)

/-- The end of a script (R108 of 41_sequencer_init.md). -/
def endScript (s : State) : State :=
  match s.script with
  | .none => s
  | .init => { s with phase := .poweredOn, script := .none, seqPtr := 0 }
  | .req _ => { respond .ok 0x00 s with script := .none, seqPtr := 0 }

/-- The step at `seq_ptr`, or the end of the script (R100 item 3 of 41_sequencer_init.md). -/
def runStep (s : State) : Result :=
  match currentStep s with
  | some st => performStep st.kind s
  | none =>
    if s.seqPtr.toNat = (scriptSteps s.cfg s.script).length then .next (endScript s)
    else .fault .seqPtrPastEnd

/-- The pins an SPI instance needs are there (R109 of 41_sequencer_init.md, R136 of 43_transport.md). -/
def hasRequiredPins (c : Config) : Bool :=
  match c.bus with
  | .i2c => true
  | .spi => c.hasDc && c.hasCs

/-- The phase label of INIT's first step (R109 of 41_sequencer_init.md). -/
def initLabel (c : Config) : Phase := ((initScript c).head?.map (·.label)).getD .configuring

/-- The UNINIT step (R109 of 41_sequencer_init.md, R140 of 60_exceptions.md). -/
def uninitStep (s : State) : State :=
  if hasRequiredPins s.cfg then { s with script := .init, seqPtr := 0, phase := initLabel s.cfg }
  else configErrorEntry s

/-- The latched request is dispatched (R118 of 41_sequencer_init.md). -/
def dispatch (s : State) : Result :=
  match s.req with
  | some r => exec (decodeRequest r) s
  | none => .next s

/-- The oldest offered request is latched (R117 of 41_sequencer_init.md). -/
def latchRequest (r : Request) (rest : List Request) (s : State) : State :=
  { s with req := some r, offered := rest }

/-- No script: the host takes the pending response, or an offered request is accepted and dispatched in
the same step, or nothing happens (R100 items 4 and 5 and R117 of 41_sequencer_init.md, R39 of
10_state.md). -/
def idleStep (s : State) : Result :=
  match s.rsp with
  | some _ => .next (if s.pins.rspReady then { s with rsp := none } else s)
  | none =>
    match s.offered with
    | [] => .next s
    | r :: rest => if reqReady s then dispatch (latchRequest r rest s) else .next s

/-- The one enabled step of a state with its inputs, in the order of R100 (41_sequencer_init.md). -/
def sequencerStep (s : State) : Result :=
  if s.pins.rstN then
    match s.phase, s.script with
    | .uninit, _ => .next (uninitStep s)
    | _, .none => idleStep s
    | _, _ => runStep s
  else .next (blockReset s)

end Sys2Proof.Machine
end

