-- ==== Sys2Proof/Machine/Fetch.lean ====
section
/-! DEFINITION. Where the next step takes its instruction from: the request port, or the step of a script at
`seq_ptr` (log 16, log 17). -/

namespace Sys2Proof.Machine

/-- A request is put on the request port of a block that can accept it: idle, no response pending, in
a phase that serves requests, with quiet inputs in the next step. -/
def offerRequest (r : Request) (s : State) : State :=
  { s with
    phase := if s.phase.isServing then s.phase else .poweredOn
    script := .none
    seqPtr := 0
    rsp := none
    offered := r :: s.offered
    inputs := .quiet :: s.inputs }

/-- The nearest instance whose scripts send a command: the parameters that select it (R110 to R113 of
41_sequencer_init.md). Other parameters stay. -/
def configSending (i : Instr) (c : Config) : Config :=
  match i with
  | .softReset => { c with hasRst := false }
  | .pmValue v => { c with pmValue := v }
  | .comEndValue v => { c with comEndValue := v }
  | .mapOrient0 => { c with orient := .deg0 }
  | .mapOrient1 => { c with orient := .deg90 }
  | .mapOrient2 => { c with orient := .deg180 }
  | .mapOrient3 => { c with orient := .deg270 }
  | .ramctlOrient02 => { c with orient := .deg0 }
  | .ramctlOrient13 => { c with orient := .deg90 }
  | _ => c

/-- The script that sends a command. -/
def scriptSending (i : Instr) : Script :=
  match i with
  | .contrast L => .req (.setContrast L)
  | .invert f => .req (.setInvert f)
  | _ => .init

/-- The scripts of an instance send a command. -/
def sendsCommand (c : Config) (i : Instr) : Bool :=
  (scriptSteps c (scriptSending i)).any fun st => decide (st.kind = .cmd i)

/-- `seq_ptr` is put at the step that sends a command, in the script that sends it, and the adapter
answers Ok in the next step. The instance is changed only where its scripts do not send the command. -/
def placeCommand (i : Instr) (s : State) : State :=
  let c := if sendsCommand s.cfg i then s.cfg else configSending i s.cfg
  let steps := scriptSteps c (scriptSending i)
  let k := steps.findIdx fun st => decide (st.kind = .cmd i)
  { s with
    cfg := c
    script := scriptSending i
    seqPtr := BitVec.ofNat 8 k
    phase := (steps[k]?.map (·.label)).getD .poweredOn
    inputs := { Pins.quiet with answer := some .ok } :: s.inputs }

/-- A word of the opcode table placed where the next step fetches. -/
def placeWord (s : State) (nbits w : Nat) : State :=
  match tableWord nbits w with
  | some (.request r) => offerRequest r s
  | some (.command i) => placeCommand i s
  | none => s

end Sys2Proof.Machine
end

