-- ==== Sys2Proof/Machine/Step.lean ====
section
/-! DEFINITION. One step of the machine (R100 of 41_sequencer_init.md). -/

namespace Sys2Proof.Machine

/-- One step: the inputs of the step are sampled and the one enabled step of the sequencer is taken.
A record that is no instance is refused (R13 of 00_scope.md). -/
def step (s : State) : Host.Outcome State Fault Refusal :=
  if s.cfg.WF then sequencerStep (sample s) else .refused .notAnInstance

/-- `s` with a word of the opcode table placed where the next step fetches its instruction (log 16). -/
def State.withFetchWord (s : State) (nbits w : Nat) : State := placeWord s nbits w

end Sys2Proof.Machine
end

