-- ==== Sys2Proof/Machine/Assembler.lean ====
section
/-! DEFINITION. The assembler of requests (R92 of 30_encoding.md): one line of text to one request bundle,
refusing by name. Text is a list of characters. -/

namespace Sys2Proof.Machine

/-- Why a line is refused (R92 of 30_encoding.md). -/
inductive AsmError where
  | unknownMnemonic
  | wrongOperandCount
  | notANumber
  | outOfRange
deriving DecidableEq, Repr

/-- A mnemonic of R92 (30_encoding.md). -/
inductive AsmOp where
  | set
  | get
  | fill
  | fillRect
  | flush
  | powerOn
  | powerOff
  | setContrast
  | setInvert
  | bufRd
  | bufWr
deriving DecidableEq, Repr

/-- The text of a mnemonic (R92 of 30_encoding.md). -/
def AsmOp.text : AsmOp → List Char
  | .set => ['S', 'E', 'T']
  | .get => ['G', 'E', 'T']
  | .fill => ['F', 'I', 'L', 'L']
  | .fillRect => ['F', 'I', 'L', 'L', '_', 'R', 'E', 'C', 'T']
  | .flush => ['F', 'L', 'U', 'S', 'H']
  | .powerOn => ['P', 'O', 'W', 'E', 'R', '_', 'O', 'N']
  | .powerOff => ['P', 'O', 'W', 'E', 'R', '_', 'O', 'F', 'F']
  | .setContrast => ['S', 'E', 'T', '_', 'C', 'O', 'N', 'T', 'R', 'A', 'S', 'T']
  | .setInvert => ['S', 'E', 'T', '_', 'I', 'N', 'V', 'E', 'R', 'T']
  | .bufRd => ['B', 'U', 'F', '_', 'R', 'D']
  | .bufWr => ['B', 'U', 'F', '_', 'W', 'R']

/-- Every mnemonic. -/
def AsmOp.all : List AsmOp :=
  [.set, .get, .fill, .fillRect, .flush, .powerOn, .powerOff, .setContrast, .setInvert, .bufRd, .bufWr]

/-- An operand in its range; the ranges are those of R92 (30_encoding.md). -/
def inRange (lo hi v : Int) : Except AsmError Int := if lo ≤ v ∧ v ≤ hi then .ok v else .error .outOfRange

/-- A coordinate or size. -/
def coordOperand (v : Int) : Except AsmError Field16 := (inRange (-32768) 32767 v).map (BitVec.ofInt 16)

/-- A color or flag. -/
def flagOperand (v : Int) : Except AsmError Byte := (inRange 0 1 v).map (BitVec.ofInt 8)

/-- A data or level byte. -/
def byteOperand (v : Int) : Except AsmError Byte := (inRange 0 255 v).map (BitVec.ofInt 8)

/-- A byte address. -/
def addrOperand (v : Int) : Except AsmError Field16 := (inRange 0 65535 v).map (BitVec.ofInt 16)

/-- The bundle of a mnemonic and its operands; every field the line does not name is 0
(R92 of 30_encoding.md). -/
def assembleOp (op : AsmOp) (args : List Int) : Except AsmError Request :=
  match op, args with
  | .set, [x, y, c] => do return ⟨0x1, ← coordOperand x, ← coordOperand y, 0, 0, ← flagOperand c⟩
  | .get, [x, y] => do return ⟨0x2, ← coordOperand x, ← coordOperand y, 0, 0, 0⟩
  | .fill, [c] => do return ⟨0x3, 0, 0, 0, 0, ← flagOperand c⟩
  | .fillRect, [x, y, w, h, c] => do
    return ⟨0x4, ← coordOperand x, ← coordOperand y, ← coordOperand w, ← coordOperand h, ← flagOperand c⟩
  | .flush, [] => .ok (.ofOp 0x5)
  | .powerOn, [] => .ok (.ofOp 0x6)
  | .powerOff, [] => .ok (.ofOp 0x7)
  | .setContrast, [v] => do return ⟨0x8, 0, 0, 0, 0, ← byteOperand v⟩
  | .setInvert, [f] => do return ⟨0x9, 0, 0, 0, 0, ← flagOperand f⟩
  | .bufRd, [a] => do return ⟨0xA, ← addrOperand a, 0, 0, 0, 0⟩
  | .bufWr, [a, v] => do return ⟨0xB, ← addrOperand a, 0, 0, 0, ← byteOperand v⟩
  | _, _ => .error .wrongOperandCount

/-! ## Text -/

/-- The value of a digit in a base. -/
def digitValue (base : Nat) (c : Char) : Option Nat :=
  let n := c.toNat
  let d := if 48 ≤ n ∧ n ≤ 57 then some (n - 48)
    else if 97 ≤ n ∧ n ≤ 102 then some (n - 87)
    else if 65 ≤ n ∧ n ≤ 70 then some (n - 55)
    else none
  d.bind fun d => if d < base then some d else none

/-- The value of a run of digits after what has been read. -/
def digitsFrom (base acc : Nat) : List Char → Option Nat
  | [] => some acc
  | c :: rest => (digitValue base c).bind fun d => digitsFrom base (base * acc + d) rest

/-- The value of a non-empty run of digits. -/
def digits (base : Nat) (text : List Char) : Option Nat :=
  match text with
  | [] => none
  | _ :: _ => digitsFrom base 0 text

/-- How many operands of a mnemonic, from the first on, may have a leading `-`: x, y, w and h
(R92 of 30_encoding.md). -/
def AsmOp.signedOperands : AsmOp → Nat
  | .set => 2
  | .get => 2
  | .fill => 0
  | .fillRect => 4
  | .flush => 0
  | .powerOn => 0
  | .powerOff => 0
  | .setContrast => 0
  | .setInvert => 0
  | .bufRd => 0
  | .bufWr => 0

/-- A number: decimal, with a leading `-` where it is allowed, or hexadecimal with `0x`
(R92 of 30_encoding.md). -/
def number (signed : Bool) (text : List Char) : Except AsmError Int :=
  let v : Option Int :=
    match text with
    | '0' :: 'x' :: rest => (digits 16 rest).map fun n => (n : Int)
    | '-' :: rest => if signed then (digits 10 rest).map fun n => -(n : Int) else none
    | _ => (digits 10 text).map fun n => (n : Int)
  match v with
  | some v => .ok v
  | none => .error .notANumber

/-- A blank between the parts of a line. -/
def isBlank (c : Char) : Bool := c == ' ' || c == '\t'

/-- Text without the blanks around it. -/
def trim (text : List Char) : List Char :=
  ((text.dropWhile isBlank).reverse.dropWhile isBlank).reverse

/-- The parts between commas. -/
def parts : List Char → List (List Char)
  | [] => [[]]
  | c :: rest =>
    match parts rest with
    | [] => [[c]]
    | p :: ps => if c == ',' then [] :: p :: ps else (c :: p) :: ps

/-- The numbers of an operand list, the first `signed` of which may have a leading `-`. -/
def numbers (signed : Nat) : List (List Char) → Except AsmError (List Int)
  | [] => .ok []
  | p :: ps =>
    match number (decide (0 < signed)) (trim p) with
    | .error e => .error e
    | .ok v =>
      match numbers (signed - 1) ps with
      | .error e => .error e
      | .ok vs => .ok (v :: vs)

/-- One line: `;` starts a comment, and a line with nothing before it assembles to nothing
(R92 of 30_encoding.md). -/
def assembleLine (line : List Char) : Except AsmError (Option Request) :=
  let text := trim (line.takeWhile (· != ';'))
  if text.isEmpty then .ok none
  else
    let name := text.takeWhile fun c => !isBlank c
    let args := trim (text.dropWhile fun c => !isBlank c)
    match AsmOp.all.find? fun op => op.text == name with
    | none => .error .unknownMnemonic
    | some op =>
      match numbers op.signedOperands (if args.isEmpty then [] else parts args) with
      | .error e => .error e
      | .ok vs => (assembleOp op vs).map some

end Sys2Proof.Machine
end

