-- ==== Sys2Proof/Machine/Transport.lean ====
section
/-! DEFINITION. The framing an adapter puts on the wire for a transaction of the block (R131 to R135 of
43_transport.md). It is a function of the trace, not state of the block. -/

namespace Sys2Proof.Machine

/-- What the adapter does on the bus. -/
inductive WireEvent where
  /-- One I2C write transfer: the 7-bit address and its payload. -/
  | i2cWrite (addr : BitVec 7) (payload : List Byte)
  /-- The SPI chip-select line driven to a level. -/
  | chipSelect (level : Bool)
  /-- The SPI data/command select line driven to a level. -/
  | dataSelect (level : Bool)
  /-- One byte shifted out over SPI. -/
  | shiftOut (b : Byte)
deriving DecidableEq, Repr

/-- The address of an I2C transfer: the base address for a command, the one above it for data
(R131 and R132 of 43_transport.md). -/
def i2cTarget (c : Config) (k : TxKind) : BitVec 7 :=
  match k with
  | .cmd => c.i2cAddr
  | .data => c.i2cAddr + 1

/-- The level of the data/command select line: low for commands, high for data (R134 and R135 of
43_transport.md). -/
def selectLevel (k : TxKind) : Bool :=
  match k with
  | .cmd => false
  | .data => true

/-- The framing of one transaction (R131 to R135 of 43_transport.md). -/
def frameOf (c : Config) (t : Transaction) : List WireEvent :=
  match c.bus with
  | .i2c => [.i2cWrite (i2cTarget c t.kind) t.bytes]
  | .spi =>
    [.chipSelect c.csActive, .dataSelect (selectLevel t.kind)] ++ t.bytes.map .shiftOut ++
      [.chipSelect (!c.csActive)]

/-- The transaction of an event that was answered Ok: only its framing is known to be whole on the wire
(R130 of 43_transport.md, log 23). -/
def okTransaction : Event → Option Transaction
  | .cmd b (some .ok) => some (cmdTransaction b)
  | .data bs (some .ok) => some (dataTransaction bs)
  | .cmd _ (some .err) => none
  | .data _ (some .err) => none
  | .cmd _ none => none
  | .data _ none => none
  | .rst _ => none
  | .delay _ => none
  | .rsp _ _ => none

/-- The framing of every transaction answered Ok so far, in order. -/
def wireTrace (s : State) : List WireEvent := (s.trace.filterMap okTransaction).flatMap (frameOf s.cfg)

end Sys2Proof.Machine
end

