-- ==== Sys2Proof/Safety.lean ====
section
/-! DEFINITION. What counts as a good state and a safe run: the invariant of the block, quiescence (R16 of
00_scope.md), and the predicates the statements are written in. -/

namespace Sys2Proof.Machine

/-! ## Observation of pixels and events -/

/-- The pixel at a logical coordinate, for an in-bounds one (R49 and R51 of 20_memory.md). -/
def pixelAt (s : State) (x y : Int) : Option Bool := (mapPixel s.cfg x y).map s.fb.readBit

/-- The event of the initial blank frame answered Ok (R116 of 41_sequencer_init.md). -/
def blankFrame (c : Config) : Event := .data (List.replicate c.N 0x00) (some .ok)

/-- A display-on command event, whatever its answer (R69 of 30_encoding.md). -/
def isDisplayOn : Event → Bool
  | .cmd b _ => b == 0xAF#8
  | .data _ _ => false
  | .rst _ => false
  | .delay _ => false
  | .rsp _ _ => false

/-- The command bytes the block may send (R68 to R88 of 30_encoding.md, R89). -/
def commandBytes (c : Config) : List Byte :=
  [0xAE, 0xAF, 0xE2, 0x24, 0x2C, 0xEB, 0x81, c.pmValue, 0x40, 0x33, 0x2A, 0xC4, 0xF1, c.comEndValue,
   0x20, 0x21, 0x22, 0x23, 0x24, 0x25, 0x26, 0x27, 0xB0, 0x10, 0x00,
   0xC4, 0xC0, 0xC2, 0xC6, 0x89, 0x8B]

/-- An event that is no transaction (R16 of 00_scope.md). -/
def isTransaction : Event → Bool
  | .cmd _ _ => true
  | .data _ _ => true
  | .rst _ => false
  | .delay _ => false
  | .rsp _ _ => false

/-- The shadow update of a command instruction (R68, R69, R82, R83 of 30_encoding.md; R101 of
41_sequencer_init.md). -/
def shadowOf : Instr → ShadowUpdate
  | .displayOff => .disp false
  | .displayOn => .disp true
  | .contrast L => .con L
  | .invert f => .inv f
  | _ => .none

/-! ## The invariant -/

/-- The framebuffer is canonical and lies in its address space (R43 of 20_memory.md). -/
abbrev FbOk (s : State) : Prop := s.fb.wf = true ∧ s.fb.below s.cfg.N = true

/-- The error registers and the shadows agree with the phase (R26, R27 of 10_state.md, R140 and R141 of
60_exceptions.md). -/
abbrev ErrOk (s : State) : Prop :=
  (s.errCode = .transport ↔ s.phase = .fault) ∧
  (s.errCode = .config ↔ s.phase = .configError) ∧
  (s.errCode ≠ .transport → s.errPhase = 0 ∧ s.errStep = 0) ∧
  (s.phase = .fault → s.shDisp = none ∧ s.shCon = none ∧ s.shInv = none)

/-- The request script an accepted request starts (R118 of 41_sequencer_init.md). -/
def scriptStartedBy : Instr → Option ReqScript
  | .flush => some .flush
  | .powerOn => some .powerOn
  | .powerOff => some .powerOff
  | .setContrast L => some (.setContrast L)
  | .setInvert f => some (.setInvert f)
  | _ => none

/-- The phase label at a step of INIT; the last label at its end (R107 of 41_sequencer_init.md). -/
def initPhaseAt (c : Config) (k : Nat) : Phase := ((initScript c)[k]?.map (·.label)).getD .cleared

/-- `phase`, `script`, `seq_ptr`, the latch and the response agree (R18 to R21 and R30 of 10_state.md,
R107, R108 and R119 of 41_sequencer_init.md). -/
def ScriptOk (s : State) : Prop :=
  match s.script with
  | .none =>
    (s.phase = .uninit ∨ s.phase = .poweredOn ∨ s.phase = .fault ∨ s.phase = .configError) ∧
      s.seqPtr = 0 ∧ (s.phase = .uninit → s.rsp = none)
  | .init =>
    s.phase = initPhaseAt s.cfg s.seqPtr.toNat ∧
      s.seqPtr.toNat ≤ (initScript s.cfg).length ∧ s.rsp = none
  | .req r =>
    s.phase = .poweredOn ∧ s.seqPtr.toNat ≤ (reqKinds r).length ∧ s.rsp = none ∧
      ∃ q, s.req = some q ∧ scriptStartedBy (decodeRequest q) = some r

/-- The DELAY counter: at rest it is 0, and during a DELAY step at most the value loaded (R28 of
10_state.md, R105 of 41_sequencer_init.md). -/
def DelayOk (s : State) : Prop :=
  if s.delaying then
    ∃ ms l, currentStep s = some ⟨.delay ms, l⟩ ∧ s.waitCnt ≤ delayTicks s.cfg ms
  else s.waitCnt = 0

/-- The outstanding transaction is the one of the step at `seq_ptr` (R40 of 10_state.md, R129 of
43_transport.md, R103 of 41_sequencer_init.md). -/
def TxOk (s : State) : Prop :=
  ∀ f, s.tx = some f → f.handed ≤ f.txn.bytes.length ∧
    ((∃ i b l, currentStep s = some ⟨.cmd i, l⟩ ∧ commandByteOf i = some b ∧ f.txn = cmdTransaction b) ∨
     (∃ l, currentStep s = some ⟨.data, l⟩ ∧ f.txn = dataTransaction (s.fb.bytes s.cfg.N)))

/-- The reset line is active only between the first and the third step of INIT's hardware path
(R110 of 41_sequencer_init.md, R137 of 43_transport.md). -/
abbrev RstOk (s : State) : Prop :=
  s.rstOut = s.cfg.rstActive ↔
    s.cfg.hasRst = true ∧ s.script = .init ∧ (s.seqPtr = 1 ∨ s.seqPtr = 2)

/-- The index of INIT's CLEARBUF step (R115 of 41_sequencer_init.md). -/
def clearBufAt (c : Config) : Nat := if c.hasRst then 20 else 16

/-- After CLEARBUF the framebuffer is blank until INIT ends (R106 and R116 of 41_sequencer_init.md). -/
abbrev BlankOk (s : State) : Prop :=
  s.script = .init → clearBufAt s.cfg < s.seqPtr.toNat → ∀ a, s.fb.read a = 0x00

/-- The invariant of the block: what every state reachable from block reset of an instance meets. -/
structure Inv (s : State) : Prop where
  config : s.cfg.WF
  fb : FbOk s
  err : ErrOk s
  script : ScriptOk s
  delay : DelayOk s
  tx : TxOk s
  rst : RstOk s
  blank : BlankOk s

/-- Every display-on in a trace comes after a blank frame answered Ok (R116 of 41_sequencer_init.md, R162
of 70_reset_and_hazards.md). -/
def DisplayOnGuarded (c : Config) (tr : List Event) : Prop :=
  ∀ before e after, tr = before ++ e :: after → isDisplayOn e = true → blankFrame c ∈ before

/-- The index of INIT's DATA step (R115 of 41_sequencer_init.md). -/
def initDataAt (c : Config) : Nat := if c.hasRst then 24 else 20

/-- The guard of display-on as an invariant, over the events from the `n`-th on: it holds of them, and a block
that is powered on, or past INIT's DATA step, has sent the blank frame among them. With `n` the number of events at
the last block reset, the frame of an earlier INIT does not count. -/
def BlankBeforeOn (n : Nat) (s : State) : Prop :=
  n ≤ s.trace.length ∧ DisplayOnGuarded s.cfg (s.trace.drop n) ∧
    (s.phase = .poweredOn ∨ (s.script = .init ∧ initDataAt s.cfg < s.seqPtr.toNat) →
      blankFrame s.cfg ∈ s.trace.drop n)

/-! ## Runs -/

/-- A quiescent state: nothing to do until the environment acts (R16 of 00_scope.md). -/
def quiescent (s : State) : Bool :=
  (decide (s.script = .none) && s.rsp.isNone && s.offered.isEmpty) ||
    s.phase.isFaulted

/-- The good quiescent states (R16 of 00_scope.md). -/
def goodQuiescent (s : State) : Bool := quiescent s && decide (s.phase = .poweredOn)

/-- Input rows of a friendly environment: reset released, every transaction answered Ok, a tick in every
step (the fairness of R168 of 70_reset_and_hazards.md, for a bounded run). -/
abbrev Friendly (rows : List Pins) : Prop :=
  ∀ p ∈ rows, p.rstN = true ∧ p.answer = some .ok ∧ p.tick = true

/-- `k` steps of the machine. -/
abbrev runSteps (k : Nat) (s : State) : Host.Outcome State Fault Refusal := Sys2Proof.core.run k s

/-- An idle instance in POWERED_ON whose oldest offered request is `r`. -/
structure IdleWith (s : State) (r : Request) (rest : List Request) : Prop where
  config : s.cfg.WF
  phase : s.phase = .poweredOn
  script : s.script = .none
  seqPtr : s.seqPtr = 0
  rsp : s.rsp = none
  tx : s.tx = none
  offered : s.offered = r :: rest

/-- What a request with a single command does from an idle block (R122 to R125 of 42_runtime_ops.md), for the
opcode `op`: accepted in the first step, the byte `b` of the request sent and answered in the second, answered OK in
the third with the shadows as `after` says; on an Err in the second step, FAULT with err_phase 4 and err_step 0, the
shadows unknown and TRANSPORT_ERR. -/
def RunsOneCommand (op : BitVec 4) (b : Request → Byte) (after : Request → State → State) : Prop :=
  ∀ (s : State) (r : Request) (rest : List Request) (p1 p2 p3 : Pins) (more : List Pins),
    IdleWith s r rest → r.op = op → p1.rstN = true → p2.rstN = true →
    (s.inputs = p1 :: p2 :: p3 :: more → p3.rstN = true → p2.answer = some .ok →
      Sys2Proof.core.run 3 s =
        .next { after r s with
          req := some r
          offered := rest ++ p1.req.toList ++ p2.req.toList ++ p3.req.toList
          pins := p3
          inputs := more
          rsp := some ⟨.ok, 0x00⟩
          trace := s.trace ++ [.cmd (b r) (some .ok), .rsp .ok 0x00] }) ∧
    (s.inputs = p1 :: p2 :: more → p2.answer = some .err →
      Sys2Proof.core.run 2 s =
        .next { s with
          req := some r
          offered := rest ++ p1.req.toList ++ p2.req.toList
          pins := p2
          inputs := more
          phase := .fault
          errCode := .transport
          errPhase := 4
          errStep := 0
          shDisp := none
          shCon := none
          shInv := none
          rsp := some ⟨.transportErr, 0x00⟩
          trace := s.trace ++ [.cmd (b r) (some .err), .rsp .transportErr 0x00] })

/-- The command instructions of INIT in order (R115 of 41_sequencer_init.md). -/
def initCommands (c : Config) : List Instr :=
  (initScript c).filterMap fun st =>
    match st.kind with
    | .cmd i => some i
    | .rst _ => none
    | .delay _ => none
    | .data => none
    | .clearBuf => none

/-- The steps a DELAY takes with a tick in every step: its start, its ticks, its completion. -/
def delaySteps (c : Config) (ms : Nat) : Nat := delayTicks c ms + 2

/-- The steps from reset to the end of INIT in a friendly environment (R109, R115 and R108 of
41_sequencer_init.md). -/
def initSteps (c : Config) : Nat :=
  if c.hasRst then
    25 + delaySteps c tRstAssert + delaySteps c tRstRecover + delaySteps c tSettle
  else 23 + delaySteps c tSettle

/-- The events of INIT's reset part (V40 and V41 of 95_test_vectors.md). -/
def resetEvents (c : Config) : List Event :=
  if c.hasRst then
    [.rst c.rstActive, .delay 10, .rst (!c.rstActive), .delay 100, .rst (!c.rstActive), .delay 10]
  else [.cmd 0xE2 (some .ok), .delay 10]

/-- The two bytes of the orientation pair (R113 of 41_sequencer_init.md). -/
def orientationBytes (c : Config) : List Byte :=
  match c.orient with
  | .deg0 => [0xC4, 0x89]
  | .deg90 => [0xC0, 0x8B]
  | .deg180 => [0xC2, 0x89]
  | .deg270 => [0xC6, 0x8B]

/-- The events of a successful INIT (V40 and V41 of 95_test_vectors.md). -/
def initEvents (c : Config) : List Event :=
  resetEvents c ++
    (([0xAE, 0x24, 0x2C, 0xEB, 0x81, c.pmValue, 0x40, 0x33, 0x2A, 0xC4, 0xF1, c.comEndValue] ++
      orientationBytes c ++ [0xB0, 0x10, 0x00]).map fun b => .cmd b (some .ok)) ++
    [blankFrame c, .cmd 0xAF (some .ok)]

end Sys2Proof.Machine
end

