-- ==== Sys2Proof/Certificates/Slice0/Obligations.lean ====
section
/-! DEFINITION. The statements for the provers: what the instructions, the sequencer and the whole block do. -/

open Sys2Proof Sys2Proof.Machine

/-! ## The address mapper -/

/-- R50 of 20_memory.md: Map is a bijection from the in-bounds coordinates onto the places of the
framebuffer. -/
def Obligations.MapIsABijectionOntoTheBits : Prop :=
  ∀ c : Config, c.WF →
    (∀ x y p, mapPixel c x y = some p → p.index < c.N ∧ p.bit < 8) ∧
    (∀ x y x' y' p, mapPixel c x y = some p → mapPixel c x' y' = some p → x = x' ∧ y = y') ∧
    (∀ i b, i < c.N → b < 8 → ∃ x y, InBounds c x y ∧ mapPixel c x y = some ⟨i, b⟩)

/-- R46, R47 and R48 of 20_memory.md: which coordinates are mapped, and the byte and bit formulas of both
packings, in both of the forms R48 gives for the index. -/
def Obligations.MapFollowsThePackingFormulas : Prop :=
  ∀ (c : Config) (x y : Nat), c.WF →
    (∀ u v : Int, (mapPixel c u v).isSome = true ↔
      0 ≤ u ∧ u < logicalW c ∧ 0 ≤ v ∧ v < logicalH c) ∧
    ((c.orient = .deg0 ∨ c.orient = .deg180) →
      logicalW c = c.W ∧ logicalH c = c.H ∧
      (x < c.W → y < c.H → mapPixel c x y = some ⟨y / 8 * c.W + x, y % 8⟩)) ∧
    ((c.orient = .deg90 ∨ c.orient = .deg270) →
      logicalW c = c.H ∧ logicalH c = c.W ∧
      (x < c.H → y < c.W → ∃ b, mapPixel c x y = some ⟨(y * c.H + x) / 8, b⟩ ∧
        (y * c.H + x) / 8 = y * c.P + x / 8 ∧
        (c.hbitOrder = .msbFirst → b = 7 - x % 8) ∧ (c.hbitOrder = .lsbFirst → b = x % 8)))

/-! ## Pixel buffer operations -/

/-- R93 of 40_pixel_ops.md: SET writes its pixel when it is in bounds, no other pixel and no other byte,
answers OK, and changes nothing else. -/
def Obligations.SetWritesItsPixelOnly : Prop :=
  (∀ r : Request, r.op = 0x1 → decodeRequest r = .set r.x.toInt r.y.toInt (r.d.getLsbD 0)) ∧
  ∀ (s : State) (x y : Int) (c : Bool), s.cfg.WF → s.fb.wf = true → s.phase = .poweredOn →
    ∃ m : Mem,
      exec (.set x y c) s =
        .next { s with fb := m, rsp := some ⟨.ok, 0x00⟩, trace := s.trace ++ [.rsp .ok 0x00] } ∧
      (∀ px py q, mapPixel s.cfg px py = some q →
        m.readBit q = if px = x ∧ py = y then c else s.fb.readBit q) ∧
      (∀ a, (∀ p, mapPixel s.cfg x y = some p → a ≠ p.index) → m.read a = s.fb.read a)

/-- R94 of 40_pixel_ops.md: GET answers the pixel, or OOB with 0x00, and changes only the response. -/
def Obligations.GetAnswersThePixelOrOob : Prop :=
  (∀ r : Request, r.op = 0x2 → decodeRequest r = .get r.x.toInt r.y.toInt) ∧
  ∀ (s : State) (x y : Int), s.phase = .poweredOn →
    (∀ p, mapPixel s.cfg x y = some p →
      exec (.get x y) s =
        .next { s with
          rsp := some ⟨.ok, bitByte ((s.fb.read p.index).getLsbD p.bit)⟩
          trace := s.trace ++ [.rsp .ok (bitByte ((s.fb.read p.index).getLsbD p.bit))] }) ∧
    (¬ InBounds s.cfg x y →
      exec (.get x y) s =
        .next { s with rsp := some ⟨.oob, 0x00⟩, trace := s.trace ++ [.rsp .oob 0x00] })

/-- R95 of 40_pixel_ops.md: FILL leaves every byte at 0xFF or 0x00 and every pixel at the color. -/
def Obligations.FillSetsEveryByteAndPixel : Prop :=
  (∀ r : Request, r.op = 0x3 → decodeRequest r = .fill (r.d.getLsbD 0)) ∧
  ∀ (s : State) (c : Bool), s.cfg.WF → s.phase = .poweredOn →
    ∃ m : Mem,
      exec (.fill c) s =
        .next { s with fb := m, rsp := some ⟨.ok, 0x00⟩, trace := s.trace ++ [.rsp .ok 0x00] } ∧
      (∀ a, a < s.cfg.N → m.read a = if c then 0xFF#8 else 0x00#8) ∧
      (∀ a, s.cfg.N ≤ a → m.read a = s.fb.read a) ∧
      (∀ px py q, mapPixel s.cfg px py = some q → m.readBit q = c)

/-- R96 of 40_pixel_ops.md: FILL_RECT sets every in-bounds pixel of the unclipped integer rectangle, no
other pixel, and no byte that holds none of them. -/
def Obligations.FillRectSetsTheClippedRectangle : Prop :=
  (∀ r : Request, r.op = 0x4 →
    decodeRequest r = .fillRect r.x.toInt r.y.toInt r.w.toInt r.h.toInt (r.d.getLsbD 0)) ∧
  ∀ (s : State) (x y w h : Int) (c : Bool), s.cfg.WF → s.fb.wf = true → s.phase = .poweredOn →
    ∃ m : Mem,
      exec (.fillRect x y w h c) s =
        .next { s with fb := m, rsp := some ⟨.ok, 0x00⟩, trace := s.trace ++ [.rsp .ok 0x00] } ∧
      (∀ px py q, mapPixel s.cfg px py = some q →
        m.readBit q = if InRect x y w h px py then c else s.fb.readBit q) ∧
      (∀ a, (∀ px py q, InRect x y w h px py → mapPixel s.cfg px py = some q → a ≠ q.index) →
        m.read a = s.fb.read a)

/-- R97 of 40_pixel_ops.md: BUF_RD answers the byte, or OOB, and changes only the response. -/
def Obligations.BufRdAnswersTheByteOrOob : Prop :=
  (∀ r : Request, r.op = 0xA → decodeRequest r = .bufRd r.x.toNat) ∧
  ∀ (s : State) (a : Nat), s.phase = .poweredOn →
    (a < s.cfg.N →
      exec (.bufRd a) s =
        .next { s with rsp := some ⟨.ok, s.fb.read a⟩, trace := s.trace ++ [.rsp .ok (s.fb.read a)] }) ∧
    (s.cfg.N ≤ a →
      exec (.bufRd a) s =
        .next { s with rsp := some ⟨.oob, 0x00⟩, trace := s.trace ++ [.rsp .oob 0x00] })

/-- R98 of 40_pixel_ops.md: BUF_WR writes its byte and no other, or answers OOB and writes nothing. -/
def Obligations.BufWrWritesItsByteOnly : Prop :=
  (∀ r : Request, r.op = 0xB → decodeRequest r = .bufWr r.x.toNat r.d) ∧
  ∀ (s : State) (a : Nat) (v : Byte), s.fb.wf = true → s.phase = .poweredOn →
    (a < s.cfg.N →
      ∃ m : Mem,
        exec (.bufWr a v) s =
          .next { s with fb := m, rsp := some ⟨.ok, 0x00⟩, trace := s.trace ++ [.rsp .ok 0x00] } ∧
        m.read a = v ∧ (∀ b, b ≠ a → m.read b = s.fb.read b)) ∧
    (s.cfg.N ≤ a →
      exec (.bufWr a v) s =
        .next { s with rsp := some ⟨.oob, 0x00⟩, trace := s.trace ++ [.rsp .oob 0x00] })

/-- R99 of 40_pixel_ops.md: the four round-trip laws, on two requests performed one after the other. -/
def Obligations.PixelRoundTripLaws : Prop :=
  ∀ s : State, s.cfg.WF → FbOk s → s.phase = .poweredOn →
    (∀ x y c, InBounds s.cfg x y → ∃ t u, exec (.set x y c) s = .next t ∧ exec (.get x y) t = .next u ∧
      u.rsp = some ⟨.ok, bitByte c⟩) ∧
    (∀ x y c, InBounds s.cfg x y → ∃ t u, exec (.fill c) s = .next t ∧ exec (.get x y) t = .next u ∧
      u.rsp = some ⟨.ok, bitByte c⟩) ∧
    (∀ x y c px py, InBounds s.cfg px py → (px ≠ x ∨ py ≠ y) →
      ∃ t u u', exec (.set x y c) s = .next t ∧ exec (.get px py) t = .next u ∧
        exec (.get px py) s = .next u' ∧ u.rsp = u'.rsp) ∧
    (∀ i t, (∃ x y c, i = .set x y c) ∨ (∃ x y, i = .get x y) ∨ (∃ c, i = .fill c) ∨
        (∃ x y w h c, i = .fillRect x y w h c) ∨ (∃ a, i = .bufRd a) ∨ (∃ a v, i = .bufWr a v) →
      exec i s = .next t →
        t.shDisp = s.shDisp ∧ t.shCon = s.shCon ∧ t.shInv = s.shInv ∧ t.phase = s.phase ∧
          t.trace.filter isTransaction = s.trace.filter isTransaction)

/-- R54 of 20_memory.md: the byte view and the pixel view are the same storage. -/
def Obligations.ByteViewAndPixelViewAgree : Prop :=
  ∀ (s : State) (x y : Int) (p : Place) (v : Byte), s.cfg.WF → s.fb.wf = true → s.phase = .poweredOn →
    mapPixel s.cfg x y = some p →
      (∃ t, exec (.bufWr p.index v) s = .next t ∧ pixelAt t x y = some (v.getLsbD p.bit)) ∧
      (∃ t r, exec (.bufRd p.index) s = .next t ∧ t.rsp = some r ∧ r.status = .ok ∧
        pixelAt s x y = some (r.data.getLsbD p.bit))

/-- R96 of 40_pixel_ops.md, corner cases: a rectangle over the whole logical space is FILL, one of size
1 by 1 is SET, and an empty one leaves the framebuffer as it is. -/
def Obligations.FillRectCornersAreFillAndSet : Prop :=
  ∀ (s : State) (c : Bool), s.cfg.WF → FbOk s →
    (∀ x y w h : Int, x ≤ 0 → y ≤ 0 → (logicalW s.cfg : Int) ≤ x + w → (logicalH s.cfg : Int) ≤ y + h →
      exec (.fillRect x y w h c) s = exec (.fill c) s) ∧
    (∀ x y : Int, exec (.fillRect x y 1 1 c) s = exec (.set x y c) s) ∧
    (∀ x y w h : Int, w ≤ 0 ∨ h ≤ 0 →
      s.fb.fillRect s.cfg x y w h c = s.fb)

/-! ## Requests in general -/

/-- R64 and R65 of 30_encoding.md: the opcode selects the operation, each operand is one field with no scaling,
and the fields an operation does not list have no influence. -/
def Obligations.OpcodeSelectsTheOperation : Prop :=
  ∀ r : Request,
    (r.op = 0x0 → decodeRequest r = .reserved0) ∧
    (r.op = 0x1 → decodeRequest r = .set r.x.toInt r.y.toInt (r.d.getLsbD 0)) ∧
    (r.op = 0x2 → decodeRequest r = .get r.x.toInt r.y.toInt) ∧
    (r.op = 0x3 → decodeRequest r = .fill (r.d.getLsbD 0)) ∧
    (r.op = 0x4 →
      decodeRequest r = .fillRect r.x.toInt r.y.toInt r.w.toInt r.h.toInt (r.d.getLsbD 0)) ∧
    (r.op = 0x5 → decodeRequest r = .flush) ∧
    (r.op = 0x6 → decodeRequest r = .powerOn) ∧
    (r.op = 0x7 → decodeRequest r = .powerOff) ∧
    (r.op = 0x8 → decodeRequest r = .setContrast (r.d.extractLsb' 0 3)) ∧
    (r.op = 0x9 → decodeRequest r = .setInvert (r.d.getLsbD 0)) ∧
    (r.op = 0xA → decodeRequest r = .bufRd r.x.toNat) ∧
    (r.op = 0xB → decodeRequest r = .bufWr r.x.toNat r.d) ∧
    (r.op = 0xC → decodeRequest r = .reservedC) ∧
    (r.op = 0xD → decodeRequest r = .reservedD) ∧
    (r.op = 0xE → decodeRequest r = .reservedE) ∧
    (r.op = 0xF → decodeRequest r = .reservedF) ∧
    (∀ v : Field16, -32768 ≤ v.toInt ∧ v.toInt ≤ 32767 ∧ v.toNat ≤ 65535)

/-- R66 of 30_encoding.md: a reserved request in POWERED_ON changes no state but the response, ILLEGAL; in a
faulted phase it is answered FAULTED. -/
def Obligations.ReservedRequestsAreIllegal : Prop :=
  (∀ r : Request, r.op ∈ ([0x0, 0xC, 0xD, 0xE, 0xF] : List (BitVec 4)) → decodeRequest r ∈
    [Instr.reserved0, Instr.reservedC, Instr.reservedD, Instr.reservedE, Instr.reservedF]) ∧
  ∀ (s : State) (i : Instr),
    i ∈ [Instr.reserved0, Instr.reservedC, Instr.reservedD, Instr.reservedE, Instr.reservedF] →
    (s.phase = .poweredOn →
      exec i s =
        .next { s with rsp := some ⟨.illegal, 0x00⟩, trace := s.trace ++ [.rsp .illegal 0x00] }) ∧
    (s.phase = .fault ∨ s.phase = .configError →
      exec i s =
        .next { s with rsp := some ⟨.faulted, 0x00⟩, trace := s.trace ++ [.rsp .faulted 0x00] })

/-- R142 of 60_exceptions.md: in a faulted phase the block is ready whenever no response is pending, and every
request, whatever its opcode, is answered FAULTED and has no other effect. -/
def Obligations.FaultedPhaseAnswersEveryRequest : Prop :=
  ∀ s : State, s.phase = .fault ∨ s.phase = .configError →
    (s.pins.rstN = true → s.script = .none → s.rsp = none → reqReady s = true) ∧
    (∀ r : Request,
      exec (decodeRequest r) s =
        .next { s with rsp := some ⟨.faulted, 0x00⟩, trace := s.trace ++ [.rsp .faulted 0x00] })

/-- R118 of 41_sequencer_init.md: FLUSH, POWER_ON, POWER_OFF, SET_CONTRAST and SET_INVERT start their script
at step 0 and change nothing else. -/
def Obligations.ScriptRequestsStartTheirScript : Prop :=
  ∀ s : State, s.phase = .poweredOn →
    exec .flush s = .next { s with script := .req .flush, seqPtr := 0 } ∧
    exec .powerOn s = .next { s with script := .req .powerOn, seqPtr := 0 } ∧
    exec .powerOff s = .next { s with script := .req .powerOff, seqPtr := 0 } ∧
    (∀ L, exec (.setContrast L) s = .next { s with script := .req (.setContrast L), seqPtr := 0 }) ∧
    (∀ f, exec (.setInvert f) s = .next { s with script := .req (.setInvert f), seqPtr := 0 })

/-! ## Command instructions -/

/-- R102 of 41_sequencer_init.md, answered Ok: every command instruction sends its byte as one command
transaction, applies its shadow update and completes its step; the phase follows the label of the step
reached (R107), and nothing else changes. `sh_disp` follows the transaction's byte (R23 of 10_state.md), also that of
a value byte, whose step has no shadow update of its own (R112): that R23 covers value bytes is log 32. -/
def Obligations.CommandAnsweredOkCompletes : Prop :=
  ∀ (i : Instr) (b : Byte) (s : State), commandByteOf i = some b → s.pins.answer = some .ok →
    exec i s =
      .next { s with
        tx := none
        trace := s.trace ++ [.cmd b (some .ok)]
        shDisp := if b = 0xAF then some true else if b = 0xAE then some false else s.shDisp
        shCon := (match i with | .contrast L => some L | _ => s.shCon)
        shInv := (match i with | .invert f => some f | _ => s.shInv)
        seqPtr := s.seqPtr + 1
        phase := ((scriptSteps s.cfg s.script)[(s.seqPtr + 1).toNat]?.map (·.label)).getD s.phase }

/-- R68 and R69 of 30_encoding.md with R82 and R83: the bytes and the shadows of the four commands that have
a shadow update; the inversion byte is 0x21 for both flags (C1 of 90_conflicts.md). -/
def Obligations.ShadowCommandsSendTheirBytes : Prop :=
  ∀ s : State, s.pins.answer = some .ok →
    (∃ t, exec .displayOff s = .next t ∧ t.trace = s.trace ++ [.cmd 0xAE (some .ok)] ∧
      t.shDisp = some false ∧ t.shCon = s.shCon ∧ t.shInv = s.shInv) ∧
    (∃ t, exec .displayOn s = .next t ∧ t.trace = s.trace ++ [.cmd 0xAF (some .ok)] ∧
      t.shDisp = some true ∧ t.shCon = s.shCon ∧ t.shInv = s.shInv) ∧
    (∀ L, ∃ t b, exec (.contrast L) s = .next t ∧ t.trace = s.trace ++ [.cmd b (some .ok)] ∧
      b.toNat = 0x20 + L.toNat ∧ t.shCon = some L ∧ t.shDisp = s.shDisp ∧ t.shInv = s.shInv) ∧
    (∀ f, ∃ t, exec (.invert f) s = .next t ∧ t.trace = s.trace ++ [.cmd 0x21 (some .ok)] ∧
      t.shInv = some f ∧ t.shDisp = s.shDisp ∧ t.shCon = s.shCon)

/-- R141 of 60_exceptions.md: a CMD or DATA step answered Err enters FAULT in one step: the error registers,
the shadows, the response to a running request, and nothing else; the framebuffer is unchanged. -/
def Obligations.TransactionAnsweredErrEntersFault : Prop :=
  ∀ s : State, s.pins.answer = some .err →
    let entered (e : Event) : State :=
      { s with
        errCode := .transport
        errPhase := s.phase.code
        errStep := s.seqPtr
        shDisp := none
        shCon := none
        shInv := none
        script := .none
        seqPtr := 0
        phase := .fault
        tx := none
        rsp := (match s.script with | .req _ => some ⟨.transportErr, 0x00⟩ | _ => s.rsp)
        trace := s.trace ++ e ::
          (match s.script with | .req _ => [.rsp .transportErr 0x00] | _ => []) }
    (∀ i b, commandByteOf i = some b → exec i s = .next (entered (.cmd b (some .err)))) ∧
    performStep .data s = .next (entered (.data (dataBytes s) (some .err)))

/-- R129 of 43_transport.md with R100 of 41_sequencer_init.md and R40 of 10_state.md: a CMD or DATA step whose
transaction is unanswered is held; only the outstanding transaction is recorded, an outstanding one is not
offered again, and the adapter takes the byte presented exactly when it is ready for one. The port presents the
first byte from the step that offers the transaction on, with its kind code and its last flag. -/
def Obligations.UnansweredTransactionIsHeld : Prop :=
  ∀ (s : State) (i : Instr) (b : Byte), commandByteOf i = some b → s.pins.answer = none →
    let held (t : Transaction) (k : Nat) : State :=
      { s with tx := some ⟨t, if s.pins.txReady = true ∧ k < t.bytes.length then k + 1 else k⟩ }
    (s.tx = none →
      exec i s = .next (held ⟨.cmd, [b]⟩ 0) ∧
      performStep .data s = .next (held ⟨.data, s.fb.bytes s.cfg.N⟩ 0) ∧
      (s.pins.rstN = true → s.phase ≠ .uninit → ∀ l,
        (currentStep s = some ⟨.cmd i, l⟩ → txOut s = some (0, b, true)) ∧
        (currentStep s = some ⟨.data, l⟩ → s.cfg.WF →
          txOut s = some (1, s.fb.read 0, decide (s.cfg.N = 1))))) ∧
    (∀ g, s.tx = some g →
      exec i s = .next (held g.txn g.handed) ∧ performStep .data s = .next (held g.txn g.handed) ∧
      (s.pins.rstN = true → ∀ c, g.txn.bytes[g.handed]? = some c →
        txOut s = some (if g.txn.kind = .cmd then 0 else 1, c, decide (g.handed + 1 = g.txn.bytes.length))))

/-- R103 of 41_sequencer_init.md and R52 of 20_memory.md: the DATA step sends the whole framebuffer as one data
transaction, in ascending index order, whether it is answered in the step that offers it or after having been
held. -/
def Obligations.DataStepSendsTheWholeFrame : Prop :=
  ∀ s : State, (∀ f, s.tx = some f → f.txn = ⟨.data, s.fb.bytes s.cfg.N⟩) → s.pins.answer = some .ok →
    ∃ bs, bs.length = s.cfg.N ∧ (∀ k, k < s.cfg.N → bs[k]? = some (s.fb.read k)) ∧
      performStep .data s =
        .next { s with
          tx := none
          trace := s.trace ++ [.data bs (some .ok)]
          seqPtr := s.seqPtr + 1
          phase := ((scriptSteps s.cfg s.script)[(s.seqPtr + 1).toNat]?.map (·.label)).getD s.phase }

/-! ## One step of the machine -/

/-- A step runs the decoded instruction: when the block is ready and the oldest request offered is a bundle
whose bytes decode to `i`, the step latches the bundle and is `exec i` (R117 and R118 of
41_sequencer_init.md). -/
def Obligations.StepRunsTheDecodedRequest : Prop :=
  ∀ (s : State) (bytes : List Byte) (i : Instr) (rest : List Request), s.cfg.WF →
    decode .request bytes = .ok i →
    (sample s).offered = .ofWord (BitVec.ofNat 76 (natOfBytes bytes)) :: rest →
    reqReady (sample s) = true →
    step s =
      exec i { sample s with
        req := some (.ofWord (BitVec.ofNat 76 (natOfBytes bytes)))
        offered := rest }

/-- A step runs the command instruction of the script step at `seq_ptr` (R100 item 3 and R102 of
41_sequencer_init.md). -/
def Obligations.StepRunsTheScriptCommand : Prop :=
  ∀ (s : State) (i : Instr) (l : Phase), s.cfg.WF → (sample s).pins.rstN = true → s.phase ≠ .uninit →
    currentStep s = some ⟨.cmd i, l⟩ → step s = exec i (sample s)

/-- R117 of 41_sequencer_init.md: a request is latched and dispatched in the step in which the block is ready;
while it is not ready an offered request is neither latched nor lost. -/
def Obligations.RequestIsAcceptedWhenReadyAndHeldOtherwise : Prop :=
  ∀ s : State, s.cfg.WF → (sample s).pins.rstN = true →
    (∀ r rest, (sample s).offered = r :: rest → reqReady (sample s) = true →
      ∃ t, step s = .next t ∧ step s = exec (decodeRequest r) { sample s with req := some r, offered := rest } ∧
        t.req = some r ∧ t.offered = rest) ∧
    (reqReady (sample s) = false → ∀ t, step s = .next t →
      t.offered = (sample s).offered ∧ t.req = s.req)

/-- R39 of 10_state.md: a pending response is taken exactly in a step with rsp_ready = 1; until then it stays,
and nothing else happens. -/
def Obligations.ResponseWaitsForTheHost : Prop :=
  (∀ s : State, s.pins.rstN = true → (rspValid s = true ↔ s.rsp ≠ none)) ∧
  ∀ (s : State) (r : Response), s.cfg.WF → (sample s).pins.rstN = true → s.phase ≠ .uninit →
    s.script = .none → s.rsp = some r →
    rspOut (sample s) = some (r.status.code, r.data) ∧
    step s = .next { sample s with rsp := if (sample s).pins.rspReady then none else some r }

/-- R109 of 41_sequencer_init.md: the UNINIT step enters CONFIG_ERROR when an SPI pin is missing and starts
INIT otherwise, with no transaction and no change of the reset line. -/
def Obligations.UninitStepStartsInitOrReportsConfigError : Prop :=
  ∀ s : State, s.cfg.WF → (sample s).pins.rstN = true → s.phase = .uninit →
    (s.cfg.bus = .spi ∧ (s.cfg.hasDc = false ∨ s.cfg.hasCs = false) →
      step s = .next { sample s with phase := .configError, errCode := .config }) ∧
    (¬ (s.cfg.bus = .spi ∧ (s.cfg.hasDc = false ∨ s.cfg.hasCs = false)) →
      step s =
        .next { sample s with
          script := .init
          seqPtr := 0
          phase := if s.cfg.hasRst then .resetting else .configuring })

/-- R157 of 70_reset_and_hazards.md with R146 of 60_exceptions.md: block reset, in any state, restores every
register's reset value and output; the framebuffer's content is left open by the rule, and is all 0x00
after the CLEARBUF step. -/
def Obligations.BlockResetRestoresTheResetValues : Prop :=
  ∀ s : State, s.cfg.WF → (sample s).pins.rstN = false →
    (∃ t, step s = .next t ∧ t.cfg = s.cfg ∧ t.phase = .uninit ∧ t.seqPtr = 0 ∧ t.script = .none ∧
      t.req = none ∧ t.shDisp = none ∧ t.shCon = none ∧ t.shInv = none ∧ t.errCode = .none ∧
      t.errPhase = 0 ∧ t.errStep = 0 ∧ t.waitCnt = 0 ∧ t.rstOut = !s.cfg.rstActive ∧ t.rsp = none ∧
      t.tx = none ∧
      status t = s.cfg.orient.code ++ 0#14 ∧ errInfo t = 0x0000 ∧ faultOut t = false ∧
      reqReady t = false ∧ rspValid t = false ∧ txOut t = none ∧
      (s.cfg.hasRst = true → lcdRst t = some (!s.cfg.rstActive))) ∧
    (∀ (u : State) (a : Nat), a < u.cfg.N → ∃ v, performStep .clearBuf u = .next v ∧ v.fb.read a = 0x00)

/-- R147 of 60_exceptions.md: nothing but block reset leaves FAULT or CONFIG_ERROR or clears the error
registers, no transaction is made there, and the framebuffer, the shadows and the reset line stay. -/
def Obligations.OnlyBlockResetLeavesAFaultedPhase : Prop :=
  ∀ s t : State, s.cfg.WF → s.phase = .fault ∨ s.phase = .configError → s.script = .none →
    step s = .next t →
    ((sample s).pins.rstN = false → t.phase = .uninit ∧ t.errCode = .none ∧ t.errPhase = 0 ∧ t.errStep = 0) ∧
    ((sample s).pins.rstN = true →
      t.phase = s.phase ∧ t.errCode = s.errCode ∧ t.errPhase = s.errPhase ∧ t.errStep = s.errStep ∧
      t.script = .none ∧ t.fb = s.fb ∧ t.shDisp = s.shDisp ∧ t.shCon = s.shCon ∧ t.shInv = s.shInv ∧
      t.rstOut = s.rstOut ∧ t.tx = s.tx ∧
      (t.trace = s.trace ∨ t.trace = s.trace ++ [.rsp .faulted 0x00]))

/-- R13 of 00_scope.md: exactly the parameter records that are no instance are refused. ORIENT, the 8-bit value
bytes and `T_TICK > 0` hold by their types; a missing SPI line is no reason. -/
def Obligations.RecordThatIsNoInstanceIsRefused : Prop :=
  ∀ s : State,
    step s = .refused .notAnInstance ↔
      (s.cfg.H % 8 ≠ 0 ∨ s.cfg.H < 8 ∨ s.cfg.W < 1 ∨ 65536 < s.cfg.P * s.cfg.W ∨
        (s.cfg.bus = .i2c ∧ (0x7E < s.cfg.i2cAddr.toNat ∨ s.cfg.hasRst = true)))

/-! ## DELAY steps and the timer -/

/-- R105 of 41_sequencer_init.md: a DELAY step loads `ceil(t / T_TICK) + 1`, counts a tick strobe down by one,
is held without one, and completes at 0; the number of ticks spans at least `t` (K7 of
93_implementation_defined.md), and the longest wait fits the counter of R28 of 10_state.md. -/
def Obligations.DelayStepCountsTicks : Prop :=
  (∀ (s : State) (ms : Nat),
    (s.delaying = false →
      performStep (.delay ms) s =
        .next { s with
          delaying := true
          waitCnt := delayTicks s.cfg ms
          trace := s.trace ++ [.delay ms] }) ∧
    (s.delaying = true → s.waitCnt ≠ 0 →
      performStep (.delay ms) s =
        .next { s with waitCnt := if s.pins.tick then s.waitCnt - 1 else s.waitCnt }) ∧
    (s.delaying = true → s.waitCnt = 0 →
      performStep (.delay ms) s =
        .next { s with
          delaying := false
          seqPtr := s.seqPtr + 1
          phase := ((scriptSteps s.cfg s.script)[(s.seqPtr + 1).toNat]?.map (·.label)).getD s.phase })) ∧
  (∀ (c : Config) (ms : Nat),
    ms * (c.tTick.denPred + 1) ≤ (delayTicks c ms - 1) * (c.tTick.numPred + 1) ∧
    (0 < ms → (delayTicks c ms - 2) * (c.tTick.numPred + 1) < ms * (c.tTick.denPred + 1))) ∧
  (∀ (c : Config) (ms : Nat), ms ≤ 100 → delayTicks c ms < 2 ^ waitWidth c)

/-- R161 of 70_reset_and_hazards.md: a DELAY step in progress does not complete before its ticks have come:
over any number of steps with fewer ticks than `wait_cnt` it stays where it is, and makes no event. -/
def Obligations.DelayIsHeldUntilItsTicksHaveCome : Prop :=
  ∀ (rows : List Pins) (s : State) (ms : Nat) (l : Phase) (more : List Pins), s.cfg.WF →
    s.phase ≠ .uninit → currentStep s = some ⟨.delay ms, l⟩ → s.delaying = true →
    s.inputs = rows ++ more → (∀ p ∈ rows, p.rstN = true) →
    (rows.filter (·.tick)).length < s.waitCnt →
    ∃ t, runSteps rows.length s = .next t ∧ t.seqPtr = s.seqPtr ∧ t.script = s.script ∧ t.phase = s.phase ∧
      t.trace = s.trace ∧ t.delaying = true ∧ t.waitCnt = s.waitCnt - (rows.filter (·.tick)).length

/-- R146 of 60_exceptions.md: a tick strobe outside a DELAY step is ignored. -/
def Obligations.TickOutsideADelayIsIgnored : Prop :=
  ∀ (s : State) (p : Pins) (rest : List Pins), s.cfg.WF → s.inputs = p :: rest →
    (∀ ms l, currentStep s ≠ some ⟨.delay ms, l⟩) →
    ∀ t u, step { s with inputs := { p with tick := true } :: rest } = .next t →
      step { s with inputs := { p with tick := false } :: rest } = .next u →
      { t with pins := p } = { u with pins := p }

/-! ## Runs of a request -/

/-- R122 of 42_runtime_ops.md: POWER_ON, accepted by an idle block, sends 0xAF and answers OK; on an Err it
answers TRANSPORT_ERR with err_step 0. -/
def Obligations.PowerOnRequestRuns : Prop :=
  RunsOneCommand 0x6 (fun _ => 0xAF) fun _ s => { s with shDisp := some true }

/-- R123 of 42_runtime_ops.md: POWER_OFF, accepted by an idle block, sends 0xAE and answers OK; on an Err it
answers TRANSPORT_ERR with err_step 0. -/
def Obligations.PowerOffRequestRuns : Prop :=
  RunsOneCommand 0x7 (fun _ => 0xAE) fun _ s => { s with shDisp := some false }

/-- R124 of 42_runtime_ops.md: SET_CONTRAST sends 0x20 | L and records L, the low three bits of `d`. -/
def Obligations.SetContrastRequestRuns : Prop :=
  RunsOneCommand 0x8 (fun r => 0x20#8 ||| (r.d &&& 0x07#8))
    fun r s => { s with shCon := some (r.d.extractLsb' 0 3) }

/-- R125 of 42_runtime_ops.md: SET_INVERT sends 0x21 for both flags and records the flag, bit 0 of `d`. -/
def Obligations.SetInvertRequestRuns : Prop :=
  RunsOneCommand 0x9 (fun _ => 0x21) fun r s => { s with shInv := some (r.d.getLsbD 0) }

/-- R121 of 42_runtime_ops.md: FLUSH, accepted by an idle block, sends the addressing reset and the whole frame
and answers OK; an Err on transaction `k` stops it there with err_step `k`. -/
def Obligations.FlushRequestRuns : Prop :=
  ∀ (s : State) (r : Request) (rest : List Request) (rows more : List Pins),
    IdleWith s r rest → r.op = 0x5 → s.inputs = rows ++ more → (∀ p ∈ rows, p.rstN = true) →
    let txs : List Transaction :=
      [⟨.cmd, [0xB0]⟩, ⟨.cmd, [0x10]⟩, ⟨.cmd, [0x00]⟩, ⟨.data, s.fb.bytes s.cfg.N⟩]
    (rows.length = 6 → (∀ k p, 1 ≤ k → k ≤ 4 → rows[k]? = some p → p.answer = some .ok) →
      runSteps 6 s =
        .next { s with
          req := some r
          offered := rest ++ rows.flatMap (·.req.toList)
          pins := rows.getLastD .quiet
          inputs := more
          rsp := some ⟨.ok, 0x00⟩
          trace := s.trace ++ txs.map (·.event (some .ok)) ++ [.rsp .ok 0x00] }) ∧
    (∀ k, k < 4 → rows.length = k + 2 →
      (∀ j p, 1 ≤ j → j ≤ k → rows[j]? = some p → p.answer = some .ok) →
      (∀ p, rows[k + 1]? = some p → p.answer = some .err) →
      ∃ t, runSteps (k + 2) s = .next t ∧ t.phase = .fault ∧ t.errCode = .transport ∧ t.errPhase = 4 ∧
        t.errStep = BitVec.ofNat 8 k ∧ t.rsp = some ⟨.transportErr, 0x00⟩ ∧ t.script = .none ∧ t.fb = s.fb ∧
        t.trace = s.trace ++ (txs.take k).map (·.event (some .ok)) ++
          (txs[k]?.map (·.event (some .err))).toList ++ [.rsp .transportErr 0x00])

/-! ## INIT -/

/-- R158 of 70_reset_and_hazards.md with R115 of 41_sequencer_init.md: from block reset of an instance that has
its pins, in an environment that ticks and answers Ok, INIT makes exactly its events and ends powered on
with a blank framebuffer. -/
def Obligations.InitReachesPoweredOn : Prop :=
  ∀ (c : Config) (rows more : List Pins) (offers : List Request), c.WF → hasRequiredPins c = true →
    Friendly rows → rows.length = initSteps c →
    ∃ t, runSteps (initSteps c) { State.ofConfig c with inputs := rows ++ more, offered := offers } = .next t ∧
      t.trace = initEvents c ∧ t.phase = .poweredOn ∧ t.script = .none ∧ t.seqPtr = 0 ∧
      (∀ a, t.fb.read a = 0x00) ∧ t.shDisp = some true ∧ t.shCon = none ∧ t.shInv = none ∧
      t.errCode = .none ∧ t.rstOut = !c.rstActive ∧ reqReady t = true ∧
      t.offered = offers ++ rows.flatMap (·.req.toList)

/-- R91 of 30_encoding.md: a value byte follows its prefix, so the bytes INIT sends, read in order, decode to
its commands, although their values overlap (R90). -/
def Obligations.InitCommandStreamDecodes : Prop :=
  ∀ c : Config,
    decodeStream .main ((initCommands c).filterMap commandByteOf) = .ok (initCommands c)

/-- R116 of 41_sequencer_init.md and R162 of 70_reset_and_hazards.md: display-on is never sent before a blank
frame has been answered Ok, in any run, counted from any point at which the guard holds, and anew from each block
reset: what an earlier INIT sent is then no excuse. The value bytes are assumed not to be 0xAF, since an OPEN value
byte equal to 0xAF is sent earlier as a value byte. -/
def Obligations.DisplayOnFollowsABlankFrame : Prop :=
  ∀ (n : Nat) (s t : State), Inv s → s.cfg.pmValue ≠ 0xAF → s.cfg.comEndValue ≠ 0xAF → BlankBeforeOn n s →
    step s = .next t →
      BlankBeforeOn n t ∧ ((sample s).pins.rstN = false → BlankBeforeOn t.trace.length t)

/-- The guard of `DisplayOnFollowsABlankFrame` holds at block reset of every instance. -/
def Obligations.DisplayOnGuardHoldsAtReset : Prop :=
  ∀ (c : Config) (rows : List Pins) (offers : List Request),
    BlankBeforeOn 0 { State.ofConfig c with inputs := rows, offered := offers } ∧ BlankBeforeOn 0 State.reset

/-! ## Whole-machine rules -/

/-- R23 of 10_state.md: what writes `sh_disp`: a command 0xAF or 0xAE answered Ok in this step, a transport error
entered in this step, block reset, and nothing else. The display-on and display-off commands are these bytes, and a
value byte may be one (log 32). -/
def Obligations.DisplayShadowIsWrittenOnlyByItsCommands : Prop :=
  ∀ s t : State, Inv s → step s = .next t →
    ((sample s).pins.rstN = false → t.shDisp = none) ∧
    ((sample s).pins.rstN = true →
      (∀ l, s.phase ≠ .uninit → (sample s).pins.answer = some .ok →
        (currentStep s = some ⟨.cmd .displayOn, l⟩ → t.shDisp = some true) ∧
        (currentStep s = some ⟨.cmd .displayOff, l⟩ → t.shDisp = some false) ∧
        (∀ i, currentStep s = some ⟨.cmd i, l⟩ →
          (commandByteOf i = some 0xAF → t.shDisp = some true) ∧
          (commandByteOf i = some 0xAE → t.shDisp = some false))) ∧
      (t.phase = .fault → s.phase ≠ .fault → t.shDisp = none) ∧
      (t.shDisp ≠ s.shDisp → s.phase ≠ .uninit ∧
        (((sample s).pins.answer = some .ok ∧ ∃ i l b, currentStep s = some ⟨.cmd i, l⟩ ∧
            (i = .displayOn ∨ i = .displayOff ∨ i = .pmValue b ∨ i = .comEndValue b) ∧
            (commandByteOf i = some 0xAF ∧ t.shDisp = some true ∨
              commandByteOf i = some 0xAE ∧ t.shDisp = some false)) ∨
         ((sample s).pins.answer = some .err ∧ s.phase ≠ .fault ∧ t.phase = .fault ∧ t.shDisp = none ∧
            ∃ k l, currentStep s = some ⟨k, l⟩ ∧ ((∃ i, k = .cmd i) ∨ k = .data)))))

/-- R44 of 20_memory.md: only an accepted SET, FILL, FILL_RECT or BUF_WR and the CLEARBUF step write the
framebuffer, block reset apart. -/
def Obligations.FramebufferIsWrittenOnlyByItsOperations : Prop :=
  ∀ s t : State, s.cfg.WF → (sample s).pins.rstN = true → step s = .next t → t.fb ≠ s.fb →
    (s.phase ≠ .uninit ∧ ∃ l, currentStep s = some ⟨.clearBuf, l⟩) ∨
    (s.phase = .poweredOn ∧ reqReady (sample s) = true ∧ ∃ r rest, (sample s).offered = r :: rest ∧
      ((∃ x y c, decodeRequest r = .set x y c) ∨ (∃ c, decodeRequest r = .fill c) ∨
        (∃ x y w h c, decodeRequest r = .fillRect x y w h c) ∨ (∃ a v, decodeRequest r = .bufWr a v)))

/-- R89 of 30_encoding.md: every command byte sent is one of the listed bytes, and every data transaction
carries the framebuffer. -/
def Obligations.OnlyTheListedBytesAreSent : Prop :=
  ∀ s t : State, Inv s → step s = .next t →
    ∃ es, t.trace = s.trace ++ es ∧ ∀ e ∈ es,
      (∀ b a, e = .cmd b a → b ∈ commandBytes s.cfg) ∧
      (∀ bs a, e = .data bs a → bs = s.fb.bytes s.cfg.N)

/-- R137 of 43_transport.md: the reset line is inactive from block reset on, and changes only in RST steps of
INIT. -/
def Obligations.ResetLineChangesOnlyInRstSteps : Prop :=
  ∀ s t : State, s.cfg.WF → step s = .next t →
    ((sample s).pins.rstN = false → t.rstOut = !s.cfg.rstActive) ∧
    ((sample s).pins.rstN = true → t.rstOut ≠ s.rstOut →
      s.script = .init ∧ ∃ l lab, currentStep s = some ⟨.rst l, lab⟩ ∧ t.rstOut = l)

/-- R107 of 41_sequencer_init.md and R18 of 10_state.md: the phase follows the source's state machine, with
the two terminal error phases, and returns to UNINIT by block reset only. -/
def Obligations.PhaseFollowsTheStateMachine : Prop :=
  ∀ s t : State, Inv s → step s = .next t → t.phase ≠ s.phase →
    (t.phase = .uninit ∧ (sample s).pins.rstN = false) ∨
    (s.phase, t.phase) ∈
      [(Phase.uninit, Phase.resetting), (.uninit, .configuring), (.uninit, .configError),
       (.resetting, .configuring), (.configuring, .cleared), (.cleared, .poweredOn),
       (.configuring, .fault), (.cleared, .fault), (.poweredOn, .fault)]

/-- The invariant of the block is kept by every step (R18 to R30 of 10_state.md, R43 of 20_memory.md, R137 of
43_transport.md). -/
def Obligations.StepKeepsTheInvariant : Prop :=
  ∀ s t : State, Inv s → step s = .next t → Inv t

/-- The invariant holds at block reset of every instance, whatever the environment will do, and at
`State.reset`. -/
def Obligations.ResetMeetsTheInvariant : Prop :=
  (∀ (c : Config) (rows : List Pins) (offers : List Request), c.WF →
    Inv { State.ofConfig c with inputs := rows, offered := offers }) ∧
  Inv State.reset

/-- No state that meets the invariant stops: every step answers a next state, in every environment (R19 of
10_state.md: `seq_ptr` never runs past its script). -/
def Obligations.StepNeverStopsUnderTheInvariant : Prop :=
  ∀ s : State, Inv s → ∃ t, step s = .next t

/-- Equal framebuffers are equal data: two canonical memories that read the same are the same list, and every
request keeps the canonical form. -/
def Obligations.CanonicalMemoryIsUnique : Prop :=
  (∀ m m' : Mem, m.wf = true → m'.wf = true → (∀ a, m.read a = m'.read a) → m = m') ∧
  (∀ (s t : State) (r : Request), s.cfg.WF → FbOk s → exec (decodeRequest r) s = .next t → FbOk t)

/-! ## Encodings -/

/-- Decoding the encoding of a well-formed instruction gives it back, every operand at every value; the byte
of INVERT drops the flag (C1 of 90_conflicts.md), so its two instructions have one encoding, read back as the
flag its bit 0 shows. -/
def Obligations.DecodeOfEncodeIsTheInstruction : Prop :=
  (∀ i : Instr, i.wellFormed = true → i ≠ .invert false → decode (channelOf i) (encode i) = .ok i) ∧
  encode (.invert false) = encode (.invert true)

/-- R63 of 30_encoding.md: the packed bundle and its fields determine each other, and the fields stand at
their word bits. -/
def Obligations.BundlePacksItsFields : Prop :=
  (∀ r : Request, Request.ofWord r.toWord = r) ∧ (∀ w : BitVec 76, (Request.ofWord w).toWord = w) ∧
  (∀ (r : Request) (k : Nat),
    (k < 4 → r.toWord.getLsbD k = r.op.getLsbD k) ∧
    (k < 16 → r.toWord.getLsbD (4 + k) = r.x.getLsbD k) ∧
    (k < 16 → r.toWord.getLsbD (20 + k) = r.y.getLsbD k) ∧
    (k < 16 → r.toWord.getLsbD (36 + k) = r.w.getLsbD k) ∧
    (k < 16 → r.toWord.getLsbD (52 + k) = r.h.getLsbD k) ∧
    (k < 8 → r.toWord.getLsbD (68 + k) = r.d.getLsbD k))

/-- R92 of 30_encoding.md: a mnemonic with its operands, any integers, assembles to the encoding of its request,
with every field it does not name 0, or is refused where one is out of its range. SET_CONTRAST keeps its whole byte
in the bundle, whose level the decoder masks. Lines of text are `AssemblerReadsALine`. -/
def Obligations.AssemblerEncodesItsOperands : Prop :=
  (∀ x y c : Int,
    (InCoordRange x ∧ InCoordRange y ∧ 0 ≤ c ∧ c ≤ 1 → ∃ r, assembleOp .set [x, y, c] = .ok r ∧
      bundleOf (.set x y (decide (c = 1))) = some r ∧ decodeRequest r = .set x y (decide (c = 1))) ∧
    (¬ (InCoordRange x ∧ InCoordRange y ∧ 0 ≤ c ∧ c ≤ 1) → assembleOp .set [x, y, c] = .error .outOfRange)) ∧
  (∀ x y : Int,
    (InCoordRange x ∧ InCoordRange y → ∃ r, assembleOp .get [x, y] = .ok r ∧
      bundleOf (.get x y) = some r ∧ decodeRequest r = .get x y) ∧
    (¬ (InCoordRange x ∧ InCoordRange y) → assembleOp .get [x, y] = .error .outOfRange)) ∧
  (∀ x y w h c : Int,
    (InCoordRange x ∧ InCoordRange y ∧ InCoordRange w ∧ InCoordRange h ∧ 0 ≤ c ∧ c ≤ 1 →
      ∃ r, assembleOp .fillRect [x, y, w, h, c] = .ok r ∧
        bundleOf (.fillRect x y w h (decide (c = 1))) = some r ∧
        decodeRequest r = .fillRect x y w h (decide (c = 1))) ∧
    (¬ (InCoordRange x ∧ InCoordRange y ∧ InCoordRange w ∧ InCoordRange h ∧ 0 ≤ c ∧ c ≤ 1) →
      assembleOp .fillRect [x, y, w, h, c] = .error .outOfRange)) ∧
  (∀ v : Int,
    (0 ≤ v ∧ v ≤ 1 →
      (∃ r, assembleOp .fill [v] = .ok r ∧ bundleOf (.fill (decide (v = 1))) = some r ∧
        decodeRequest r = .fill (decide (v = 1))) ∧
      (∃ r, assembleOp .setInvert [v] = .ok r ∧ bundleOf (.setInvert (decide (v = 1))) = some r ∧
        decodeRequest r = .setInvert (decide (v = 1)))) ∧
    (¬ (0 ≤ v ∧ v ≤ 1) → assembleOp .fill [v] = .error .outOfRange ∧
      assembleOp .setInvert [v] = .error .outOfRange) ∧
    (0 ≤ v ∧ v ≤ 255 → ∃ r, assembleOp .setContrast [v] = .ok r ∧ r = ⟨0x8, 0, 0, 0, 0, .ofInt 8 v⟩ ∧
      decodeRequest r = .setContrast (.ofInt 3 v)) ∧
    (¬ (0 ≤ v ∧ v ≤ 255) → assembleOp .setContrast [v] = .error .outOfRange)) ∧
  (∀ a v : Int,
    (0 ≤ a ∧ a ≤ 65535 → ∃ r, assembleOp .bufRd [a] = .ok r ∧ bundleOf (.bufRd a.toNat) = some r ∧
      decodeRequest r = .bufRd a.toNat) ∧
    (¬ (0 ≤ a ∧ a ≤ 65535) → assembleOp .bufRd [a] = .error .outOfRange) ∧
    (0 ≤ a ∧ a ≤ 65535 ∧ 0 ≤ v ∧ v ≤ 255 → ∃ r, assembleOp .bufWr [a, v] = .ok r ∧
      bundleOf (.bufWr a.toNat (.ofInt 8 v)) = some r ∧ decodeRequest r = .bufWr a.toNat (.ofInt 8 v)) ∧
    (¬ (0 ≤ a ∧ a ≤ 65535 ∧ 0 ≤ v ∧ v ≤ 255) → assembleOp .bufWr [a, v] = .error .outOfRange)) ∧
  ((assembleOp .flush [] = .ok (.ofOp 0x5) ∧ decodeRequest (.ofOp 0x5) = .flush) ∧
    (assembleOp .powerOn [] = .ok (.ofOp 0x6) ∧ decodeRequest (.ofOp 0x6) = .powerOn) ∧
    (assembleOp .powerOff [] = .ok (.ofOp 0x7) ∧ decodeRequest (.ofOp 0x7) = .powerOff))

/-- Words written out in 95_test_vectors.md and bytes of 30_encoding.md decode to what they stand for. -/
def Obligations.WrittenOutWordsDecode : Prop :=
  decodeRequest (.ofWord 0x0100000000000900051) = .set 5 9 true ∧
  decodeRequest (.ofWord 0xFE00000000000900051) = .set 5 9 false ∧
  decodeRequest (.ofWord 0x0100040005000600BE4) = .fillRect 190 6 5 4 true ∧
  decodeRequest (.ofWord 0xA500000000000005FFB) = .bufWr 1535 0xA5 ∧
  decodeRequest (.ofWord 0xFF00000000000012345) = .flush ∧
  decodeRequest (.ofWord 0x0900000000000000008) = .setContrast 1 ∧
  decodeRequest (.ofWord 0x000000000000000000F) = .reservedF ∧
  decodeCommand .main 0xEB = .ok .biasRatio ∧
  decodeCommand .scanMirror 0xC4 = .ok .mapOrient0 ∧
  decodeCommand .contrast 0x24 = .ok (.contrast 4)

/-! ## Outputs and framing -/

/-- R33 of 10_state.md: the fields of STATUS. -/
def Obligations.StatusHoldsItsFields : Prop :=
  ∀ s : State,
    (status s).extractLsb' 0 3 = s.phase.code ∧
    (status s).extractLsb' 3 2 = s.errCode.code ∧
    (status s).getLsbD 5 = (decide (s.script ≠ .none) || s.rsp.isSome) ∧
    (status s).getLsbD 6 = s.shDisp.isSome ∧
    (status s).getLsbD 7 = s.shDisp.getD false ∧
    (status s).getLsbD 8 = s.shCon.isSome ∧
    (status s).extractLsb' 9 3 = s.shCon.getD 0 ∧
    (status s).getLsbD 12 = s.shInv.isSome ∧
    (status s).getLsbD 13 = s.shInv.getD false ∧
    (status s).extractLsb' 14 2 = s.cfg.orient.code ∧
    status (State.ofConfig s.cfg) = s.cfg.orient.code ++ 0#14

/-- R34 and R35 of 10_state.md: the fields of ERRINFO and the fault level. -/
def Obligations.ErrInfoHoldsItsFields : Prop :=
  ∀ s : State,
    (errInfo s).extractLsb' 0 3 = s.errPhase ∧
    (errInfo s).extractLsb' 3 5 = 0#5 ∧
    (errInfo s).extractLsb' 8 8 = s.errStep ∧
    (faultOut s = true ↔ s.phase = .fault ∨ s.phase = .configError) ∧
    errInfo (State.ofConfig s.cfg) = 0x0000 ∧ faultOut (State.ofConfig s.cfg) = false

/-- R131, R132, R134 and R135 of 43_transport.md: the framing of a command and of a frame, over I2C and over
SPI; the I2C data address is one above the base and does not wrap. -/
def Obligations.AdapterFramesEveryTransaction : Prop :=
  ∀ (c : Config) (b : Byte) (bs : List Byte), c.WF →
    (c.bus = .i2c →
      frameOf c ⟨.cmd, [b]⟩ = [.i2cWrite c.i2cAddr [b]] ∧
      ∃ addr : BitVec 7, addr.toNat = c.i2cAddr.toNat + 1 ∧ frameOf c ⟨.data, bs⟩ = [.i2cWrite addr bs]) ∧
    (c.bus = .spi →
      frameOf c ⟨.cmd, [b]⟩ =
        [.chipSelect c.csActive, .dataSelect false, .shiftOut b, .chipSelect (!c.csActive)] ∧
      frameOf c ⟨.data, bs⟩ =
        .chipSelect c.csActive :: .dataSelect true :: (bs.map .shiftOut ++ [.chipSelect (!c.csActive)]))

/-! ## The environment across block reset, and the assembler's text -/

/-- What block reset leaves, by the model's choice: the requests the host holds and the inputs to come (log 5, log 4),
and the trace, to which only an abandoned transaction is added, without an answer; neither the reset line going
inactive nor a DELAY step cut short is an event (log 9). -/
def Obligations.BlockResetKeepsTheEnvironmentAndTheTrace : Prop :=
  ∀ s : State, s.cfg.WF → (sample s).pins.rstN = false →
    ∃ t, step s = .next t ∧ t.offered = (sample s).offered ∧ t.inputs = (sample s).inputs ∧
      t.pins = (sample s).pins ∧
      (s.tx = none → t.trace = s.trace) ∧
      (∀ b k, s.tx = some ⟨⟨.cmd, [b]⟩, k⟩ → t.trace = s.trace ++ [.cmd b none]) ∧
      (∀ bs k, s.tx = some ⟨⟨.data, bs⟩, k⟩ → t.trace = s.trace ++ [.data bs none])

/-- R92 of 30_encoding.md, on lines of text: a mnemonic and its numbers, separated by commas with blanks after
them, assemble to the bundle of the mnemonic with those numbers; `;` starts a comment; a line of blanks is nothing; a
line assembles to a bundle only if its first word is a mnemonic. What separates the parts, and the order in which a
line is refused, are the model's choice (log 33). -/
def Obligations.AssemblerReadsALine : Prop :=
  (∀ op : AsmOp, assembleLine op.text = (assembleOp op []).map some) ∧
  (∀ (op : AsmOp) (p : List Char) (ps : List (List Char × List Char)), p ≠ [] →
    (∀ c ∈ p, isBlank c = false ∧ c ≠ ',' ∧ c ≠ ';') →
    (∀ q ∈ ps, q.2 ≠ [] ∧ (∀ c ∈ q.1, isBlank c = true) ∧
      ∀ c ∈ q.2, isBlank c = false ∧ c ≠ ',' ∧ c ≠ ';') →
    assembleLine (op.text ++ ' ' :: (p ++ ps.flatMap fun q => ',' :: (q.1 ++ q.2))) =
      match numbers op.signedOperands (p :: ps.map (·.2)) with
      | .error e => .error e
      | .ok vs => (assembleOp op vs).map some) ∧
  (∀ line comment : List Char, ';' ∉ line → assembleLine (line ++ ';' :: comment) = assembleLine line) ∧
  (∀ line : List Char, (∀ c ∈ line, isBlank c = true) → assembleLine line = .ok none) ∧
  (∀ (line : List Char) (r : Request), assembleLine line = .ok (some r) →
    ∃ op vs, (trim (line.takeWhile (· != ';'))).takeWhile (fun c => !isBlank c) = AsmOp.text op ∧
      assembleOp op vs = .ok r)

/-- R92 of 30_encoding.md, on numbers: decimal digits, with a leading `-` where it is allowed and nowhere else, and
hexadecimal digits after `0x` are read as the number they write; an empty text is none. -/
def Obligations.AssemblerReadsNumbers : Prop :=
  ∀ (n : Nat) (signed : Bool),
    number signed (Nat.toDigits 10 n) = .ok (n : Int) ∧
    number signed ('0' :: 'x' :: Nat.toDigits 16 n) = .ok (n : Int) ∧
    number true ('-' :: Nat.toDigits 10 n) = .ok (-(n : Int)) ∧
    (∀ text, number false ('-' :: text) = .error .notANumber) ∧
    number signed [] = .error .notANumber ∧ number signed ['-'] = .error .notANumber ∧
    number signed ['0', 'x'] = .error .notANumber
end

