-- ==== Sys2Proof/Laws/Memory.lean ====
section
/-! SUPPORT. The framebuffer's laws: read after write, fill and frame transfer, and the canonical form kept by every
operation. -/

namespace Sys2Proof.Machine

/-! ## The canonical form -/

theorem Mem.wfFrom_cons_iff (lo a : Nat) (v : Byte) (m : Mem) :
    Mem.wfFrom lo ((a, v) :: m) = true ↔ lo ≤ a ∧ v ≠ unlistedByte ∧ Mem.wfFrom (a + 1) m = true := by
  simp [Mem.wfFrom, and_assoc]

theorem Mem.wfFrom_mono {lo lo' : Nat} {m : Mem} (hle : lo' ≤ lo) (h : Mem.wfFrom lo m = true) :
    Mem.wfFrom lo' m = true := by
  cases m with
  | nil => rfl
  | cons cell rest =>
    obtain ⟨a, v⟩ := cell
    rw [Mem.wfFrom_cons_iff] at h ⊢
    exact ⟨by omega, h.2⟩

/-- A canonical memory reads as unlisted below its bound. -/
theorem Mem.read_of_lt {lo i : Nat} {m : Mem} (h : Mem.wfFrom lo m = true) (hi : i < lo) :
    m.read i = unlistedByte := by
  induction m generalizing lo with
  | nil => rfl
  | cons cell rest ih =>
    obtain ⟨a, v⟩ := cell
    rw [Mem.wfFrom_cons_iff] at h
    have hne : i ≠ a := by omega
    simp only [Mem.read, if_neg hne]
    exact ih h.2.2 (by omega)

theorem Mem.wfFrom_consByte {lo i : Nat} {v : Byte} {m : Mem} (hlo : lo ≤ i)
    (h : Mem.wfFrom (i + 1) m = true) : Mem.wfFrom lo (Mem.cons i v m) = true := by
  unfold Mem.cons
  split
  · exact Mem.wfFrom_mono (by omega) h
  · exact (Mem.wfFrom_cons_iff ..).2 ⟨hlo, ‹_›, h⟩

/-- A write keeps the canonical form. -/
theorem Mem.wfFrom_write {lo i : Nat} {v : Byte} {m : Mem} (hlo : lo ≤ i)
    (h : Mem.wfFrom lo m = true) : Mem.wfFrom lo (m.write i v) = true := by
  induction m generalizing lo with
  | nil => exact Mem.wfFrom_consByte hlo rfl
  | cons cell rest ih =>
    obtain ⟨a, u⟩ := cell
    rw [Mem.wfFrom_cons_iff] at h
    unfold Mem.write
    split
    · exact Mem.wfFrom_consByte hlo ((Mem.wfFrom_cons_iff ..).2 ⟨by omega, h.2⟩)
    · split
      · subst i
        exact Mem.wfFrom_consByte hlo h.2.2
      · exact (Mem.wfFrom_cons_iff ..).2 ⟨h.1, h.2.1, ih (by omega) h.2.2⟩

theorem Mem.wf_write {i : Nat} {v : Byte} {m : Mem} (h : m.wf = true) : (m.write i v).wf = true :=
  Mem.wfFrom_write (Nat.zero_le _) h

/-! ## Read after write -/

theorem Mem.read_consByte_other {i j : Nat} (v : Byte) (m : Mem) (h : j ≠ i) :
    (Mem.cons i v m).read j = m.read j := by
  unfold Mem.cons
  split
  · rfl
  · simp [Mem.read, h]

/-- A write leaves every other byte alone. -/
theorem Mem.read_write_other {i j : Nat} (v : Byte) (m : Mem) (h : j ≠ i) :
    (m.write i v).read j = m.read j := by
  induction m with
  | nil => exact Mem.read_consByte_other v [] h
  | cons cell rest ih =>
    obtain ⟨a, u⟩ := cell
    unfold Mem.write
    split
    · exact Mem.read_consByte_other v _ h
    · split
      · subst i
        rw [Mem.read_consByte_other v rest h]
        simp [Mem.read, h]
      · simp only [Mem.read, ih]

theorem Mem.read_consByte_same {i : Nat} {v : Byte} {m : Mem} (h : m.read i = unlistedByte) :
    (Mem.cons i v m).read i = v := by
  unfold Mem.cons
  split
  · rw [h, ‹v = unlistedByte›]
  · simp [Mem.read]

theorem Mem.read_write_same_from {lo i : Nat} {v : Byte} {m : Mem} (h : Mem.wfFrom lo m = true) :
    (m.write i v).read i = v := by
  induction m generalizing lo with
  | nil => exact Mem.read_consByte_same rfl
  | cons cell rest ih =>
    obtain ⟨a, u⟩ := cell
    rw [Mem.wfFrom_cons_iff] at h
    unfold Mem.write
    split
    · refine Mem.read_consByte_same (Mem.read_of_lt (lo := a) ?_ ‹i < a›)
      exact (Mem.wfFrom_cons_iff ..).2 ⟨Nat.le_refl a, h.2⟩
    · split
      · subst i
        exact Mem.read_consByte_same (Mem.read_of_lt h.2.2 (Nat.lt_succ_self a))
      · simp only [Mem.read, if_neg ‹¬i = a›]
        exact ih h.2.2

/-- A read after a write to the same byte gives the byte written. -/
theorem Mem.read_write_same {i : Nat} {v : Byte} {m : Mem} (h : m.wf = true) :
    (m.write i v).read i = v :=
  Mem.read_write_same_from h

/-! ## The bound -/

theorem Mem.below_cons_iff (n a : Nat) (v : Byte) (m : Mem) :
    Mem.below n ((a, v) :: m) = true ↔ a < n ∧ Mem.below n m = true := by
  simp [Mem.below]

theorem Mem.below_write {n i : Nat} {v : Byte} {m : Mem} (hi : i < n) (h : m.below n = true) :
    (m.write i v).below n = true := by
  have cons_below : ∀ m' : Mem, m'.below n = true → (Mem.cons i v m').below n = true := by
    intro m' hm'
    unfold Mem.cons
    split
    · exact hm'
    · exact (Mem.below_cons_iff ..).2 ⟨hi, hm'⟩
  induction m with
  | nil => exact cons_below [] h
  | cons cell rest ih =>
    obtain ⟨a, u⟩ := cell
    have h' := (Mem.below_cons_iff ..).1 h
    unfold Mem.write
    split
    · exact cons_below _ h
    · split
      · exact cons_below _ h'.2
      · exact (Mem.below_cons_iff ..).2 ⟨h'.1, ih h'.2⟩

theorem Mem.filter_of_below {n : Nat} {m : Mem} (h : m.below n = true) :
    (m.filter fun cell => decide (n ≤ cell.1)) = [] := by
  rw [List.filter_eq_nil_iff]
  intro cell hc
  simp only [Mem.below, List.all_eq_true, decide_eq_true_eq] at h
  have := h cell hc
  simp; omega

/-! ## Fill -/

theorem Mem.read_append {m m' : Mem} {i : Nat} (h : ∀ cell ∈ m, cell.1 ≠ i) :
    (Mem.read (m ++ m') i) = Mem.read m' i := by
  induction m with
  | nil => rfl
  | cons cell rest ih =>
    obtain ⟨a, v⟩ := cell
    have ha : i ≠ a := fun he => h (a, v) (List.mem_cons_self ..) he.symm
    simp only [List.cons_append, Mem.read, if_neg ha]
    exact ih fun c hc => h c (List.mem_cons_of_mem _ hc)

theorem Mem.read_map_range {v : Byte} {m' : Mem} {i : Nat} (idx : List Nat) (hi : i ∈ idx) :
    Mem.read ((idx.map fun k => (k, v)) ++ m') i = v := by
  induction idx with
  | nil => cases hi
  | cons k rest ih =>
    simp only [List.map_cons, List.cons_append, Mem.read]
    split
    · rfl
    · rcases List.mem_cons.1 hi with h | h
      · exact absurd h ‹_›
      · exact ih h

theorem Mem.read_filter_ge {n i : Nat} (m : Mem) (h : n ≤ i) :
    Mem.read (m.filter fun cell => decide (n ≤ cell.1)) i = m.read i := by
  induction m with
  | nil => rfl
  | cons cell rest ih =>
    obtain ⟨a, v⟩ := cell
    by_cases ha : n ≤ a
    · simp only [List.filter_cons, ha, decide_true, if_true, Mem.read, ih]
    · have hne : i ≠ a := by omega
      simp only [List.filter_cons, ha, decide_false, Mem.read, if_neg hne]
      simpa using ih

theorem Mem.read_filter_lt {n i : Nat} (m : Mem) (h : i < n) :
    Mem.read (m.filter fun cell => decide (n ≤ cell.1)) i = unlistedByte := by
  induction m with
  | nil => rfl
  | cons cell rest ih =>
    obtain ⟨a, v⟩ := cell
    by_cases ha : n ≤ a
    · have hne : i ≠ a := by omega
      simp only [List.filter_cons, ha, decide_true, if_true, Mem.read, if_neg hne, ih]
    · simp only [List.filter_cons, ha, decide_false]
      simpa using ih

/-- What a filled memory reads as: the byte below the bound, what it was from the bound on. -/
theorem Mem.read_fill (n : Nat) (v : Byte) (m : Mem) (i : Nat) :
    (m.fill n v).read i = if i < n then v else m.read i := by
  unfold Mem.fill
  by_cases hi : i < n
  · rw [if_pos hi]
    split
    · rw [List.nil_append, Mem.read_filter_lt m hi, ‹v = unlistedByte›]
    · exact Mem.read_map_range _ (List.mem_range.2 hi)
  · rw [if_neg hi, Mem.read_append, Mem.read_filter_ge m (by omega)]
    intro cell hc
    split at hc
    · cases hc
    · obtain ⟨k, hk, rfl⟩ := List.mem_map.1 hc
      have := List.mem_range.1 hk
      simp only; omega

/-- A fill of a memory within its bound is the canonical list of that byte. -/
theorem Mem.fill_of_below {n : Nat} {v : Byte} {m : Mem} (h : m.below n = true) :
    m.fill n v = if v = unlistedByte then [] else (List.range n).map fun i => (i, v) := by
  unfold Mem.fill
  rw [Mem.filter_of_below h, List.append_nil]

theorem Mem.below_fill {n : Nat} {v : Byte} {m : Mem} (h : m.below n = true) :
    (m.fill n v).below n = true := by
  rw [Mem.fill_of_below h]
  split
  · rfl
  · simp [Mem.below]

theorem Mem.wfFrom_range {v : Byte} (hv : v ≠ unlistedByte) (lo len : Nat) :
    Mem.wfFrom lo ((List.range' lo len).map fun i => (i, v)) = true := by
  induction len generalizing lo with
  | zero => rfl
  | succ len ih =>
    rw [List.range'_succ, List.map_cons, Mem.wfFrom_cons_iff]
    exact ⟨Nat.le_refl _, hv, ih (lo + 1)⟩

theorem Mem.wf_fill {n : Nat} {v : Byte} {m : Mem} (h : m.below n = true) :
    (m.fill n v).wf = true := by
  rw [Mem.fill_of_below h]
  split
  · rfl
  · rw [List.range_eq_range']
    exact Mem.wfFrom_range ‹_› 0 n

/-! ## Equal reads, equal memories -/

theorem Mem.ext_from {lo : Nat} {m m' : Mem} (h : Mem.wfFrom lo m = true) (h' : Mem.wfFrom lo m' = true)
    (heq : ∀ i, m.read i = m'.read i) : m = m' := by
  induction m generalizing lo m' with
  | nil =>
    cases m' with
    | nil => rfl
    | cons cell rest =>
      obtain ⟨a, v⟩ := cell
      have hv := ((Mem.wfFrom_cons_iff ..).1 h').2.1
      have := heq a
      simp only [Mem.read, if_true] at this
      exact absurd this.symm hv
  | cons cell rest ih =>
    obtain ⟨a, v⟩ := cell
    have hw := (Mem.wfFrom_cons_iff ..).1 h
    cases m' with
    | nil =>
      have := heq a
      simp only [Mem.read, if_true] at this
      exact absurd this hw.2.1
    | cons cell' rest' =>
      obtain ⟨b, u⟩ := cell'
      have hw' := (Mem.wfFrom_cons_iff ..).1 h'
      have hab : a = b := by
        rcases Nat.lt_trichotomy a b with hlt | heq' | hgt
        · have := heq a
          rw [Mem.read_of_lt (lo := b) ((Mem.wfFrom_cons_iff ..).2 ⟨Nat.le_refl b, hw'.2⟩) hlt] at this
          simp only [Mem.read, if_true] at this
          exact absurd this hw.2.1
        · exact heq'
        · have := heq b
          rw [Mem.read_of_lt (lo := a) ((Mem.wfFrom_cons_iff ..).2 ⟨Nat.le_refl a, hw.2⟩) hgt] at this
          simp only [Mem.read, if_true] at this
          exact absurd this.symm hw'.2.1
      subst hab
      have hvu : v = u := by simpa [Mem.read] using heq a
      subst hvu
      refine congrArg _ (ih hw.2.2 hw'.2.2 fun i => ?_)
      by_cases hi : i = a
      · subst hi
        rw [Mem.read_of_lt hw.2.2 (Nat.lt_succ_self i), Mem.read_of_lt hw'.2.2 (Nat.lt_succ_self i)]
      · simpa [Mem.read, hi] using heq i

/-! ## The frame transfer -/

@[simp] theorem Mem.length_bytes (n : Nat) (m : Mem) : (m.bytes n).length = n := by simp [Mem.bytes]

theorem Mem.bytes_eq_replicate {n : Nat} {v : Byte} {m : Mem} (h : ∀ i, i < n → m.read i = v) :
    m.bytes n = List.replicate n v := by
  rw [List.eq_replicate_iff]
  refine ⟨Mem.length_bytes n m, fun b hb => ?_⟩
  obtain ⟨i, hi, rfl⟩ := List.mem_map.1 hb
  exact h i (List.mem_range.1 hi)

end Sys2Proof.Machine
end

