-- ==== Sys2Proof/Laws/Mapper.lean ====
section
/-! SUPPORT. The address mapper's laws: places lie in the framebuffer and no two pixels share one; what a pixel
write and a rectangle do to every pixel. -/

namespace Sys2Proof.Machine

/-- `H = 8 * P` for an instance. -/
theorem Config.H_eq {c : Config} (h : c.WF) : c.H = 8 * c.P := by
  have := h.1
  unfold Config.P
  omega

/-- A row index below a row count, scaled by the row length, leaves room for a column. -/
theorem rowColumn_lt {r R k K : Nat} (hr : r < R) (hk : k < K) : r * K + k < R * K := by
  calc r * K + k < r * K + K := by omega
    _ = (r + 1) * K := by ring
    _ ≤ R * K := Nat.mul_le_mul_right K hr

/-- Row and column are determined by the byte index. -/
theorem rowColumn_inj {r r' k k' K : Nat} (hk : k < K) (hk' : k' < K)
    (h : r * K + k = r' * K + k') : r = r' ∧ k = k' := by
  have hK : 0 < K := by omega
  have hr : r = r' := by
    have h1 : (r * K + k) / K = r := by
      rw [Nat.mul_comm, Nat.mul_add_div hK, Nat.div_eq_of_lt hk, Nat.add_zero]
    have h2 : (r' * K + k') / K = r' := by
      rw [Nat.mul_comm, Nat.mul_add_div hK, Nat.div_eq_of_lt hk', Nat.add_zero]
    rw [← h1, ← h2, h]
  subst hr
  exact ⟨rfl, by omega⟩

/-- A mapped coordinate is in bounds. -/
theorem mapPixel_inBounds {c : Config} {x y : Int} {p : Place} (h : mapPixel c x y = some p) :
    InBounds c x y := by
  unfold mapPixel at h
  split at h
  · assumption
  · cases h

theorem mapPixel_eq_none_iff (c : Config) (x y : Int) : mapPixel c x y = none ↔ ¬ InBounds c x y := by
  unfold mapPixel
  split <;> simp_all

/-- Every mapped place lies in the framebuffer (R50 of 20_memory.md). -/
theorem mapPixel_bounds {c : Config} (hc : c.WF) {x y : Int} {p : Place} (h : mapPixel c x y = some p) :
    p.index < c.N ∧ p.bit < 8 := by
  have hH := Config.H_eq hc
  obtain ⟨hx0, hx, hy0, hy⟩ := mapPixel_inBounds h
  rw [mapPixel, if_pos ⟨hx0, hx, hy0, hy⟩] at h
  cases h
  unfold logicalW at hx
  unfold logicalH at hy
  cases hv : isVertical c <;> simp only [hv, if_true, Bool.false_eq_true, if_false] at hx hy ⊢
  · refine ⟨?_, ?_⟩
    · have hcol : x.toNat / 8 < c.P := by omega
      have hrow : y.toNat < c.W := by omega
      have := rowColumn_lt hrow hcol
      rw [Nat.mul_comm c.W] at this
      exact this
    · simp only [placeHorizontal]
      cases c.hbitOrder <;> simp only <;> omega
  · refine ⟨?_, Nat.mod_lt _ (by omega)⟩
    have hrow : y.toNat / 8 < c.P := by omega
    have hcol : x.toNat < c.W := by omega
    exact rowColumn_lt hrow hcol

/-- No two pixels share a place (R50 of 20_memory.md). -/
theorem mapPixel_inj {c : Config} (hc : c.WF) {x y x' y' : Int} {p : Place}
    (h : mapPixel c x y = some p) (h' : mapPixel c x' y' = some p) : x = x' ∧ y = y' := by
  have hH := Config.H_eq hc
  obtain ⟨hx0, hx, hy0, hy⟩ := mapPixel_inBounds h
  obtain ⟨hx0', hx', hy0', hy'⟩ := mapPixel_inBounds h'
  rw [mapPixel, if_pos ⟨hx0, hx, hy0, hy⟩] at h
  rw [mapPixel, if_pos ⟨hx0', hx', hy0', hy'⟩, ← h] at h'
  unfold logicalW at hx hx'
  unfold logicalH at hy hy'
  cases hv : isVertical c <;>
    simp only [hv, if_true, Bool.false_eq_true, if_false] at hx hy hx' hy' h' <;>
    have hplace := Option.some.inj h'
  · simp only [placeHorizontal, Place.mk.injEq] at hplace
    obtain ⟨hidx, hbit⟩ := hplace
    obtain ⟨hrow, hcol⟩ := rowColumn_inj (by omega) (by omega) hidx
    have hmod : x'.toNat % 8 = x.toNat % 8 := by
      cases hb : c.hbitOrder <;> simp only [hb] at hbit <;> omega
    omega
  · simp only [placeVertical, Place.mk.injEq] at hplace
    obtain ⟨hidx, hbit⟩ := hplace
    obtain ⟨hrow, hcol⟩ := rowColumn_inj (by omega) (by omega) hidx
    omega

/-! ## Writing one bit -/

/-- One bit of a byte after a bit write (R51 of 20_memory.md). -/
theorem writeBit_byte (v : Byte) (c : Bool) {b b' : Nat} (hb' : b' < 8) :
    ((v &&& ~~~(1#8 <<< b)) ||| (bitByte c <<< b)).getLsbD b' = if b' = b then c else v.getLsbD b' := by
  have hbit : ∀ k : Bool, (bitByte k).getLsbD (b' - b) = (k && decide (b' - b = 0)) := by
    intro k
    cases k <;> simp [bitByte, BitVec.getLsbD_one]
  simp only [BitVec.getLsbD_or, BitVec.getLsbD_and, BitVec.getLsbD_not, BitVec.getLsbD_shiftLeft,
    BitVec.getLsbD_one, hbit, hb', decide_true, Bool.true_and]
  rcases Nat.lt_trichotomy b' b with h | h | h
  · simp [h, Nat.ne_of_lt h]
  · simp [h]
  · have h1 : ¬ b' < b := by omega
    have h2 : b' - b ≠ 0 := by omega
    have h3 : b' ≠ b := by omega
    simp [h1, h2, h3]

/-- A pixel after a bit write to a place of the framebuffer. -/
theorem Mem.readBit_writeBit {m : Mem} (hm : m.wf = true) {p q : Place} (hq : q.bit < 8)
    (c : Bool) : (m.writeBit p c).readBit q = if q = p then c else m.readBit q := by
  unfold Mem.readBit Mem.writeBit
  by_cases hi : q.index = p.index
  · rw [hi, Mem.read_write_same hm, writeBit_byte _ _ hq]
    have : q = p ↔ q.bit = p.bit := by
      cases q; cases p; simp_all
    simp only [this]
  · rw [Mem.read_write_other _ _ hi]
    have : q ≠ p := fun h => hi (congrArg Place.index h)
    rw [if_neg this]

theorem Mem.wf_setPixel {c : Config} {m : Mem} (hm : m.wf = true) (x y : Int) (v : Bool) :
    (m.setPixel c x y v).wf = true := by
  unfold Mem.setPixel
  split
  · exact Mem.wf_write hm
  · exact hm

theorem Mem.below_setPixel {c : Config} (hc : c.WF) {m : Mem} (hm : m.below c.N = true) (x y : Int)
    (v : Bool) : (m.setPixel c x y v).below c.N = true := by
  unfold Mem.setPixel
  split
  · exact Mem.below_write (mapPixel_bounds hc ‹_›).1 hm
  · exact hm

/-- A pixel after SET: the color at its coordinate, unchanged elsewhere. -/
theorem Mem.readBit_setPixel {c : Config} (hc : c.WF) {m : Mem} (hm : m.wf = true) {x y px py : Int}
    {q : Place} (v : Bool) (hq : mapPixel c px py = some q) :
    (m.setPixel c x y v).readBit q = if px = x ∧ py = y then v else m.readBit q := by
  unfold Mem.setPixel
  split
  · next p hp =>
    rw [Mem.readBit_writeBit hm (mapPixel_bounds hc hq).2]
    have : q = p ↔ px = x ∧ py = y := by
      constructor
      · rintro rfl
        exact mapPixel_inj hc hq hp
      · rintro ⟨rfl, rfl⟩
        exact Option.some.inj (hq.symm.trans hp)
    simp only [this]
  · next hp =>
    rw [if_neg]
    rintro ⟨rfl, rfl⟩
    rw [hq] at hp
    cases hp

/-- SET writes no byte but the pixel's. -/
theorem Mem.read_setPixel_other {c : Config} {m : Mem} {x y : Int} {v : Bool} {a : Nat}
    (h : ∀ p, mapPixel c x y = some p → a ≠ p.index) : (m.setPixel c x y v).read a = m.read a := by
  unfold Mem.setPixel
  split
  · exact Mem.read_write_other _ _ (h _ ‹_›)
  · rfl

/-! ## Rectangles -/

theorem mem_intRange {lo hi k : Int} : k ∈ intRange lo hi ↔ lo ≤ k ∧ k < hi := by
  unfold intRange
  simp only [List.mem_map, List.mem_range]
  constructor
  · rintro ⟨n, hn, rfl⟩
    omega
  · rintro ⟨h1, h2⟩
    exact ⟨(k - lo).toNat, by omega, by omega⟩

/-- A property every pixel write keeps is kept by a row of them. -/
theorem foldl_setPixel_keeps {c : Config} {P : Mem → Prop} {v : Bool}
    (step : ∀ m x y, P m → P (m.setPixel c x y v)) (py : Int) (cols : List Int) {m : Mem} (hm : P m) :
    P (cols.foldl (fun m px => m.setPixel c px py v) m) := by
  induction cols generalizing m with
  | nil => exact hm
  | cons px rest ih => exact ih (step m px py hm)

/-- A property every pixel write keeps is kept by a rectangle. -/
theorem Mem.fillRect_keeps {c : Config} {P : Mem → Prop} {v : Bool}
    (step : ∀ m x y, P m → P (m.setPixel c x y v)) {m : Mem} (hm : P m) (x y w h : Int) :
    P (m.fillRect c x y w h v) := by
  unfold Mem.fillRect
  generalize rectRows c y h = rows
  induction rows generalizing m with
  | nil => exact hm
  | cons py rest ih => exact ih (foldl_setPixel_keeps step py _ hm)

theorem Mem.wf_fillRect {c : Config} {m : Mem} (hm : m.wf = true) (x y w h : Int) (v : Bool) :
    (m.fillRect c x y w h v).wf = true :=
  Mem.fillRect_keeps (P := fun m => m.wf = true) (fun _ _ _ hm => Mem.wf_setPixel hm _ _ _) hm _ _ _ _

theorem Mem.below_fillRect {c : Config} (hc : c.WF) {m : Mem} (hm : m.below c.N = true) (x y w h : Int)
    (v : Bool) : (m.fillRect c x y w h v).below c.N = true :=
  Mem.fillRect_keeps (P := fun m => m.below c.N = true)
    (fun _ _ _ hm => Mem.below_setPixel hc hm _ _ _) hm _ _ _ _

/-- A pixel after a row of writes. -/
theorem readBit_foldl_row {c : Config} (hc : c.WF) {m : Mem} (hm : m.wf = true) {px py y : Int}
    {q : Place} (v : Bool) (hq : mapPixel c px py = some q) (cols : List Int) :
    (cols.foldl (fun m x => m.setPixel c x y v) m).readBit q =
      if px ∈ cols ∧ py = y then v else m.readBit q := by
  induction cols generalizing m with
  | nil => simp
  | cons x rest ih =>
    rw [List.foldl_cons, ih (Mem.wf_setPixel hm _ _ _), Mem.readBit_setPixel hc hm v hq]
    by_cases h1 : px ∈ rest <;> by_cases h2 : py = y <;> by_cases h3 : px = x <;>
      simp_all

/-- A pixel after FILL_RECT: the color inside the clipped rectangle, unchanged elsewhere. -/
theorem Mem.readBit_fillRect {c : Config} (hc : c.WF) {m : Mem} (hm : m.wf = true) {px py : Int}
    {q : Place} (x y w h : Int) (v : Bool) (hq : mapPixel c px py = some q) :
    (m.fillRect c x y w h v).readBit q =
      if px ∈ rectColumns c x w ∧ py ∈ rectRows c y h then v else m.readBit q := by
  unfold Mem.fillRect
  generalize rectRows c y h = rows
  induction rows generalizing m with
  | nil => simp
  | cons r rest ih =>
    rw [List.foldl_cons, ih, readBit_foldl_row hc hm v hq]
    · by_cases h1 : px ∈ rectColumns c x w <;> by_cases h2 : py ∈ rest <;> by_cases h3 : py = r <;>
        simp_all
    · exact foldl_setPixel_keeps (P := fun m => m.wf = true)
        (fun _ _ _ hm => Mem.wf_setPixel hm _ _ _) r _ hm

/-- FILL on every place: the color. -/
theorem Mem.readBit_fill {n : Nat} {m : Mem} {q : Place} (c : Bool) (hq : q.index < n) (hb : q.bit < 8) :
    (m.fill n (if c then 0xFF#8 else 0x00#8)).readBit q = c := by
  unfold Mem.readBit
  rw [Mem.read_fill, if_pos hq]
  obtain ⟨i, b⟩ := q
  have hb' : b < 8 := hb
  cases c
  · simp
  · simp only [if_true]
    have : ∀ b < 8, (0xFF#8).getLsbD b = true := by decide
    exact this b hb'

end Sys2Proof.Machine
end

