-- ==== Sys2Proof/Laws/State.lean ====
section
/-! SUPPORT. One lemma per field per named state update, so that no proof unfolds a record update. -/

namespace Sys2Proof.Machine

/-! `respond` -/

@[simp] theorem respond_cfg (st : RspStatus) (d : Byte) (s : State) :
    (respond st d s).cfg = s.cfg := rfl
@[simp] theorem respond_phase (st : RspStatus) (d : Byte) (s : State) :
    (respond st d s).phase = s.phase := rfl
@[simp] theorem respond_seqPtr (st : RspStatus) (d : Byte) (s : State) :
    (respond st d s).seqPtr = s.seqPtr := rfl
@[simp] theorem respond_script (st : RspStatus) (d : Byte) (s : State) :
    (respond st d s).script = s.script := rfl
@[simp] theorem respond_req (st : RspStatus) (d : Byte) (s : State) :
    (respond st d s).req = s.req := rfl
@[simp] theorem respond_fb (st : RspStatus) (d : Byte) (s : State) :
    (respond st d s).fb = s.fb := rfl
@[simp] theorem respond_shDisp (st : RspStatus) (d : Byte) (s : State) :
    (respond st d s).shDisp = s.shDisp := rfl
@[simp] theorem respond_shCon (st : RspStatus) (d : Byte) (s : State) :
    (respond st d s).shCon = s.shCon := rfl
@[simp] theorem respond_shInv (st : RspStatus) (d : Byte) (s : State) :
    (respond st d s).shInv = s.shInv := rfl
@[simp] theorem respond_errCode (st : RspStatus) (d : Byte) (s : State) :
    (respond st d s).errCode = s.errCode := rfl
@[simp] theorem respond_errPhase (st : RspStatus) (d : Byte) (s : State) :
    (respond st d s).errPhase = s.errPhase := rfl
@[simp] theorem respond_errStep (st : RspStatus) (d : Byte) (s : State) :
    (respond st d s).errStep = s.errStep := rfl
@[simp] theorem respond_waitCnt (st : RspStatus) (d : Byte) (s : State) :
    (respond st d s).waitCnt = s.waitCnt := rfl
@[simp] theorem respond_rstOut (st : RspStatus) (d : Byte) (s : State) :
    (respond st d s).rstOut = s.rstOut := rfl
@[simp] theorem respond_rsp (st : RspStatus) (d : Byte) (s : State) :
    (respond st d s).rsp = some ⟨st, d⟩ := rfl
@[simp] theorem respond_delaying (st : RspStatus) (d : Byte) (s : State) :
    (respond st d s).delaying = s.delaying := rfl
@[simp] theorem respond_tx (st : RspStatus) (d : Byte) (s : State) :
    (respond st d s).tx = s.tx := rfl
@[simp] theorem respond_offered (st : RspStatus) (d : Byte) (s : State) :
    (respond st d s).offered = s.offered := rfl
@[simp] theorem respond_pins (st : RspStatus) (d : Byte) (s : State) :
    (respond st d s).pins = s.pins := rfl
@[simp] theorem respond_inputs (st : RspStatus) (d : Byte) (s : State) :
    (respond st d s).inputs = s.inputs := rfl
@[simp] theorem respond_trace (st : RspStatus) (d : Byte) (s : State) :
    (respond st d s).trace = s.trace ++ [.rsp st d] := rfl

/-! `setFb` -/

@[simp] theorem setFb_cfg (m : Mem) (s : State) :
    (setFb m s).cfg = s.cfg := rfl
@[simp] theorem setFb_phase (m : Mem) (s : State) :
    (setFb m s).phase = s.phase := rfl
@[simp] theorem setFb_seqPtr (m : Mem) (s : State) :
    (setFb m s).seqPtr = s.seqPtr := rfl
@[simp] theorem setFb_script (m : Mem) (s : State) :
    (setFb m s).script = s.script := rfl
@[simp] theorem setFb_req (m : Mem) (s : State) :
    (setFb m s).req = s.req := rfl
@[simp] theorem setFb_fb (m : Mem) (s : State) :
    (setFb m s).fb = m := rfl
@[simp] theorem setFb_shDisp (m : Mem) (s : State) :
    (setFb m s).shDisp = s.shDisp := rfl
@[simp] theorem setFb_shCon (m : Mem) (s : State) :
    (setFb m s).shCon = s.shCon := rfl
@[simp] theorem setFb_shInv (m : Mem) (s : State) :
    (setFb m s).shInv = s.shInv := rfl
@[simp] theorem setFb_errCode (m : Mem) (s : State) :
    (setFb m s).errCode = s.errCode := rfl
@[simp] theorem setFb_errPhase (m : Mem) (s : State) :
    (setFb m s).errPhase = s.errPhase := rfl
@[simp] theorem setFb_errStep (m : Mem) (s : State) :
    (setFb m s).errStep = s.errStep := rfl
@[simp] theorem setFb_waitCnt (m : Mem) (s : State) :
    (setFb m s).waitCnt = s.waitCnt := rfl
@[simp] theorem setFb_rstOut (m : Mem) (s : State) :
    (setFb m s).rstOut = s.rstOut := rfl
@[simp] theorem setFb_rsp (m : Mem) (s : State) :
    (setFb m s).rsp = s.rsp := rfl
@[simp] theorem setFb_delaying (m : Mem) (s : State) :
    (setFb m s).delaying = s.delaying := rfl
@[simp] theorem setFb_tx (m : Mem) (s : State) :
    (setFb m s).tx = s.tx := rfl
@[simp] theorem setFb_offered (m : Mem) (s : State) :
    (setFb m s).offered = s.offered := rfl
@[simp] theorem setFb_pins (m : Mem) (s : State) :
    (setFb m s).pins = s.pins := rfl
@[simp] theorem setFb_inputs (m : Mem) (s : State) :
    (setFb m s).inputs = s.inputs := rfl
@[simp] theorem setFb_trace (m : Mem) (s : State) :
    (setFb m s).trace = s.trace := rfl

/-! `startScript` -/

@[simp] theorem startScript_cfg (r : ReqScript) (s : State) :
    (startScript r s).cfg = s.cfg := rfl
@[simp] theorem startScript_phase (r : ReqScript) (s : State) :
    (startScript r s).phase = s.phase := rfl
@[simp] theorem startScript_seqPtr (r : ReqScript) (s : State) :
    (startScript r s).seqPtr = 0 := rfl
@[simp] theorem startScript_script (r : ReqScript) (s : State) :
    (startScript r s).script = .req r := rfl
@[simp] theorem startScript_req (r : ReqScript) (s : State) :
    (startScript r s).req = s.req := rfl
@[simp] theorem startScript_fb (r : ReqScript) (s : State) :
    (startScript r s).fb = s.fb := rfl
@[simp] theorem startScript_shDisp (r : ReqScript) (s : State) :
    (startScript r s).shDisp = s.shDisp := rfl
@[simp] theorem startScript_shCon (r : ReqScript) (s : State) :
    (startScript r s).shCon = s.shCon := rfl
@[simp] theorem startScript_shInv (r : ReqScript) (s : State) :
    (startScript r s).shInv = s.shInv := rfl
@[simp] theorem startScript_errCode (r : ReqScript) (s : State) :
    (startScript r s).errCode = s.errCode := rfl
@[simp] theorem startScript_errPhase (r : ReqScript) (s : State) :
    (startScript r s).errPhase = s.errPhase := rfl
@[simp] theorem startScript_errStep (r : ReqScript) (s : State) :
    (startScript r s).errStep = s.errStep := rfl
@[simp] theorem startScript_waitCnt (r : ReqScript) (s : State) :
    (startScript r s).waitCnt = s.waitCnt := rfl
@[simp] theorem startScript_rstOut (r : ReqScript) (s : State) :
    (startScript r s).rstOut = s.rstOut := rfl
@[simp] theorem startScript_rsp (r : ReqScript) (s : State) :
    (startScript r s).rsp = s.rsp := rfl
@[simp] theorem startScript_delaying (r : ReqScript) (s : State) :
    (startScript r s).delaying = s.delaying := rfl
@[simp] theorem startScript_tx (r : ReqScript) (s : State) :
    (startScript r s).tx = s.tx := rfl
@[simp] theorem startScript_offered (r : ReqScript) (s : State) :
    (startScript r s).offered = s.offered := rfl
@[simp] theorem startScript_pins (r : ReqScript) (s : State) :
    (startScript r s).pins = s.pins := rfl
@[simp] theorem startScript_inputs (r : ReqScript) (s : State) :
    (startScript r s).inputs = s.inputs := rfl
@[simp] theorem startScript_trace (r : ReqScript) (s : State) :
    (startScript r s).trace = s.trace := rfl

/-! `advance` -/

@[simp] theorem advance_cfg (s : State) :
    (advance s).cfg = s.cfg := rfl
@[simp] theorem advance_phase (s : State) :
    (advance s).phase = ((scriptSteps s.cfg s.script)[(s.seqPtr + 1).toNat]?.map (·.label)).getD s.phase := rfl
@[simp] theorem advance_seqPtr (s : State) :
    (advance s).seqPtr = s.seqPtr + 1 := rfl
@[simp] theorem advance_script (s : State) :
    (advance s).script = s.script := rfl
@[simp] theorem advance_req (s : State) :
    (advance s).req = s.req := rfl
@[simp] theorem advance_fb (s : State) :
    (advance s).fb = s.fb := rfl
@[simp] theorem advance_shDisp (s : State) :
    (advance s).shDisp = s.shDisp := rfl
@[simp] theorem advance_shCon (s : State) :
    (advance s).shCon = s.shCon := rfl
@[simp] theorem advance_shInv (s : State) :
    (advance s).shInv = s.shInv := rfl
@[simp] theorem advance_errCode (s : State) :
    (advance s).errCode = s.errCode := rfl
@[simp] theorem advance_errPhase (s : State) :
    (advance s).errPhase = s.errPhase := rfl
@[simp] theorem advance_errStep (s : State) :
    (advance s).errStep = s.errStep := rfl
@[simp] theorem advance_waitCnt (s : State) :
    (advance s).waitCnt = s.waitCnt := rfl
@[simp] theorem advance_rstOut (s : State) :
    (advance s).rstOut = s.rstOut := rfl
@[simp] theorem advance_rsp (s : State) :
    (advance s).rsp = s.rsp := rfl
@[simp] theorem advance_delaying (s : State) :
    (advance s).delaying = s.delaying := rfl
@[simp] theorem advance_tx (s : State) :
    (advance s).tx = s.tx := rfl
@[simp] theorem advance_offered (s : State) :
    (advance s).offered = s.offered := rfl
@[simp] theorem advance_pins (s : State) :
    (advance s).pins = s.pins := rfl
@[simp] theorem advance_inputs (s : State) :
    (advance s).inputs = s.inputs := rfl
@[simp] theorem advance_trace (s : State) :
    (advance s).trace = s.trace := rfl

/-! `answered` -/

@[simp] theorem answered_cfg (t : Transaction) (a : Answer) (s : State) :
    (answered t a s).cfg = s.cfg := rfl
@[simp] theorem answered_phase (t : Transaction) (a : Answer) (s : State) :
    (answered t a s).phase = s.phase := rfl
@[simp] theorem answered_seqPtr (t : Transaction) (a : Answer) (s : State) :
    (answered t a s).seqPtr = s.seqPtr := rfl
@[simp] theorem answered_script (t : Transaction) (a : Answer) (s : State) :
    (answered t a s).script = s.script := rfl
@[simp] theorem answered_req (t : Transaction) (a : Answer) (s : State) :
    (answered t a s).req = s.req := rfl
@[simp] theorem answered_fb (t : Transaction) (a : Answer) (s : State) :
    (answered t a s).fb = s.fb := rfl
@[simp] theorem answered_shDisp (t : Transaction) (a : Answer) (s : State) :
    (answered t a s).shDisp = displayShadow t a s.shDisp := rfl
@[simp] theorem answered_shCon (t : Transaction) (a : Answer) (s : State) :
    (answered t a s).shCon = s.shCon := rfl
@[simp] theorem answered_shInv (t : Transaction) (a : Answer) (s : State) :
    (answered t a s).shInv = s.shInv := rfl
@[simp] theorem answered_errCode (t : Transaction) (a : Answer) (s : State) :
    (answered t a s).errCode = s.errCode := rfl
@[simp] theorem answered_errPhase (t : Transaction) (a : Answer) (s : State) :
    (answered t a s).errPhase = s.errPhase := rfl
@[simp] theorem answered_errStep (t : Transaction) (a : Answer) (s : State) :
    (answered t a s).errStep = s.errStep := rfl
@[simp] theorem answered_waitCnt (t : Transaction) (a : Answer) (s : State) :
    (answered t a s).waitCnt = s.waitCnt := rfl
@[simp] theorem answered_rstOut (t : Transaction) (a : Answer) (s : State) :
    (answered t a s).rstOut = s.rstOut := rfl
@[simp] theorem answered_rsp (t : Transaction) (a : Answer) (s : State) :
    (answered t a s).rsp = s.rsp := rfl
@[simp] theorem answered_delaying (t : Transaction) (a : Answer) (s : State) :
    (answered t a s).delaying = s.delaying := rfl
@[simp] theorem answered_tx (t : Transaction) (a : Answer) (s : State) :
    (answered t a s).tx = none := rfl
@[simp] theorem answered_offered (t : Transaction) (a : Answer) (s : State) :
    (answered t a s).offered = s.offered := rfl
@[simp] theorem answered_pins (t : Transaction) (a : Answer) (s : State) :
    (answered t a s).pins = s.pins := rfl
@[simp] theorem answered_inputs (t : Transaction) (a : Answer) (s : State) :
    (answered t a s).inputs = s.inputs := rfl
@[simp] theorem answered_trace (t : Transaction) (a : Answer) (s : State) :
    (answered t a s).trace = s.trace ++ [t.event (some a)] := rfl

/-! `hold` -/

@[simp] theorem hold_cfg (t : Transaction) (s : State) :
    (hold t s).cfg = s.cfg := rfl
@[simp] theorem hold_phase (t : Transaction) (s : State) :
    (hold t s).phase = s.phase := rfl
@[simp] theorem hold_seqPtr (t : Transaction) (s : State) :
    (hold t s).seqPtr = s.seqPtr := rfl
@[simp] theorem hold_script (t : Transaction) (s : State) :
    (hold t s).script = s.script := rfl
@[simp] theorem hold_req (t : Transaction) (s : State) :
    (hold t s).req = s.req := rfl
@[simp] theorem hold_fb (t : Transaction) (s : State) :
    (hold t s).fb = s.fb := rfl
@[simp] theorem hold_shDisp (t : Transaction) (s : State) :
    (hold t s).shDisp = s.shDisp := rfl
@[simp] theorem hold_shCon (t : Transaction) (s : State) :
    (hold t s).shCon = s.shCon := rfl
@[simp] theorem hold_shInv (t : Transaction) (s : State) :
    (hold t s).shInv = s.shInv := rfl
@[simp] theorem hold_errCode (t : Transaction) (s : State) :
    (hold t s).errCode = s.errCode := rfl
@[simp] theorem hold_errPhase (t : Transaction) (s : State) :
    (hold t s).errPhase = s.errPhase := rfl
@[simp] theorem hold_errStep (t : Transaction) (s : State) :
    (hold t s).errStep = s.errStep := rfl
@[simp] theorem hold_waitCnt (t : Transaction) (s : State) :
    (hold t s).waitCnt = s.waitCnt := rfl
@[simp] theorem hold_rstOut (t : Transaction) (s : State) :
    (hold t s).rstOut = s.rstOut := rfl
@[simp] theorem hold_rsp (t : Transaction) (s : State) :
    (hold t s).rsp = s.rsp := rfl
@[simp] theorem hold_delaying (t : Transaction) (s : State) :
    (hold t s).delaying = s.delaying := rfl
@[simp] theorem hold_tx (t : Transaction) (s : State) :
    (hold t s).tx = some (handOver s.pins.txReady (s.tx.getD ⟨t, 0⟩)) := rfl
@[simp] theorem hold_offered (t : Transaction) (s : State) :
    (hold t s).offered = s.offered := rfl
@[simp] theorem hold_pins (t : Transaction) (s : State) :
    (hold t s).pins = s.pins := rfl
@[simp] theorem hold_inputs (t : Transaction) (s : State) :
    (hold t s).inputs = s.inputs := rfl
@[simp] theorem hold_trace (t : Transaction) (s : State) :
    (hold t s).trace = s.trace := rfl

/-! `configErrorEntry` -/

@[simp] theorem configErrorEntry_cfg (s : State) :
    (configErrorEntry s).cfg = s.cfg := rfl
@[simp] theorem configErrorEntry_phase (s : State) :
    (configErrorEntry s).phase = .configError := rfl
@[simp] theorem configErrorEntry_seqPtr (s : State) :
    (configErrorEntry s).seqPtr = s.seqPtr := rfl
@[simp] theorem configErrorEntry_script (s : State) :
    (configErrorEntry s).script = s.script := rfl
@[simp] theorem configErrorEntry_req (s : State) :
    (configErrorEntry s).req = s.req := rfl
@[simp] theorem configErrorEntry_fb (s : State) :
    (configErrorEntry s).fb = s.fb := rfl
@[simp] theorem configErrorEntry_shDisp (s : State) :
    (configErrorEntry s).shDisp = s.shDisp := rfl
@[simp] theorem configErrorEntry_shCon (s : State) :
    (configErrorEntry s).shCon = s.shCon := rfl
@[simp] theorem configErrorEntry_shInv (s : State) :
    (configErrorEntry s).shInv = s.shInv := rfl
@[simp] theorem configErrorEntry_errCode (s : State) :
    (configErrorEntry s).errCode = .config := rfl
@[simp] theorem configErrorEntry_errPhase (s : State) :
    (configErrorEntry s).errPhase = s.errPhase := rfl
@[simp] theorem configErrorEntry_errStep (s : State) :
    (configErrorEntry s).errStep = s.errStep := rfl
@[simp] theorem configErrorEntry_waitCnt (s : State) :
    (configErrorEntry s).waitCnt = s.waitCnt := rfl
@[simp] theorem configErrorEntry_rstOut (s : State) :
    (configErrorEntry s).rstOut = s.rstOut := rfl
@[simp] theorem configErrorEntry_rsp (s : State) :
    (configErrorEntry s).rsp = s.rsp := rfl
@[simp] theorem configErrorEntry_delaying (s : State) :
    (configErrorEntry s).delaying = s.delaying := rfl
@[simp] theorem configErrorEntry_tx (s : State) :
    (configErrorEntry s).tx = s.tx := rfl
@[simp] theorem configErrorEntry_offered (s : State) :
    (configErrorEntry s).offered = s.offered := rfl
@[simp] theorem configErrorEntry_pins (s : State) :
    (configErrorEntry s).pins = s.pins := rfl
@[simp] theorem configErrorEntry_inputs (s : State) :
    (configErrorEntry s).inputs = s.inputs := rfl
@[simp] theorem configErrorEntry_trace (s : State) :
    (configErrorEntry s).trace = s.trace := rfl

/-! `latchRequest` -/

@[simp] theorem latchRequest_cfg (r : Request) (rest : List Request) (s : State) :
    (latchRequest r rest s).cfg = s.cfg := rfl
@[simp] theorem latchRequest_phase (r : Request) (rest : List Request) (s : State) :
    (latchRequest r rest s).phase = s.phase := rfl
@[simp] theorem latchRequest_seqPtr (r : Request) (rest : List Request) (s : State) :
    (latchRequest r rest s).seqPtr = s.seqPtr := rfl
@[simp] theorem latchRequest_script (r : Request) (rest : List Request) (s : State) :
    (latchRequest r rest s).script = s.script := rfl
@[simp] theorem latchRequest_req (r : Request) (rest : List Request) (s : State) :
    (latchRequest r rest s).req = some r := rfl
@[simp] theorem latchRequest_fb (r : Request) (rest : List Request) (s : State) :
    (latchRequest r rest s).fb = s.fb := rfl
@[simp] theorem latchRequest_shDisp (r : Request) (rest : List Request) (s : State) :
    (latchRequest r rest s).shDisp = s.shDisp := rfl
@[simp] theorem latchRequest_shCon (r : Request) (rest : List Request) (s : State) :
    (latchRequest r rest s).shCon = s.shCon := rfl
@[simp] theorem latchRequest_shInv (r : Request) (rest : List Request) (s : State) :
    (latchRequest r rest s).shInv = s.shInv := rfl
@[simp] theorem latchRequest_errCode (r : Request) (rest : List Request) (s : State) :
    (latchRequest r rest s).errCode = s.errCode := rfl
@[simp] theorem latchRequest_errPhase (r : Request) (rest : List Request) (s : State) :
    (latchRequest r rest s).errPhase = s.errPhase := rfl
@[simp] theorem latchRequest_errStep (r : Request) (rest : List Request) (s : State) :
    (latchRequest r rest s).errStep = s.errStep := rfl
@[simp] theorem latchRequest_waitCnt (r : Request) (rest : List Request) (s : State) :
    (latchRequest r rest s).waitCnt = s.waitCnt := rfl
@[simp] theorem latchRequest_rstOut (r : Request) (rest : List Request) (s : State) :
    (latchRequest r rest s).rstOut = s.rstOut := rfl
@[simp] theorem latchRequest_rsp (r : Request) (rest : List Request) (s : State) :
    (latchRequest r rest s).rsp = s.rsp := rfl
@[simp] theorem latchRequest_delaying (r : Request) (rest : List Request) (s : State) :
    (latchRequest r rest s).delaying = s.delaying := rfl
@[simp] theorem latchRequest_tx (r : Request) (rest : List Request) (s : State) :
    (latchRequest r rest s).tx = s.tx := rfl
@[simp] theorem latchRequest_offered (r : Request) (rest : List Request) (s : State) :
    (latchRequest r rest s).offered = rest := rfl
@[simp] theorem latchRequest_pins (r : Request) (rest : List Request) (s : State) :
    (latchRequest r rest s).pins = s.pins := rfl
@[simp] theorem latchRequest_inputs (r : Request) (rest : List Request) (s : State) :
    (latchRequest r rest s).inputs = s.inputs := rfl
@[simp] theorem latchRequest_trace (r : Request) (rest : List Request) (s : State) :
    (latchRequest r rest s).trace = s.trace := rfl

/-! `blockReset` -/

@[simp] theorem blockReset_cfg (s : State) :
    (blockReset s).cfg = s.cfg := rfl
@[simp] theorem blockReset_phase (s : State) :
    (blockReset s).phase = .uninit := rfl
@[simp] theorem blockReset_seqPtr (s : State) :
    (blockReset s).seqPtr = 0 := rfl
@[simp] theorem blockReset_script (s : State) :
    (blockReset s).script = .none := rfl
@[simp] theorem blockReset_req (s : State) :
    (blockReset s).req = none := rfl
@[simp] theorem blockReset_fb (s : State) :
    (blockReset s).fb = [] := rfl
@[simp] theorem blockReset_shDisp (s : State) :
    (blockReset s).shDisp = none := rfl
@[simp] theorem blockReset_shCon (s : State) :
    (blockReset s).shCon = none := rfl
@[simp] theorem blockReset_shInv (s : State) :
    (blockReset s).shInv = none := rfl
@[simp] theorem blockReset_errCode (s : State) :
    (blockReset s).errCode = .none := rfl
@[simp] theorem blockReset_errPhase (s : State) :
    (blockReset s).errPhase = 0 := rfl
@[simp] theorem blockReset_errStep (s : State) :
    (blockReset s).errStep = 0 := rfl
@[simp] theorem blockReset_waitCnt (s : State) :
    (blockReset s).waitCnt = 0 := rfl
@[simp] theorem blockReset_rstOut (s : State) :
    (blockReset s).rstOut = !s.cfg.rstActive := rfl
@[simp] theorem blockReset_rsp (s : State) :
    (blockReset s).rsp = none := rfl
@[simp] theorem blockReset_delaying (s : State) :
    (blockReset s).delaying = false := rfl
@[simp] theorem blockReset_tx (s : State) :
    (blockReset s).tx = none := rfl
@[simp] theorem blockReset_offered (s : State) :
    (blockReset s).offered = s.offered := rfl
@[simp] theorem blockReset_pins (s : State) :
    (blockReset s).pins = s.pins := rfl
@[simp] theorem blockReset_inputs (s : State) :
    (blockReset s).inputs = s.inputs := rfl
@[simp] theorem blockReset_trace (s : State) :
    (blockReset s).trace = s.trace ++ abandonedEvents s := rfl

/-! `applyShadow` -/

@[simp] theorem applyShadow_cfg (u : ShadowUpdate) (s : State) :
    (applyShadow u s).cfg = s.cfg := by cases u <;> rfl
@[simp] theorem applyShadow_phase (u : ShadowUpdate) (s : State) :
    (applyShadow u s).phase = s.phase := by cases u <;> rfl
@[simp] theorem applyShadow_seqPtr (u : ShadowUpdate) (s : State) :
    (applyShadow u s).seqPtr = s.seqPtr := by cases u <;> rfl
@[simp] theorem applyShadow_script (u : ShadowUpdate) (s : State) :
    (applyShadow u s).script = s.script := by cases u <;> rfl
@[simp] theorem applyShadow_req (u : ShadowUpdate) (s : State) :
    (applyShadow u s).req = s.req := by cases u <;> rfl
@[simp] theorem applyShadow_fb (u : ShadowUpdate) (s : State) :
    (applyShadow u s).fb = s.fb := by cases u <;> rfl
@[simp] theorem applyShadow_shDisp (u : ShadowUpdate) (s : State) :
    (applyShadow u s).shDisp = (match u with | .disp v => some v | _ => s.shDisp) := by cases u <;> rfl
@[simp] theorem applyShadow_shCon (u : ShadowUpdate) (s : State) :
    (applyShadow u s).shCon = (match u with | .con L => some L | _ => s.shCon) := by cases u <;> rfl
@[simp] theorem applyShadow_shInv (u : ShadowUpdate) (s : State) :
    (applyShadow u s).shInv = (match u with | .inv f => some f | _ => s.shInv) := by cases u <;> rfl
@[simp] theorem applyShadow_errCode (u : ShadowUpdate) (s : State) :
    (applyShadow u s).errCode = s.errCode := by cases u <;> rfl
@[simp] theorem applyShadow_errPhase (u : ShadowUpdate) (s : State) :
    (applyShadow u s).errPhase = s.errPhase := by cases u <;> rfl
@[simp] theorem applyShadow_errStep (u : ShadowUpdate) (s : State) :
    (applyShadow u s).errStep = s.errStep := by cases u <;> rfl
@[simp] theorem applyShadow_waitCnt (u : ShadowUpdate) (s : State) :
    (applyShadow u s).waitCnt = s.waitCnt := by cases u <;> rfl
@[simp] theorem applyShadow_rstOut (u : ShadowUpdate) (s : State) :
    (applyShadow u s).rstOut = s.rstOut := by cases u <;> rfl
@[simp] theorem applyShadow_rsp (u : ShadowUpdate) (s : State) :
    (applyShadow u s).rsp = s.rsp := by cases u <;> rfl
@[simp] theorem applyShadow_delaying (u : ShadowUpdate) (s : State) :
    (applyShadow u s).delaying = s.delaying := by cases u <;> rfl
@[simp] theorem applyShadow_tx (u : ShadowUpdate) (s : State) :
    (applyShadow u s).tx = s.tx := by cases u <;> rfl
@[simp] theorem applyShadow_offered (u : ShadowUpdate) (s : State) :
    (applyShadow u s).offered = s.offered := by cases u <;> rfl
@[simp] theorem applyShadow_pins (u : ShadowUpdate) (s : State) :
    (applyShadow u s).pins = s.pins := by cases u <;> rfl
@[simp] theorem applyShadow_inputs (u : ShadowUpdate) (s : State) :
    (applyShadow u s).inputs = s.inputs := by cases u <;> rfl
@[simp] theorem applyShadow_trace (u : ShadowUpdate) (s : State) :
    (applyShadow u s).trace = s.trace := by cases u <;> rfl

/-! `transportFault` -/

@[simp] theorem transportFault_cfg (s : State) :
    (transportFault s).cfg = s.cfg := by unfold transportFault; cases s.script <;> rfl
@[simp] theorem transportFault_phase (s : State) :
    (transportFault s).phase = .fault := by unfold transportFault; cases s.script <;> rfl
@[simp] theorem transportFault_seqPtr (s : State) :
    (transportFault s).seqPtr = 0 := by unfold transportFault; cases s.script <;> rfl
@[simp] theorem transportFault_script (s : State) :
    (transportFault s).script = .none := by unfold transportFault; cases s.script <;> rfl
@[simp] theorem transportFault_req (s : State) :
    (transportFault s).req = s.req := by unfold transportFault; cases s.script <;> rfl
@[simp] theorem transportFault_fb (s : State) :
    (transportFault s).fb = s.fb := by unfold transportFault; cases s.script <;> rfl
@[simp] theorem transportFault_shDisp (s : State) :
    (transportFault s).shDisp = none := by unfold transportFault; cases s.script <;> rfl
@[simp] theorem transportFault_shCon (s : State) :
    (transportFault s).shCon = none := by unfold transportFault; cases s.script <;> rfl
@[simp] theorem transportFault_shInv (s : State) :
    (transportFault s).shInv = none := by unfold transportFault; cases s.script <;> rfl
@[simp] theorem transportFault_errCode (s : State) :
    (transportFault s).errCode = .transport := by unfold transportFault; cases s.script <;> rfl
@[simp] theorem transportFault_errPhase (s : State) :
    (transportFault s).errPhase = s.phase.code := by unfold transportFault; cases s.script <;> rfl
@[simp] theorem transportFault_errStep (s : State) :
    (transportFault s).errStep = s.seqPtr := by unfold transportFault; cases s.script <;> rfl
@[simp] theorem transportFault_waitCnt (s : State) :
    (transportFault s).waitCnt = s.waitCnt := by unfold transportFault; cases s.script <;> rfl
@[simp] theorem transportFault_rstOut (s : State) :
    (transportFault s).rstOut = s.rstOut := by unfold transportFault; cases s.script <;> rfl
@[simp] theorem transportFault_rsp (s : State) :
    (transportFault s).rsp = (match s.script with | .req _ => some ⟨.transportErr, 0x00⟩ | _ => s.rsp) := by unfold transportFault; cases s.script <;> rfl
@[simp] theorem transportFault_delaying (s : State) :
    (transportFault s).delaying = s.delaying := by unfold transportFault; cases s.script <;> rfl
@[simp] theorem transportFault_tx (s : State) :
    (transportFault s).tx = s.tx := by unfold transportFault; cases s.script <;> rfl
@[simp] theorem transportFault_offered (s : State) :
    (transportFault s).offered = s.offered := by unfold transportFault; cases s.script <;> rfl
@[simp] theorem transportFault_pins (s : State) :
    (transportFault s).pins = s.pins := by unfold transportFault; cases s.script <;> rfl
@[simp] theorem transportFault_inputs (s : State) :
    (transportFault s).inputs = s.inputs := by unfold transportFault; cases s.script <;> rfl
@[simp] theorem transportFault_trace (s : State) :
    (transportFault s).trace = (match s.script with | .req _ => s.trace ++ [.rsp .transportErr 0x00] | _ => s.trace) := by unfold transportFault; cases s.script <;> rfl

/-! `sample` -/

@[simp] theorem sample_cfg (s : State) :
    (sample s).cfg = s.cfg := by unfold sample; split <;> rfl
@[simp] theorem sample_phase (s : State) :
    (sample s).phase = s.phase := by unfold sample; split <;> rfl
@[simp] theorem sample_seqPtr (s : State) :
    (sample s).seqPtr = s.seqPtr := by unfold sample; split <;> rfl
@[simp] theorem sample_script (s : State) :
    (sample s).script = s.script := by unfold sample; split <;> rfl
@[simp] theorem sample_req (s : State) :
    (sample s).req = s.req := by unfold sample; split <;> rfl
@[simp] theorem sample_fb (s : State) :
    (sample s).fb = s.fb := by unfold sample; split <;> rfl
@[simp] theorem sample_shDisp (s : State) :
    (sample s).shDisp = s.shDisp := by unfold sample; split <;> rfl
@[simp] theorem sample_shCon (s : State) :
    (sample s).shCon = s.shCon := by unfold sample; split <;> rfl
@[simp] theorem sample_shInv (s : State) :
    (sample s).shInv = s.shInv := by unfold sample; split <;> rfl
@[simp] theorem sample_errCode (s : State) :
    (sample s).errCode = s.errCode := by unfold sample; split <;> rfl
@[simp] theorem sample_errPhase (s : State) :
    (sample s).errPhase = s.errPhase := by unfold sample; split <;> rfl
@[simp] theorem sample_errStep (s : State) :
    (sample s).errStep = s.errStep := by unfold sample; split <;> rfl
@[simp] theorem sample_waitCnt (s : State) :
    (sample s).waitCnt = s.waitCnt := by unfold sample; split <;> rfl
@[simp] theorem sample_rstOut (s : State) :
    (sample s).rstOut = s.rstOut := by unfold sample; split <;> rfl
@[simp] theorem sample_rsp (s : State) :
    (sample s).rsp = s.rsp := by unfold sample; split <;> rfl
@[simp] theorem sample_delaying (s : State) :
    (sample s).delaying = s.delaying := by unfold sample; split <;> rfl
@[simp] theorem sample_tx (s : State) :
    (sample s).tx = s.tx := by unfold sample; split <;> rfl
@[simp] theorem sample_offered (s : State) :
    (sample s).offered = s.offered ++ ((s.inputs.headD .quiet).req.toList) := by
  unfold sample; split <;> simp_all [Pins.quiet]
@[simp] theorem sample_pins (s : State) :
    (sample s).pins = s.inputs.headD .quiet := by
  unfold sample; split <;> simp_all
@[simp] theorem sample_inputs (s : State) :
    (sample s).inputs = s.inputs.tail := by
  unfold sample; split <;> simp_all
@[simp] theorem sample_trace (s : State) :
    (sample s).trace = s.trace := by unfold sample; split <;> rfl

end Sys2Proof.Machine
end

