-- ==== Sys2Proof/Laws/Ops.lean ====
section
/-! SUPPORT. One spec lemma per shared operation: what it can answer and what it leaves alone. -/

namespace Sys2Proof.Machine

/-! ## Requests -/

/-- A request in a faulted phase is answered FAULTED and has no other effect. -/
theorem serve_faulted {s : State} (h : s.phase.isFaulted = true) (f : State → State) :
    serve f s = .next (respond .faulted 0x00 s) := by
  simp [serve, h]

/-- A request in any other phase is performed. -/
theorem serve_serving {s : State} (h : s.phase.isFaulted = false) (f : State → State) :
    serve f s = .next (f s) := by
  simp [serve, h]

/-- Every answer of `serve` is one of the two. -/
theorem serve_cases {f : State → State} {s t : State} (h : serve f s = .next t) :
    (s.phase.isFaulted = true ∧ t = respond .faulted 0x00 s) ∨
      (s.phase.isFaulted = false ∧ t = f s) := by
  unfold serve at h
  injection h with h
  subst h
  cases s.phase.isFaulted <;> simp

/-! ## Transactions -/

/-- A command answered Ok writes `sh_disp` when its byte is 0xAF or 0xAE, and leaves it otherwise. -/
@[simp] theorem displayShadow_cmd (b : Byte) (d : Option Bool) :
    displayShadow (cmdTransaction b) .ok d =
      if b = 0xAF then some true else if b = 0xAE then some false else d := by
  simp [displayShadow, cmdTransaction]

/-- A frame leaves `sh_disp`. -/
@[simp] theorem displayShadow_data (bs : List Byte) (a : Answer) (d : Option Bool) :
    displayShadow (dataTransaction bs) a d = d := by
  cases a <;> simp [displayShadow, cmdTransaction, dataTransaction]

/-- A failed transaction leaves `sh_disp` to the fault entry. -/
@[simp] theorem displayShadow_err (t : Transaction) (d : Option Bool) : displayShadow t .err d = d := rfl

theorem emit_ok {s : State} (h : s.pins.answer = some .ok) (t : Transaction) (u : ShadowUpdate) :
    emit t u s = advance (applyShadow u (answered t .ok s)) := by
  simp [emit, h]

theorem emit_err {s : State} (h : s.pins.answer = some .err) (t : Transaction) (u : ShadowUpdate) :
    emit t u s = transportFault (answered t .err s) := by
  simp [emit, h]

theorem emit_unanswered {s : State} (h : s.pins.answer = none) (t : Transaction) (u : ShadowUpdate) :
    emit t u s = hold t s := by
  simp [emit, h]

/-- The three outcomes of a transaction step. -/
theorem emit_cases (t : Transaction) (u : ShadowUpdate) (s : State) :
    (s.pins.answer = some .ok ∧ emit t u s = advance (applyShadow u (answered t .ok s))) ∨
    (s.pins.answer = some .err ∧ emit t u s = transportFault (answered t .err s)) ∨
    (s.pins.answer = none ∧ emit t u s = hold t s) := by
  unfold emit
  split <;> simp_all

/-- No transaction step touches the framebuffer, the instance, the latch, the reset line or the
environment. -/
theorem emit_frame (t : Transaction) (u : ShadowUpdate) (s : State) :
    (emit t u s).fb = s.fb ∧ (emit t u s).cfg = s.cfg ∧ (emit t u s).req = s.req ∧
      (emit t u s).rstOut = s.rstOut ∧ (emit t u s).waitCnt = s.waitCnt ∧
      (emit t u s).delaying = s.delaying ∧ (emit t u s).pins = s.pins ∧
      (emit t u s).inputs = s.inputs ∧ (emit t u s).offered = s.offered := by
  rcases emit_cases t u s with ⟨-, h⟩ | ⟨-, h⟩ | ⟨-, h⟩ <;> rw [h] <;> simp

@[simp] theorem event_cmdTransaction (b : Byte) (a : Option Answer) :
    (cmdTransaction b).event a = .cmd b a := rfl

@[simp] theorem event_dataTransaction (bs : List Byte) (a : Option Answer) :
    (dataTransaction bs).event a = .data bs a := rfl

@[simp] theorem handOver_txn (r : Bool) (f : InFlight) : (handOver r f).txn = f.txn := by
  unfold handOver
  split <;> rfl

theorem handOver_handed_le (r : Bool) {f : InFlight} (h : f.handed ≤ f.txn.bytes.length) :
    (handOver r f).handed ≤ f.txn.bytes.length := by
  unfold handOver
  split
  · simp_all
  · exact h

/-! ## The transport port -/

theorem onPort_outstanding {s : State} {f : InFlight} (h : s.tx = some f) : onPort s = some f := by
  simp [onPort, h]

/-- A CMD step that starts presents its byte. -/
theorem onPort_cmd {s : State} {i : Instr} {b : Byte} {l : Phase} (ht : s.tx = none) (hp : s.phase ≠ .uninit)
    (hc : currentStep s = some ⟨.cmd i, l⟩) (hb : commandByteOf i = some b) :
    onPort s = some ⟨cmdTransaction b, 0⟩ := by
  simp [onPort, ht, hp, stepTransaction, hc, hb]

/-- A DATA step that starts presents the frame. -/
theorem onPort_data {s : State} {l : Phase} (ht : s.tx = none) (hp : s.phase ≠ .uninit)
    (hc : currentStep s = some ⟨.data, l⟩) :
    onPort s = some ⟨dataTransaction (s.fb.bytes s.cfg.N), 0⟩ := by
  simp [onPort, ht, hp, stepTransaction, hc]

/-- A step that makes no transaction presents nothing. -/
theorem onPort_idle {s : State} (ht : s.tx = none) (hs : s.script = .none) : onPort s = none := by
  simp [onPort, ht, stepTransaction, currentStep, hs, scriptSteps]

/-! ## Instructions -/

/-- Every instruction answers a next state. -/
theorem exec_answers_next (i : Instr) (s : State) : ∃ t, exec i s = .next t := by
  cases i <;> exact ⟨_, rfl⟩

/-- A command instruction is a CMD step of its byte with its shadow update. -/
theorem exec_command {i : Instr} {b : Byte} (h : commandByteOf i = some b) (s : State) :
    exec i s = .next (emit (cmdTransaction b) (shadowOf i) s) := by
  cases i <;> simp only [commandByteOf, encodeCode, reduceCtorEq, Option.some.injEq] at h <;>
    subst h <;> rfl

/-- After a CMD step answered Ok, `sh_disp` follows its byte: where the step has a display update of its own
(R68 and R69 of 30_encoding.md), that update is the one its byte makes (R23 of 10_state.md). -/
theorem shDisp_command_ok {i : Instr} {b : Byte} (h : commandByteOf i = some b) {s : State}
    (ha : s.pins.answer = some .ok) :
    (emit (cmdTransaction b) (shadowOf i) s).shDisp =
      if b = 0xAF then some true else if b = 0xAE then some false else s.shDisp := by
  rw [emit_ok ha]
  cases i <;> simp only [commandByteOf, encodeCode, reduceCtorEq, Option.some.injEq] at h <;> subst h <;>
    simp [shadowOf]

/-- What a request does to the framebuffer, in a phase that serves it. -/
def fbAfter (cfg : Config) (m : Mem) : Instr → Mem
  | .set x y c => m.setPixel cfg x y c
  | .fill c => m.fill cfg.N (if c then 0xFF else 0x00)
  | .fillRect x y w h c => m.fillRect cfg x y w h c
  | .bufWr a v => if a < cfg.N then m.write a v else m
  | _ => m

/-- A request's answer: FAULTED in a faulted phase, otherwise the start of its script, or a response
with the framebuffer it leaves. -/
theorem exec_request {i : Instr} {r : Request} (hi : bundleOf i = some r) (s : State) :
    (s.phase.isFaulted = true ∧ exec i s = .next (respond .faulted 0x00 s)) ∨
    (s.phase.isFaulted = false ∧ ∃ q, scriptStartedBy i = some q ∧ exec i s = .next (startScript q s)) ∨
    (s.phase.isFaulted = false ∧ scriptStartedBy i = none ∧
      ∃ st d, exec i s = .next (respond st d (setFb (fbAfter s.cfg s.fb i) s))) := by
  rcases hf : s.phase.isFaulted with _ | _
  · refine .inr ?_
    cases i <;> simp only [bundleOf, encodeCode, reduceCtorEq] at hi <;>
      simp only [scriptStartedBy, reduceCtorEq, false_and, exists_false, and_false, false_or, true_and,
        Option.some.injEq, exists_eq_left', fbAfter, exec]
    case set x y c => exact ⟨_, _, serve_serving hf _⟩
    case get x y =>
      unfold execGet
      rw [serve_serving hf]
      cases mapPixel s.cfg x y <;> exact ⟨_, _, rfl⟩
    case fill c => exact ⟨_, _, serve_serving hf _⟩
    case fillRect => exact ⟨_, _, serve_serving hf _⟩
    case bufRd a =>
      unfold execBufRd
      rw [serve_serving hf]
      by_cases h : a < s.cfg.N <;> simp only [h, if_true, if_false] <;> exact ⟨_, _, rfl⟩
    case bufWr a v =>
      unfold execBufWr
      rw [serve_serving hf]
      by_cases h : a < s.cfg.N <;> simp only [h, if_true, if_false] <;> exact ⟨_, _, rfl⟩
    case reserved0 => exact ⟨_, _, serve_serving hf _⟩
    case reservedC => exact ⟨_, _, serve_serving hf _⟩
    case reservedD => exact ⟨_, _, serve_serving hf _⟩
    case reservedE => exact ⟨_, _, serve_serving hf _⟩
    case reservedF => exact ⟨_, _, serve_serving hf _⟩
    all_goals exact .inl (serve_serving hf _)
  · refine .inl ⟨rfl, ?_⟩
    cases i <;> simp only [bundleOf, encodeCode, reduceCtorEq] at hi <;>
      simp only [exec, execSet, execGet, execFill, execFillRect, execFlush, execPowerOn, execPowerOff,
        execSetContrast, execSetInvert, execBufRd, execBufWr, execReserved0, execReservedC, execReservedD,
        execReservedE, execReservedF, illegalRequest, serve_faulted hf]

/-- Every decoded bundle is a request. -/
theorem bundleOf_decodeRequest (r : Request) : ∃ q, bundleOf (decodeRequest r) = some q := by
  unfold decodeRequest
  split
  all_goals first
    | exact ⟨_, rfl⟩
    | (exfalso; omega)

/-- A request keeps the framebuffer canonical. -/
theorem wf_fbAfter {cfg : Config} {m : Mem} (hm : m.wf = true) (hb : m.below cfg.N = true) (i : Instr) :
    (fbAfter cfg m i).wf = true := by
  cases i <;> simp only [fbAfter] <;> try exact hm
  case set => exact Mem.wf_setPixel hm _ _ _
  case fill => exact Mem.wf_fill hb
  case fillRect => exact Mem.wf_fillRect hm _ _ _ _ _
  case bufWr a v =>
    split
    · exact Mem.wf_write hm
    · exact hm

/-- A request keeps the framebuffer in its address space. -/
theorem below_fbAfter {cfg : Config} (hc : cfg.WF) {m : Mem} (hb : m.below cfg.N = true) (i : Instr) :
    (fbAfter cfg m i).below cfg.N = true := by
  cases i <;> simp only [fbAfter] <;> try exact hb
  case set => exact Mem.below_setPixel hc hb _ _ _
  case fill => exact Mem.below_fill hb
  case fillRect => exact Mem.below_fillRect hc hb _ _ _ _ _
  case bufWr a v =>
    split
    · exact Mem.below_write ‹_› hb
    · exact hb

end Sys2Proof.Machine
end

