-- ==== Sys2Proof/Laws/Step.lean ====
section
/-! SUPPORT. What one step can do, said once. -/

namespace Sys2Proof.Machine

/-- The step of an instance. -/
theorem step_instance {s : State} (h : s.cfg.WF) : step s = sequencerStep (sample s) := by
  simp only [step, if_pos h]

/-- Block reset overrides everything. -/
theorem sequencerStep_reset {s : State} (h : s.pins.rstN = false) :
    sequencerStep s = .next (blockReset s) := by
  simp [sequencerStep, h]

theorem sequencerStep_uninit {s : State} (h : s.pins.rstN = true) (hp : s.phase = .uninit) :
    sequencerStep s = .next (uninitStep s) := by
  unfold sequencerStep
  rw [if_pos h]
  simp [hp]

theorem sequencerStep_idle {s : State} (h : s.pins.rstN = true) (hp : s.phase ≠ .uninit)
    (hs : s.script = .none) : sequencerStep s = idleStep s := by
  unfold sequencerStep
  rw [if_pos h]
  split
  · contradiction
  · rfl
  · simp_all

theorem sequencerStep_script {s : State} (h : s.pins.rstN = true) (hp : s.phase ≠ .uninit)
    (hs : s.script ≠ .none) : sequencerStep s = runStep s := by
  unfold sequencerStep
  rw [if_pos h]
  split
  · contradiction
  · simp_all
  · rfl

/-- The one enabled step, by the order of R100 (41_sequencer_init.md). -/
theorem sequencerStep_cases (s : State) :
    (s.pins.rstN = false ∧ sequencerStep s = .next (blockReset s)) ∨
    (s.pins.rstN = true ∧ s.phase = .uninit ∧ sequencerStep s = .next (uninitStep s)) ∨
    (s.pins.rstN = true ∧ s.phase ≠ .uninit ∧ s.script = .none ∧ sequencerStep s = idleStep s) ∨
    (s.pins.rstN = true ∧ s.phase ≠ .uninit ∧ s.script ≠ .none ∧ sequencerStep s = runStep s) := by
  rcases hr : s.pins.rstN with _ | _
  · exact .inl ⟨rfl, sequencerStep_reset hr⟩
  · by_cases hp : s.phase = .uninit
    · exact .inr (.inl ⟨rfl, hp, sequencerStep_uninit hr hp⟩)
    · by_cases hs : s.script = .none
      · exact .inr (.inr (.inl ⟨rfl, hp, hs, sequencerStep_idle hr hp hs⟩))
      · exact .inr (.inr (.inr ⟨rfl, hp, hs, sequencerStep_script hr hp hs⟩))

/-- The step at `seq_ptr` is performed. -/
theorem runStep_current {s : State} {st : ScriptStep} (h : currentStep s = some st) :
    runStep s = performStep st.kind s := by
  simp [runStep, h]

/-- At the end of the script it is finished. -/
theorem runStep_end {s : State} (h : s.seqPtr.toNat = (scriptSteps s.cfg s.script).length) :
    runStep s = .next (endScript s) := by
  have : currentStep s = none := by
    unfold currentStep
    rw [List.getElem?_eq_none_iff]
    omega
  simp [runStep, this, h]

/-- The host takes a pending response when it is ready, and nothing else happens. -/
theorem idleStep_pending {s : State} {r : Response} (h : s.rsp = some r) :
    idleStep s = .next (if s.pins.rspReady then { s with rsp := none } else s) := by
  simp [idleStep, h]

/-- An idle block with nothing offered does nothing. -/
theorem idleStep_quiet {s : State} (h : s.rsp = none) (ho : s.offered = []) : idleStep s = .next s := by
  simp [idleStep, h, ho]

/-- An idle, ready block latches the oldest request and dispatches it in the same step. -/
theorem idleStep_accept {s : State} {r : Request} {rest : List Request} (h : s.rsp = none)
    (ho : s.offered = r :: rest) (hr : reqReady s = true) :
    idleStep s = exec (decodeRequest r) (latchRequest r rest s) := by
  simp [idleStep, h, ho, hr, dispatch]

/-- What an idle block can do. -/
theorem idleStep_cases (s : State) :
    (∃ r, s.rsp = some r ∧ s.pins.rspReady = true ∧ idleStep s = .next { s with rsp := none }) ∨
    (idleStep s = .next s) ∨
    (∃ r rest, s.rsp = none ∧ s.offered = r :: rest ∧ reqReady s = true ∧
      idleStep s = exec (decodeRequest r) (latchRequest r rest s)) := by
  rcases hs : s.rsp with _ | r
  · rcases ho : s.offered with _ | ⟨q, rest⟩
    · exact .inr (.inl (idleStep_quiet hs ho))
    · rcases hr : reqReady s with _ | _
      · exact .inr (.inl (by simp [idleStep, hs, ho, hr]))
      · exact .inr (.inr ⟨q, rest, rfl, rfl, rfl, idleStep_accept hs ho hr⟩)
  · rw [idleStep_pending hs]
    rcases hr : s.pins.rspReady with _ | _
    · exact .inr (.inl rfl)
    · exact .inl ⟨r, rfl, rfl, rfl⟩

/-- The phase and script of a block that accepts a request. -/
theorem reqReady_iff (s : State) :
    reqReady s = true ↔
      s.pins.rstN = true ∧ s.script = .none ∧ s.rsp = none ∧
        (s.phase = .poweredOn ∨ s.phase = .fault ∨ s.phase = .configError) := by
  unfold reqReady
  cases s.phase <;> simp [Phase.isServing, and_assoc]

end Sys2Proof.Machine
end

