-- ==== Sys2Proof/Laws/Script.lean ====
section
/-! SUPPORT. The shape of the INIT script (R115 of 41_sequencer_init.md): its length, its labels, and where its
RST, CLEARBUF and DATA steps stand. -/

namespace Sys2Proof.Machine

/-- INIT on the hardware path, written out. -/
theorem initScript_hardware {c : Config} (h : c.hasRst = true) :
    initScript c =
      [⟨.rst c.rstActive, .resetting⟩, ⟨.delay 10, .resetting⟩, ⟨.rst (!c.rstActive), .resetting⟩,
       ⟨.delay 100, .resetting⟩, ⟨.rst (!c.rstActive), .resetting⟩, ⟨.delay 10, .configuring⟩,
       ⟨.cmd .displayOff, .configuring⟩, ⟨.cmd .tempComp, .configuring⟩, ⟨.cmd .powerCtrl, .configuring⟩,
       ⟨.cmd .biasRatio, .configuring⟩, ⟨.cmd .pmPrefix, .configuring⟩,
       ⟨.cmd (.pmValue c.pmValue), .configuring⟩, ⟨.cmd .scrollOrigin, .configuring⟩,
       ⟨.cmd .analogA, .configuring⟩, ⟨.cmd .analogB, .configuring⟩, ⟨.cmd .lineCorr, .configuring⟩,
       ⟨.cmd .comEndPrefix, .configuring⟩, ⟨.cmd (.comEndValue c.comEndValue), .configuring⟩,
       ⟨.cmd (scanMirrorOf c.orient), .configuring⟩, ⟨.cmd (ramControlOf c.orient), .configuring⟩,
       ⟨.clearBuf, .configuring⟩, ⟨.cmd .pageAddr0, .cleared⟩, ⟨.cmd .colHi0, .cleared⟩,
       ⟨.cmd .colLo0, .cleared⟩, ⟨.data, .cleared⟩, ⟨.cmd .displayOn, .cleared⟩] := by
  simp [initScript, resetPart, h, configCommands, orientationPair, clearPart, flushKinds, tRstAssert,
    tRstRecover, tSettle]

/-- INIT on the soft path, written out. -/
theorem initScript_soft {c : Config} (h : c.hasRst = false) :
    initScript c =
      [⟨.cmd .softReset, .configuring⟩, ⟨.delay 10, .configuring⟩,
       ⟨.cmd .displayOff, .configuring⟩, ⟨.cmd .tempComp, .configuring⟩, ⟨.cmd .powerCtrl, .configuring⟩,
       ⟨.cmd .biasRatio, .configuring⟩, ⟨.cmd .pmPrefix, .configuring⟩,
       ⟨.cmd (.pmValue c.pmValue), .configuring⟩, ⟨.cmd .scrollOrigin, .configuring⟩,
       ⟨.cmd .analogA, .configuring⟩, ⟨.cmd .analogB, .configuring⟩, ⟨.cmd .lineCorr, .configuring⟩,
       ⟨.cmd .comEndPrefix, .configuring⟩, ⟨.cmd (.comEndValue c.comEndValue), .configuring⟩,
       ⟨.cmd (scanMirrorOf c.orient), .configuring⟩, ⟨.cmd (ramControlOf c.orient), .configuring⟩,
       ⟨.clearBuf, .configuring⟩, ⟨.cmd .pageAddr0, .cleared⟩, ⟨.cmd .colHi0, .cleared⟩,
       ⟨.cmd .colLo0, .cleared⟩, ⟨.data, .cleared⟩, ⟨.cmd .displayOn, .cleared⟩] := by
  simp [initScript, resetPart, h, configCommands, orientationPair, clearPart, flushKinds, tSettle]

/-- The length of INIT: 26 with a reset line and 22 without (R115 of 41_sequencer_init.md). -/
theorem initScript_length (c : Config) : (initScript c).length = if c.hasRst then 26 else 22 := by
  rcases h : c.hasRst with _ | _
  · rw [initScript_soft h]; rfl
  · rw [initScript_hardware h]; rfl

theorem initScript_length_le (c : Config) : (initScript c).length ≤ 26 := by
  rw [initScript_length]
  split <;> omega

/-- A request script has at most four steps. -/
theorem reqKinds_length_le (r : ReqScript) : (reqKinds r).length ≤ 4 := by
  cases r <;> simp [reqKinds, flushKinds]

theorem scriptSteps_length_le (c : Config) (sc : Script) : (scriptSteps c sc).length ≤ 26 := by
  cases sc with
  | none => simp [scriptSteps]
  | init => exact initScript_length_le c
  | req r => have := reqKinds_length_le r; simp [scriptSteps]; omega

/-- Where INIT's RST steps stand and what they drive (R110 of 41_sequencer_init.md). -/
theorem initScript_rst {c : Config} {k : Nat} {l : Bool} {lab : Phase}
    (h : (initScript c)[k]? = some ⟨.rst l, lab⟩) :
    c.hasRst = true ∧ ((k = 0 ∧ l = c.rstActive) ∨ ((k = 2 ∨ k = 4) ∧ l = !c.rstActive)) := by
  obtain ⟨hk, -⟩ := List.getElem?_eq_some_iff.1 h
  have hk' := Nat.lt_of_lt_of_le hk (initScript_length_le c)
  rcases hr : c.hasRst with _ | _
  · rw [initScript_soft hr] at h
    interval_cases k <;> simp at h
  · rw [initScript_hardware hr] at h
    interval_cases k <;> simp_all

/-- Where INIT's CLEARBUF step stands. -/
theorem initScript_clearBuf {c : Config} {k : Nat} {lab : Phase}
    (h : (initScript c)[k]? = some ⟨.clearBuf, lab⟩) : k = clearBufAt c := by
  obtain ⟨hk, -⟩ := List.getElem?_eq_some_iff.1 h
  have hk' := Nat.lt_of_lt_of_le hk (initScript_length_le c)
  unfold clearBufAt
  rcases hr : c.hasRst with _ | _
  · rw [initScript_soft hr] at h
    interval_cases k <;> simp_all
  · rw [initScript_hardware hr] at h
    interval_cases k <;> simp_all

/-- Where INIT's DATA step stands. -/
theorem initScript_data {c : Config} {k : Nat} {lab : Phase}
    (h : (initScript c)[k]? = some ⟨.data, lab⟩) : k = initDataAt c := by
  obtain ⟨hk, -⟩ := List.getElem?_eq_some_iff.1 h
  have hk' := Nat.lt_of_lt_of_le hk (initScript_length_le c)
  unfold initDataAt
  rcases hr : c.hasRst with _ | _
  · rw [initScript_soft hr] at h
    interval_cases k <;> simp_all
  · rw [initScript_hardware hr] at h
    interval_cases k <;> simp_all

/-- The label after a step of INIT; after the last one the label stays (R107 of
41_sequencer_init.md). -/
theorem initPhaseAt_succ {c : Config} {k : Nat} (hk : k < (initScript c).length) :
    ((initScript c)[k + 1]?.map (·.label)).getD (initPhaseAt c k) = initPhaseAt c (k + 1) := by
  have hk' := Nat.lt_of_lt_of_le hk (initScript_length_le c)
  unfold initPhaseAt
  rw [initScript_length] at hk
  rcases hr : c.hasRst with _ | _
  · rw [initScript_soft hr]
    simp only [hr, Bool.false_eq_true, if_false] at hk
    interval_cases k <;> rfl
  · rw [initScript_hardware hr]
    interval_cases k <;> rfl

/-- INIT runs in the phases RESETTING, CONFIGURING and CLEARED only. -/
theorem initPhaseAt_cases (c : Config) (k : Nat) :
    initPhaseAt c k = .resetting ∨ initPhaseAt c k = .configuring ∨ initPhaseAt c k = .cleared := by
  unfold initPhaseAt
  by_cases hk : k < (initScript c).length
  · have hk' := Nat.lt_of_lt_of_le hk (initScript_length_le c)
    rw [initScript_length] at hk
    rcases hr : c.hasRst with _ | _
    · rw [initScript_soft hr]
      simp only [hr, Bool.false_eq_true, if_false] at hk
      interval_cases k <;> simp
    · rw [initScript_hardware hr]
      interval_cases k <;> simp
  · rw [List.getElem?_eq_none_iff.2 (by omega)]
    simp

/-- The step index does not wrap inside a script (R19 of 10_state.md). -/
theorem seqPtr_succ {s : State} (h : s.seqPtr.toNat < (scriptSteps s.cfg s.script).length) :
    (s.seqPtr + 1).toNat = s.seqPtr.toNat + 1 := by
  have := scriptSteps_length_le s.cfg s.script
  rw [BitVec.toNat_add]
  simp
  omega

/-- A step that is there lies inside the script. -/
theorem seqPtr_lt_of_current {s : State} {st : ScriptStep} (h : currentStep s = some st) :
    s.seqPtr.toNat < (scriptSteps s.cfg s.script).length :=
  (List.getElem?_eq_some_iff.1 h).1

/-- The commands of every script send a byte of the spec's list (R89 of 30_encoding.md). -/
theorem scriptCommand_byte {c : Config} {sc : Script} {k : Nat} {i : Instr} {lab : Phase}
    (h : (scriptSteps c sc)[k]? = some ⟨.cmd i, lab⟩) :
    ∃ b, commandByteOf i = some b ∧ b ∈ commandBytes c := by
  obtain ⟨hk, -⟩ := List.getElem?_eq_some_iff.1 h
  have hk' := Nat.lt_of_lt_of_le hk (scriptSteps_length_le c sc)
  cases sc with
  | none => simp [scriptSteps] at h
  | init =>
    have scan : ∀ o, ∃ b, commandByteOf (scanMirrorOf o) = some b ∧ b ∈ commandBytes c := by
      intro o
      cases o <;> exact ⟨_, rfl, by simp [commandBytes]⟩
    have ram : ∀ o, ∃ b, commandByteOf (ramControlOf o) = some b ∧ b ∈ commandBytes c := by
      intro o
      cases o <;> exact ⟨_, rfl, by simp [commandBytes]⟩
    simp only [scriptSteps] at h
    rcases hr : c.hasRst with _ | _
    · rw [initScript_soft hr] at h
      interval_cases k <;> simp at h <;> obtain ⟨rfl, -⟩ := h <;>
        first
          | exact scan _
          | exact ram _
          | exact ⟨_, rfl, by simp [commandBytes]⟩
    · rw [initScript_hardware hr] at h
      interval_cases k <;> simp at h <;> obtain ⟨rfl, -⟩ := h <;>
        first
          | exact scan _
          | exact ram _
          | exact ⟨_, rfl, by simp [commandBytes]⟩
  | req r =>
    have con : ∀ L : BitVec 3, (0x20#8 ||| L.zeroExtend 8) ∈ commandBytes c := by
      intro L
      have : (0x20#8 ||| L.zeroExtend 8) ∈ ([0x20, 0x21, 0x22, 0x23, 0x24, 0x25, 0x26, 0x27] : List Byte) := by
        revert L
        decide
      simp only [commandBytes, List.mem_cons, List.not_mem_nil, or_false] at this ⊢
      tauto
    cases r with
    | flush =>
      have hk4 : k < 4 := by simpa [scriptSteps, reqKinds, flushKinds] using hk
      simp only [scriptSteps, reqKinds, flushKinds, List.map_cons, List.map_nil] at h
      interval_cases k <;> simp at h <;> obtain ⟨rfl, -⟩ := h <;>
        exact ⟨_, rfl, by simp [commandBytes]⟩
    | powerOn =>
      obtain rfl : k = 0 := by simpa [scriptSteps, reqKinds] using hk
      simp [scriptSteps, reqKinds] at h
      obtain ⟨rfl, -⟩ := h
      exact ⟨_, rfl, by simp [commandBytes]⟩
    | powerOff =>
      obtain rfl : k = 0 := by simpa [scriptSteps, reqKinds] using hk
      simp [scriptSteps, reqKinds] at h
      obtain ⟨rfl, -⟩ := h
      exact ⟨_, rfl, by simp [commandBytes]⟩
    | setContrast L =>
      obtain rfl : k = 0 := by simpa [scriptSteps, reqKinds] using hk
      simp [scriptSteps, reqKinds] at h
      obtain ⟨rfl, -⟩ := h
      exact ⟨_, rfl, con L⟩
    | setInvert f =>
      obtain rfl : k = 0 := by simpa [scriptSteps, reqKinds] using hk
      simp [scriptSteps, reqKinds] at h
      obtain ⟨rfl, -⟩ := h
      exact ⟨_, rfl, by cases f <;> simp [commandBytes, bitByte]⟩

end Sys2Proof.Machine
end

