-- ==== Sys2Proof/Laws/Run.lean ====
section
/-! SUPPORT. Everything one step of an instance can do, as one case list; runs of several steps; request scripts. -/

namespace Sys2Proof.Machine

/-- The steps of a request script are CMD and DATA steps (R121 to R125 of 42_runtime_ops.md). -/
theorem reqKinds_cmd_or_data {r : ReqScript} {k : StepKind} (h : k ∈ reqKinds r) :
    (∃ i, k = .cmd i) ∨ k = .data := by
  cases r with
  | flush =>
    simp only [reqKinds, flushKinds, List.mem_cons, List.not_mem_nil, or_false] at h
    rcases h with rfl | rfl | rfl | rfl
    · exact .inl ⟨_, rfl⟩
    · exact .inl ⟨_, rfl⟩
    · exact .inl ⟨_, rfl⟩
    · exact .inr rfl
  | _ => exact .inl ⟨_, List.mem_singleton.1 h⟩

/-- A RST, DELAY or CLEARBUF step is a step of INIT. -/
theorem script_init_of_current {s : State} {st : ScriptStep} (h : currentStep s = some st)
    (hc : ∀ i, st.kind ≠ .cmd i) (hd : st.kind ≠ .data) : s.script = .init := by
  unfold currentStep at h
  cases hs : s.script with
  | none => simp [hs, scriptSteps] at h
  | init => rfl
  | req r =>
    rw [hs] at h
    have hm := List.mem_of_getElem? h
    simp only [scriptSteps, List.mem_map] at hm
    obtain ⟨k, hk, rfl⟩ := hm
    rcases reqKinds_cmd_or_data hk with ⟨i, rfl⟩ | rfl
    · exact absurd rfl (hc i)
    · exact absurd rfl hd

/-- A state with a step at `seq_ptr` runs a script. -/
theorem script_ne_none_of_current {s : State} {st : ScriptStep} (h : currentStep s = some st) :
    s.script ≠ .none := by
  intro hs
  simp [currentStep, hs, scriptSteps] at h

/-- Sampling the inputs leaves the step at `seq_ptr`. -/
@[simp] theorem currentStep_sample (s : State) : currentStep (sample s) = currentStep s := by
  simp [currentStep]

/-- What a step of an instance does, from the state with its inputs sampled. -/
inductive Took (s t : State) : Prop where
  | blockReset (hr : s.pins.rstN = false) (ht : t = blockReset s)
  | uninit (hr : s.pins.rstN = true) (hp : s.phase = .uninit) (ht : t = uninitStep s)
  | taken (hr : s.pins.rstN = true) (hp : s.phase ≠ .uninit) (hs : s.script = .none) (r : Response)
      (hrsp : s.rsp = some r) (hready : s.pins.rspReady = true) (ht : t = { s with rsp := none })
  | waited (hr : s.pins.rstN = true) (hp : s.phase ≠ .uninit) (hs : s.script = .none) (ht : t = s)
  | answeredFaulted (r : Request) (rest : List Request) (hready : reqReady s = true)
      (ho : s.offered = r :: rest) (hf : s.phase.isFaulted = true)
      (ht : t = respond .faulted 0x00 (latchRequest r rest s))
  | started (r : Request) (rest : List Request) (q : ReqScript) (hready : reqReady s = true)
      (ho : s.offered = r :: rest) (hp : s.phase = .poweredOn)
      (hq : scriptStartedBy (decodeRequest r) = some q) (ht : t = startScript q (latchRequest r rest s))
  | answeredNow (r : Request) (rest : List Request) (st : RspStatus) (d : Byte)
      (hready : reqReady s = true) (ho : s.offered = r :: rest) (hp : s.phase = .poweredOn)
      (hq : scriptStartedBy (decodeRequest r) = none)
      (ht : t = respond st d
        (setFb (fbAfter s.cfg s.fb (decodeRequest r)) (latchRequest r rest s)))
  | rst (l : Bool) (lab : Phase) (hr : s.pins.rstN = true) (hp : s.phase ≠ .uninit)
      (hc : currentStep s = some ⟨.rst l, lab⟩) (ht : t = rstStep l s)
  | delay (ms : Nat) (lab : Phase) (hr : s.pins.rstN = true) (hp : s.phase ≠ .uninit)
      (hc : currentStep s = some ⟨.delay ms, lab⟩) (ht : t = delayStep ms s)
  | cmd (i : Instr) (b : Byte) (lab : Phase) (hr : s.pins.rstN = true) (hp : s.phase ≠ .uninit)
      (hc : currentStep s = some ⟨.cmd i, lab⟩) (hb : commandByteOf i = some b)
      (hm : b ∈ commandBytes s.cfg) (ht : t = emit (cmdTransaction b) (shadowOf i) s)
  | data (lab : Phase) (hr : s.pins.rstN = true) (hp : s.phase ≠ .uninit)
      (hc : currentStep s = some ⟨.data, lab⟩)
      (ht : t = emit (dataTransaction (dataBytes s)) .none s)
  | clearBuf (lab : Phase) (hr : s.pins.rstN = true) (hp : s.phase ≠ .uninit)
      (hc : currentStep s = some ⟨.clearBuf, lab⟩) (ht : t = clearBufStep s)
  | ended (hr : s.pins.rstN = true) (hp : s.phase ≠ .uninit) (hs : s.script ≠ .none)
      (he : s.seqPtr.toNat = (scriptSteps s.cfg s.script).length) (ht : t = endScript s)

/-- The inversion of a step: it did one of the things of `Took`. -/
theorem took_of_sequencerStep {s t : State} (h : sequencerStep s = .next t) : Took s t := by
  rcases sequencerStep_cases s with ⟨hr, e⟩ | ⟨hr, hp, e⟩ | ⟨hr, hp, hs, e⟩ | ⟨hr, hp, hs, e⟩ <;> rw [e] at h
  · injection h with h
    exact .blockReset hr h.symm
  · injection h with h
    exact .uninit hr hp h.symm
  · rcases idleStep_cases s with ⟨r, h1, h2, e⟩ | e | ⟨r, rest, h1, h2, h3, e⟩ <;> rw [e] at h
    · injection h with h
      exact .taken hr hp hs r h1 h2 h.symm
    · injection h with h
      exact .waited hr hp hs h.symm
    · obtain ⟨q, hq⟩ := bundleOf_decodeRequest r
      have hpo : s.phase.isFaulted = false → s.phase = .poweredOn := by
        intro hf
        rcases ((reqReady_iff s).1 h3).2.2.2 with hp | hp | hp
        · exact hp
        · rw [hp] at hf; cases hf
        · rw [hp] at hf; cases hf
      rcases exec_request hq (latchRequest r rest s) with ⟨hf, e⟩ | ⟨hf, sc, hsc, e⟩ | ⟨hf, hsc, st, d, e⟩ <;>
        rw [e] at h <;> injection h with h
      · exact .answeredFaulted r rest h3 h2 (by simpa using hf) h.symm
      · exact .started r rest sc h3 h2 (hpo (by simpa using hf)) hsc h.symm
      · exact .answeredNow r rest st d h3 h2 (hpo (by simpa using hf)) hsc h.symm
  · cases hc : currentStep s with
    | none =>
      unfold runStep at h
      rw [hc] at h
      simp only at h
      split at h
      · injection h with h
        exact .ended hr hp hs ‹_› h.symm
      · cases h
    | some st =>
      rw [runStep_current hc] at h
      obtain ⟨k, lab⟩ := st
      cases k with
      | rst l =>
        injection h with h
        exact .rst l lab hr hp hc h.symm
      | delay ms =>
        injection h with h
        exact .delay ms lab hr hp hc h.symm
      | cmd i =>
        obtain ⟨b, hb, hm⟩ := scriptCommand_byte hc
        have h : exec i s = .next t := h
        rw [exec_command hb] at h
        injection h with h
        exact .cmd i b lab hr hp hc hb hm h.symm
      | data =>
        injection h with h
        exact .data lab hr hp hc h.symm
      | clearBuf =>
        injection h with h
        exact .clearBuf lab hr hp hc h.symm

/-- The inversion of a step of an instance. -/
theorem took_of_step {s t : State} (hc : s.cfg.WF) (h : step s = .next t) : Took (sample s) t := by
  rw [step_instance hc] at h
  exact took_of_sequencerStep h

/-! ## Runs -/

/-- No step leaves the state. -/
theorem run_zero (s : State) : Sys2Proof.core.run 0 s = .next s := rfl

/-- A run is its first step and the rest. -/
theorem run_succ {k : Nat} {s t : State} (h : step s = .next t) :
    Sys2Proof.core.run (k + 1) s = Sys2Proof.core.run k t := by
  have h' : Sys2Proof.core.step s = .next t := h
  simp only [Host.Core.run, h']

/-- Two runs one after the other. -/
theorem run_add {j k : Nat} {s t : State} (h : Sys2Proof.core.run j s = .next t) :
    Sys2Proof.core.run (j + k) s = Sys2Proof.core.run k t := by
  induction j generalizing s with
  | zero =>
    injection h with h
    subst h
    rw [Nat.zero_add]
  | succ j ih =>
    rw [show j + 1 + k = (j + k) + 1 by omega]
    cases hs : step s with
    | next u => rw [run_succ hs] at h ⊢; exact ih h
    | fault f =>
      have h' : Sys2Proof.core.step s = .fault f := hs
      simp only [Host.Core.run, h'] at h
      cases h
    | refused f =>
      have h' : Sys2Proof.core.step s = .refused f := hs
      simp only [Host.Core.run, h'] at h
      cases h

/-- The inputs of a step that has a row to sample. -/
theorem sample_row {s : State} {p : Pins} {rest : List Pins} (h : s.inputs = p :: rest) :
    sample s = { s with pins := p, inputs := rest, offered := s.offered ++ p.req.toList } := by
  simp only [sample, h]

/-- An idle block that accepts a request runs its instruction in that step. -/
theorem step_accept {s : State} {r : Request} {rest : List Request} (hc : s.cfg.WF)
    (ho : (sample s).offered = r :: rest) (hr : reqReady (sample s) = true) :
    step s = exec (decodeRequest r) (latchRequest r rest (sample s)) := by
  obtain ⟨h1, h2, h3, h4⟩ := (reqReady_iff _).1 hr
  have hp : (sample s).phase ≠ .uninit := by
    intro h
    rw [h] at h4
    simp at h4
  rw [step_instance hc, sequencerStep_idle h1 hp h2, idleStep_accept h3 ho hr]

/-- A block that runs a script performs the step at `seq_ptr`. -/
theorem step_script {s : State} {st : ScriptStep} (hc : s.cfg.WF) (hr : (sample s).pins.rstN = true)
    (hp : s.phase ≠ .uninit) (h : currentStep s = some st) :
    step s = performStep st.kind (sample s) := by
  rw [step_instance hc, sequencerStep_script hr (by simpa using hp)
    (by simpa using script_ne_none_of_current h), runStep_current (by simpa using h)]

/-- A block at the end of its script ends it. -/
theorem step_end {s : State} (hc : s.cfg.WF) (hr : (sample s).pins.rstN = true) (hp : s.phase ≠ .uninit)
    (hs : s.script ≠ .none) (he : s.seqPtr.toNat = (scriptSteps s.cfg s.script).length) :
    step s = .next (endScript (sample s)) := by
  rw [step_instance hc, sequencerStep_script hr (by simpa using hp) (by simpa using hs),
    runStep_end (by simpa using he)]

end Sys2Proof.Machine
end

