-- ==== Sys2Proof/Laws/Invariant.lean ====
section
/-! SUPPORT. Facts that follow from the invariant `Inv` (Safety.lean), and what a completed step needs to keep it. -/

namespace Sys2Proof.Machine

/-- A running script has none of the phases UNINIT, FAULT and CONFIG_ERROR. -/
theorem phase_of_scriptOk {s : State} (h : ScriptOk s) (hs : s.script ≠ .none) :
    s.phase ≠ .uninit ∧ s.phase ≠ .fault ∧ s.phase ≠ .configError := by
  unfold ScriptOk at h
  split at h
  · contradiction
  · rw [h.1]
    rcases initPhaseAt_cases s.cfg s.seqPtr.toNat with h | h | h <;> simp [h]
  · simp [h.1]

/-- No response is pending while a script runs. -/
theorem rsp_of_scriptOk {s : State} (h : ScriptOk s) (hs : s.script ≠ .none) : s.rsp = none := by
  unfold ScriptOk at h
  split at h
  · contradiction
  · exact h.2.2
  · exact h.2.2.1

/-- Completing a step keeps the invariant, when the step has left the registers it does not write and its
framebuffer and reset line are as the next step needs them. -/
theorem inv_advance {s s' : State} (hi : Inv s) {st : ScriptStep} (hc : currentStep s = some st)
    (e1 : s'.cfg = s.cfg) (e2 : s'.script = s.script) (e3 : s'.seqPtr = s.seqPtr) (e4 : s'.phase = s.phase)
    (e5 : s'.rsp = s.rsp) (e6 : s'.req = s.req) (e7 : s'.errCode = s.errCode) (e8 : s'.errPhase = s.errPhase)
    (e9 : s'.errStep = s.errStep) (e10 : s'.delaying = false) (e11 : s'.waitCnt = 0) (e12 : s'.tx = none)
    (hfb : FbOk s')
    (hrst : s'.rstOut = s.cfg.rstActive ↔
      s.cfg.hasRst = true ∧ s.script = .init ∧ (s.seqPtr.toNat = 0 ∨ s.seqPtr.toNat = 1))
    (hbl : s.script = .init → clearBufAt s.cfg < s.seqPtr.toNat + 1 → ∀ a, s'.fb.read a = 0x00) :
    Inv (advance s') := by
  have hlt := seqPtr_lt_of_current hc
  have hsucc := seqPtr_succ hlt
  have hsucc' : (s'.seqPtr + 1).toNat = s.seqPtr.toNat + 1 := by rw [e3, hsucc]
  have hsn : s.script ≠ .none := by
    intro h
    rw [h] at hlt
    simp [scriptSteps] at hlt
  obtain ⟨p1, p2, p3⟩ := phase_of_scriptOk hi.script hsn
  have hph : (advance s').phase ≠ .uninit ∧ (advance s').phase ≠ .fault ∧
      (advance s').phase ≠ .configError := by
    have hso := hi.script
    unfold ScriptOk at hso
    simp only [advance_phase, e1, e2, e4, hsucc']
    cases hsc : s.script with
    | none => contradiction
    | init =>
      rw [hsc] at hso hlt
      simp only [scriptSteps] at hlt ⊢
      rw [hso.1, initPhaseAt_succ hlt]
      rcases initPhaseAt_cases s.cfg (s.seqPtr.toNat + 1) with h | h | h <;> simp [h]
    | req r =>
      rw [hsc] at hso
      simp only [scriptSteps, List.getElem?_map]
      rw [hso.1]
      cases (reqKinds r)[s.seqPtr.toNat + 1]? <;> simp
  have herr := hi.err
  constructor
  · simpa [e1] using hi.config
  · simpa [FbOk, e1] using hfb
  · refine ⟨?_, ?_, ?_, ?_⟩
    · constructor
      · intro h
        simp only [advance_errCode, e7] at h
        exact absurd (herr.1.1 h) p2
      · intro h
        exact absurd h hph.2.1
    · constructor
      · intro h
        simp only [advance_errCode, e7] at h
        exact absurd (herr.2.1.1 h) p3
      · intro h
        exact absurd h hph.2.2
    · simpa [e7, e8, e9] using herr.2.2.1
    · intro h
      exact absurd h hph.2.1
  · have hso := hi.script
    unfold ScriptOk at hso ⊢
    simp only [advance_script, e2, advance_seqPtr, advance_phase, advance_cfg, e1, advance_rsp, e5,
      advance_req, e6, hsucc', e4]
    cases hsc : s.script with
    | none => contradiction
    | init =>
      rw [hsc] at hso hlt
      simp only [scriptSteps] at hlt ⊢
      refine ⟨?_, by omega, hso.2.2⟩
      rw [hso.1, initPhaseAt_succ hlt]
    | req r =>
      rw [hsc] at hso hlt
      simp only [scriptSteps, List.length_map] at hlt ⊢
      refine ⟨?_, by omega, hso.2.2.1, hso.2.2.2⟩
      rw [hso.1, List.getElem?_map]
      cases (reqKinds r)[s.seqPtr.toNat + 1]? <;> simp
  · simp [DelayOk, e10, e11]
  · intro f hf
    simp [e12] at hf
  · simp only [RstOk, advance_rstOut, advance_cfg, e1, advance_script, e2, advance_seqPtr, e3]
    rw [hrst]
    have a1 : s.seqPtr.toNat = 0 ↔ s.seqPtr + 1 = 1 := by
      constructor
      · intro h
        apply BitVec.eq_of_toNat_eq
        rw [hsucc, h]
        rfl
      · intro h
        have := congrArg BitVec.toNat h
        rw [hsucc] at this
        simpa using this
    have a2 : s.seqPtr.toNat = 1 ↔ s.seqPtr + 1 = 2 := by
      constructor
      · intro h
        apply BitVec.eq_of_toNat_eq
        rw [hsucc, h]
        rfl
      · intro h
        have := congrArg BitVec.toNat h
        rw [hsucc] at this
        simpa using this
    rw [a1, a2]
  · intro h1 h2
    simp only [advance_script, e2, advance_cfg, e1, advance_seqPtr, hsucc'] at h1 h2
    simpa using hbl h1 h2

/-- The reset line is active right after INIT's first RST step only, told at a step that is no RST step. -/
theorem rst_carry {s : State} (hi : Inv s) {st : ScriptStep} (hc : currentStep s = some st)
    (hk : ∀ l, st.kind ≠ .rst l) :
    s.rstOut = s.cfg.rstActive ↔
      s.cfg.hasRst = true ∧ s.script = .init ∧ (s.seqPtr.toNat = 0 ∨ s.seqPtr.toNat = 1) := by
  have h := hi.rst
  have b1 : s.seqPtr = 1 ↔ s.seqPtr.toNat = 1 := by
    constructor
    · rintro h
      rw [h]
      rfl
    · intro h
      apply BitVec.eq_of_toNat_eq
      rw [h]
      rfl
  have b2 : s.seqPtr = 2 ↔ s.seqPtr.toNat = 2 := by
    constructor
    · rintro h
      rw [h]
      rfl
    · intro h
      apply BitVec.eq_of_toNat_eq
      rw [h]
      rfl
  unfold RstOk at h
  rw [h, b1, b2]
  constructor
  · rintro ⟨h1, h2, h3⟩
    refine ⟨h1, h2, ?_⟩
    rcases h3 with h3 | h3
    · exact .inr h3
    · exfalso
      unfold currentStep at hc
      rw [h2, h3] at hc
      simp only [scriptSteps, initScript_hardware h1] at hc
      simp at hc
      exact hk _ (by rw [← hc])
  · rintro ⟨h1, h2, h3⟩
    refine ⟨h1, h2, ?_⟩
    rcases h3 with h3 | h3
    · exfalso
      unfold currentStep at hc
      rw [h2, h3] at hc
      simp only [scriptSteps, initScript_hardware h1] at hc
      simp at hc
      exact hk _ (by rw [← hc])
    · exact .inl h3

/-- The framebuffer is blank after CLEARBUF, told at a step that is not CLEARBUF. -/
theorem blank_carry {s : State} (hi : Inv s) {st : ScriptStep} (hc : currentStep s = some st)
    (hk : st.kind ≠ .clearBuf) :
    s.script = .init → clearBufAt s.cfg < s.seqPtr.toNat + 1 → ∀ a, s.fb.read a = 0x00 := by
  intro h1 h2
  by_cases h3 : clearBufAt s.cfg < s.seqPtr.toNat
  · exact hi.blank h1 h3
  · exfalso
    have h4 : s.seqPtr.toNat = clearBufAt s.cfg := by omega
    unfold currentStep at hc
    rw [h1, h4] at hc
    simp only [scriptSteps] at hc
    unfold clearBufAt at hc
    rcases hr : s.cfg.hasRst with _ | _
    · rw [initScript_soft hr] at hc
      simp [hr] at hc
      exact hk (by rw [← hc])
    · rw [initScript_hardware hr] at hc
      simp [hr] at hc
      exact hk (by rw [← hc])

/-- Outside a DELAY step the delay counter is at rest. -/
theorem notDelaying {s : State} (hi : Inv s) {st : ScriptStep} (hc : currentStep s = some st)
    (hk : ∀ ms, st.kind ≠ .delay ms) :
    s.delaying = false ∧ s.waitCnt = 0 := by
  have := hi.delay
  unfold DelayOk at this
  split at this
  · obtain ⟨ms, l, h, -⟩ := this
    rw [hc] at h
    cases h
    exact absurd rfl (hk ms)
  · simp_all

/-- The reset line is inactive in a CMD or DATA step. -/
theorem rst_inactive {s : State} (hi : Inv s) {st : ScriptStep} (hc : currentStep s = some st)
    (hk : (∃ i, st.kind = .cmd i) ∨ st.kind = .data) : s.rstOut ≠ s.cfg.rstActive := by
  have h := hi.rst
  unfold RstOk at h
  rw [Ne, h]
  rintro ⟨h1, h2, h3⟩
  unfold currentStep at hc
  rw [h2] at hc
  simp only [scriptSteps, initScript_hardware h1] at hc
  rcases h3 with h3 | h3 <;> rw [h3] at hc <;> simp at hc <;> rw [← hc] at hk <;> simp at hk

/-- An idle block has no delay, no transaction and an inactive reset line. -/
theorem idle_facts {s : State} (hi : Inv s) (hs : s.script = .none) :
    s.delaying = false ∧ s.waitCnt = 0 ∧ s.tx = none ∧ s.rstOut ≠ s.cfg.rstActive := by
  have hcn : currentStep s = none := by
    unfold currentStep
    rw [hs]
    simp [scriptSteps]
  have hd : s.delaying = false ∧ s.waitCnt = 0 := by
    have := hi.delay
    unfold DelayOk at this
    split at this
    · obtain ⟨ms, l, h, -⟩ := this
      rw [hcn] at h
      cases h
    · simp_all
  have htx : s.tx = none := by
    cases htx : s.tx with
    | none => rfl
    | some f =>
      rcases (hi.tx f htx).2 with ⟨i, b, l, h, -⟩ | ⟨l, h, -⟩ <;> rw [hcn] at h <;> simp at h
  refine ⟨hd.1, hd.2, htx, ?_⟩
  have hr := hi.rst
  unfold RstOk at hr
  rw [Ne, hr]
  rintro ⟨h1, h2, h3⟩
  rw [hs] at h2
  cases h2

/-- Sampling the inputs keeps the invariant. -/
theorem inv_sample {s : State} (hi : Inv s) : Inv (sample s) := by
  refine ⟨by simpa using hi.config, by simpa [FbOk] using hi.fb, by simpa [ErrOk] using hi.err,
    by simpa [ScriptOk] using hi.script, ?_, ?_, by simpa [RstOk] using hi.rst, by simpa [BlankOk] using hi.blank⟩
  · have := hi.delay
    unfold DelayOk at this ⊢
    simpa using this
  · have := hi.tx
    unfold TxOk at this ⊢
    simpa using this

end Sys2Proof.Machine
end

