-- ==== Sys2Proof/Laws/PerInstr.lean ====
section
/-! SUPPORT. Per-instruction facts about the encoding, one lemma per constructor of `Instr`. -/

namespace Sys2Proof.Laws.Encodes

/-- An instruction is encoded as a bundle of ten bytes on the request port (R63 of 30_encoding.md) or as one
byte on the transport port (R91), never as both. -/
def Statement (i : Instr) : Prop :=
  (encode i).length = (match channelOf i with
    | .request => 10
    | .command _ => 1) ∧
  (bundleOf i).isSome = !(commandByteOf i).isSome

theorem set (x y : Int) (c : Bool) : Statement (.set x y c) := ⟨rfl, rfl⟩
theorem get (x y : Int) : Statement (.get x y) := ⟨rfl, rfl⟩
theorem fill (c : Bool) : Statement (.fill c) := ⟨rfl, rfl⟩
theorem fillRect (x y w h : Int) (c : Bool) : Statement (.fillRect x y w h c) := ⟨rfl, rfl⟩
theorem flush : Statement (.flush) := ⟨rfl, rfl⟩
theorem powerOn : Statement (.powerOn) := ⟨rfl, rfl⟩
theorem powerOff : Statement (.powerOff) := ⟨rfl, rfl⟩
theorem setContrast (L : BitVec 3) : Statement (.setContrast L) := ⟨rfl, rfl⟩
theorem setInvert (f : Bool) : Statement (.setInvert f) := ⟨rfl, rfl⟩
theorem bufRd (a : Nat) : Statement (.bufRd a) := ⟨rfl, rfl⟩
theorem bufWr (a : Nat) (v : Byte) : Statement (.bufWr a v) := ⟨rfl, rfl⟩
theorem reserved0 : Statement (.reserved0) := ⟨rfl, rfl⟩
theorem reservedC : Statement (.reservedC) := ⟨rfl, rfl⟩
theorem reservedD : Statement (.reservedD) := ⟨rfl, rfl⟩
theorem reservedE : Statement (.reservedE) := ⟨rfl, rfl⟩
theorem reservedF : Statement (.reservedF) := ⟨rfl, rfl⟩
theorem displayOff : Statement (.displayOff) := ⟨rfl, rfl⟩
theorem displayOn : Statement (.displayOn) := ⟨rfl, rfl⟩
theorem softReset : Statement (.softReset) := ⟨rfl, rfl⟩
theorem tempComp : Statement (.tempComp) := ⟨rfl, rfl⟩
theorem powerCtrl : Statement (.powerCtrl) := ⟨rfl, rfl⟩
theorem biasRatio : Statement (.biasRatio) := ⟨rfl, rfl⟩
theorem pmPrefix : Statement (.pmPrefix) := ⟨rfl, rfl⟩
theorem scrollOrigin : Statement (.scrollOrigin) := ⟨rfl, rfl⟩
theorem analogA : Statement (.analogA) := ⟨rfl, rfl⟩
theorem analogB : Statement (.analogB) := ⟨rfl, rfl⟩
theorem lineCorr : Statement (.lineCorr) := ⟨rfl, rfl⟩
theorem comEndPrefix : Statement (.comEndPrefix) := ⟨rfl, rfl⟩
theorem contrast (L : BitVec 3) : Statement (.contrast L) := ⟨rfl, rfl⟩
theorem invert (f : Bool) : Statement (.invert f) := ⟨rfl, rfl⟩
theorem pageAddr0 : Statement (.pageAddr0) := ⟨rfl, rfl⟩
theorem colHi0 : Statement (.colHi0) := ⟨rfl, rfl⟩
theorem colLo0 : Statement (.colLo0) := ⟨rfl, rfl⟩
theorem mapOrient0 : Statement (.mapOrient0) := ⟨rfl, rfl⟩
theorem mapOrient1 : Statement (.mapOrient1) := ⟨rfl, rfl⟩
theorem mapOrient2 : Statement (.mapOrient2) := ⟨rfl, rfl⟩
theorem mapOrient3 : Statement (.mapOrient3) := ⟨rfl, rfl⟩
theorem ramctlOrient02 : Statement (.ramctlOrient02) := ⟨rfl, rfl⟩
theorem ramctlOrient13 : Statement (.ramctlOrient13) := ⟨rfl, rfl⟩
theorem pmValue (v : Byte) : Statement (.pmValue v) := ⟨rfl, rfl⟩
theorem comEndValue (v : Byte) : Statement (.comEndValue v) := ⟨rfl, rfl⟩

end Sys2Proof.Laws.Encodes
end

