-- ==== Sys2Proof/Tests/Slice0.lean ====
section
/-! SUPPORT. The model's own tests: ill-formed terms refused, words written out from the spec's encodings,
vectors of 95_test_vectors.md, and a witness for the hypotheses of every statement. -/

namespace Sys2Proof.Tests

open Sys2Proof.Machine

/-! ## Small machines -/

/-- The panel of the programs of 95_test_vectors.md (`W = 4`, `H = 8`), SPI, with its reset line or not. -/
def tiny (o : Orientation) (rst : Bool) : Config where
  W := 4
  H := 8
  orient := o
  bus := .spi
  i2cAddr := 0x3C
  hasDc := true
  hasCs := true
  hasRst := rst
  pmValue := 0x1D
  comEndValue := 0x3F
  hbitOrder := .msbFirst
  tTick := ⟨2, 0⟩
  rstActive := false
  csActive := false

/-- The same panel over I2C, at the highest legal base address. -/
def tinyI2c (o : Orientation) : Config := { tiny o false with bus := .i2c, i2cAddr := 0x7E }

/-- The panel of the vectors of 95_test_vectors.md (`W = 192`, `H = 64`). -/
def panel (o : Orientation) : Config := { tiny o true with W := 192, H := 64 }

/-- The state at the end of a successful INIT (R158 of 70_reset_and_hazards.md). -/
def ready (c : Config) : State := { State.ofConfig c with phase := .poweredOn, shDisp := some true }

/-- A ready block after a pixel has been set. -/
def drawn (c : Config) : State := { ready c with fb := [(1, 0x08#8)] }

/-- A block in the middle of INIT, at a step with its label. -/
def initAt (c : Config) (k : BitVec 8) (p : Phase) : State :=
  { State.ofConfig c with script := .init, seqPtr := k, phase := p }

/-- A block in FAULT (R141 of 60_exceptions.md). -/
def faulted (c : Config) : State :=
  { State.ofConfig c with phase := .fault, errCode := .transport, errPhase := 4, errStep := 3 }

/-- A row of inputs with an answer. -/
def answering (a : Answer) : Pins := { Pins.quiet with answer := some a }

/-- A block whose adapter answers in this step. -/
def withAnswer (a : Answer) (s : State) : State := { s with pins := answering a }

/-- The next state, if there is one. -/
def nextOf : Host.Outcome State Fault Refusal → Option State
  | .next t => some t
  | .fault _ => none
  | .refused _ => none

/-! ## Well-formedness: one ill-formed term for each check -/

theorem test_wf_set_x_refused : (Instr.set 32768 0 true).wellFormed = false := by decide
theorem test_wf_set_y_refused : (Instr.set 0 (-32769) true).wellFormed = false := by decide
theorem test_wf_get_x_refused : (Instr.get (-32769) 0).wellFormed = false := by decide
theorem test_wf_get_y_refused : (Instr.get 0 32768).wellFormed = false := by decide
theorem test_wf_fillRect_x_refused : (Instr.fillRect 32768 0 1 1 true).wellFormed = false := by decide
theorem test_wf_fillRect_y_refused : (Instr.fillRect 0 32768 1 1 true).wellFormed = false := by decide
theorem test_wf_fillRect_w_refused : (Instr.fillRect 0 0 32768 1 true).wellFormed = false := by decide
theorem test_wf_fillRect_h_refused : (Instr.fillRect 0 0 1 (-32769) true).wellFormed = false := by decide
theorem test_wf_bufRd_refused : (Instr.bufRd 65536).wellFormed = false := by decide
theorem test_wf_bufWr_refused : (Instr.bufWr 65536 0).wellFormed = false := by decide
theorem test_wf_boundaries_accepted :
    (Instr.fillRect (-32768) 32767 (-32768) 32767 true).wellFormed = true ∧
      (Instr.bufRd 65535).wellFormed = true := by decide

theorem test_config_height_not_multiple_of_8 : ¬ Config.WF { tiny .deg0 true with H := 12 } := by decide
theorem test_config_height_below_8 : ¬ Config.WF { tiny .deg0 true with H := 0 } := by decide
theorem test_config_width_0 : ¬ Config.WF { tiny .deg0 true with W := 0 } := by decide
theorem test_config_too_many_bytes : ¬ Config.WF { tiny .deg0 true with W := 65537 } := by decide
theorem test_config_i2c_address : ¬ Config.WF { tinyI2c .deg0 with i2cAddr := 0x7F } := by decide
theorem test_config_i2c_reset_line : ¬ Config.WF { tinyI2c .deg0 with hasRst := true } := by decide
theorem test_config_boundary : Config.WF { tiny .deg0 true with W := 65536 } ∧ (tinyI2c .deg90).WF := by decide

/-! ## Decoding: words written out from R63 and R65 and from the vectors -/

/-- V10, V11 and program 1 of 95_test_vectors.md: SET, with only `d[0]` read. -/
theorem test_decode_set :
    decodeRequest (.ofWord 0x0100000000000900051) = .set 5 9 true ∧
    decodeRequest (.ofWord 0xFE00000000000900051) = .set 5 9 false := by decide

/-- V12: a field of 0xFFFF is -1. -/
theorem test_decode_set_negative :
    decodeRequest (.ofWord 0x0100000000FFFFFFFF1) = .set (-1) (-1) true := by decide

/-- Program 1, lines 4 and 5. -/
theorem test_decode_get :
    decodeRequest (.ofWord 0x0000000000000300012) = .get 1 3 ∧
    decodeRequest (.ofWord 0x0000000000000800002) = .get 0 8 := by decide

/-- V17. -/
theorem test_decode_fill :
    decodeRequest (.ofWord 0x0100000000000000003) = .fill true ∧
    decodeRequest (.ofWord 0x0200000000000000003) = .fill false := by decide

/-- V18, and V19 with its negative corner written out. -/
theorem test_decode_fillRect :
    decodeRequest (.ofWord 0x0100040005000600BE4) = .fillRect 190 6 5 4 true ∧
    decodeRequest (.ofWord 0x0100050005FFFDFFFD4) = .fillRect (-3) (-3) 5 5 true := by decide

/-- Program 1 line 6, V32, program 3 line 5, program 2 line 9. -/
theorem test_decode_flush_power :
    decodeRequest (.ofWord 0x0000000000000000005) = .flush ∧
    decodeRequest (.ofWord 0xFF00000000000012345) = .flush ∧
    decodeRequest (.ofWord 0x0000000000000000006) = .powerOn ∧
    decodeRequest (.ofWord 0x0000000000000000007) = .powerOff := by decide

/-- S6: the level is masked to 3 bits. -/
theorem test_decode_setContrast :
    decodeRequest (.ofWord 0x0900000000000000008) = .setContrast 1 ∧
    decodeRequest (.ofWord 0xFF00000000000000008) = .setContrast 7 := by decide

/-- Program 2 line 8, and V33. -/
theorem test_decode_setInvert :
    decodeRequest (.ofWord 0x0100000000000000009) = .setInvert true ∧
    decodeRequest (.ofWord 0x0200000000000000009) = .setInvert false := by decide

/-- Program 2 line 6, V25, V24 and program 4 line 2. -/
theorem test_decode_bytes :
    decodeRequest (.ofWord 0x000000000000000003A) = .bufRd 3 ∧
    decodeRequest (.ofWord 0x000000000000000FFFFA) = .bufRd 65535 ∧
    decodeRequest (.ofWord 0xA500000000000005FFB) = .bufWr 1535 0xA5 ∧
    decodeRequest (.ofWord 0xF00000000000000000B) = .bufWr 0 0xF0 := by decide

/-- R66 and V30. -/
theorem test_decode_reserved :
    decodeRequest (.ofWord 0x0000000000000000000) = .reserved0 ∧
    decodeRequest (.ofWord 0x000000000000000000C) = .reservedC ∧
    decodeRequest (.ofWord 0x000000000000000000D) = .reservedD ∧
    decodeRequest (.ofWord 0x000000000000000000E) = .reservedE ∧
    decodeRequest (.ofWord 0x000000000000000000F) = .reservedF := by decide

/-- V10's word as ten bytes, the first the least significant; a bit above the bundle and a wrong length are
refused by name. -/
theorem test_decode_bytes_of_bundle :
    (decode .request [0x51, 0x00, 0x90, 0, 0, 0, 0, 0, 0x10, 0x00]).toOption = some (.set 5 9 true) ∧
    (decode .request [0x51, 0x00, 0x90, 0, 0, 0, 0, 0, 0x10, 0x10]).toOption = none ∧
    (decode .request [0x51]).toOption = none := by decide

/-- R68 to R80 and R84 to R86: the bytes of the main stream. -/
theorem test_decode_main_stream :
    ([0xAE, 0xAF, 0xE2, 0x24, 0x2C, 0xEB, 0x81, 0x40, 0x33, 0x2A, 0xC4, 0xF1, 0xB0, 0x10, 0x00] : List Byte).map
        (commandAt .main) =
      [some .displayOff, some .displayOn, some .softReset, some .tempComp, some .powerCtrl, some .biasRatio,
       some .pmPrefix, some .scrollOrigin, some .analogA, some .analogB, some .lineCorr, some .comEndPrefix,
       some .pageAddr0, some .colHi0, some .colLo0] := by decide

/-- R87 and R88: the orientation pair. -/
theorem test_decode_orientation_pair :
    ([0xC4, 0xC0, 0xC2, 0xC6] : List Byte).map (commandAt .scanMirror) =
      [some .mapOrient0, some .mapOrient1, some .mapOrient2, some .mapOrient3] ∧
    ([0x89, 0x8B] : List Byte).map (commandAt .ramControl) =
      [some .ramctlOrient02, some .ramctlOrient13] := by decide

/-- R75, R81, R82 and R83: the bytes known by their place. -/
theorem test_decode_by_place :
    commandAt .pmArg 0xAE = some (.pmValue 0xAE) ∧ commandAt .comEndArg 0x3F = some (.comEndValue 0x3F) ∧
    commandAt .contrast 0x20 = some (.contrast 0) ∧ commandAt .contrast 0x27 = some (.contrast 7) ∧
    commandAt .contrast 0x28 = none ∧ commandAt .invert 0x21 = some (.invert true) ∧
    commandAt .main 0x21 = none ∧ commandAt .scanMirror 0x89 = none := by decide

/-- V41: the command bytes of INIT on the soft path under ORIENT 1 decode to its commands. -/
theorem test_decode_stream :
    (decodeStream .main [0xE2, 0xAE, 0x24, 0x2C, 0xEB, 0x81, 0x1D, 0x40, 0x33, 0x2A, 0xC4, 0xF1, 0x3F, 0xC0, 0x8B,
        0xB0, 0x10, 0x00, 0xAF]).toOption =
      some (initCommands (tinyI2c .deg90)) := by decide

/-- Words of the opcode table as it numbers them (log 15). -/
theorem test_decode_table_words :
    decodeTableWord 8 0x5 = some .flush ∧ decodeTableWord 8 0xF = some .reservedF ∧
    decodeTableWord 8 0xE2 = some .softReset ∧ decodeTableWord 8 0xC6 = some .mapOrient3 ∧
    decodeTableWord 80 0x0100000000000900051 = some (.set 5 9 true) ∧ decodeTableWord 8 0xFF = none := by
  decide

/-! ## The assembler (R92) -/

/-- Lines of V10, V18, V24 and S6 with their words. -/
theorem test_assemble_lines :
    (assembleLine ['S', 'E', 'T', ' ', '5', ',', ' ', '9', ',', ' ', '1']).toOption =
      some (some (.ofWord 0x0100000000000900051)) ∧
    (assembleLine ['B', 'U', 'F', '_', 'W', 'R', ' ', '1', '5', '3', '5', ',', '0', 'x', 'A', '5', ';', 'x']).toOption =
      some (some (.ofWord 0xA500000000000005FFB)) ∧
    (assembleOp .fillRect [190, 6, 5, 4, 1]).toOption = some (.ofWord 0x0100040005000600BE4) ∧
    (assembleOp .setContrast [9]).toOption = some (.ofWord 0x0900000000000000008) := by decide

/-- A value out of range is refused, V11's color among them. -/
theorem test_assemble_refuses :
    (assembleOp .set [5, 9, 0xFE]).toOption = none ∧ (assembleOp .get [32768, 0]).toOption = none ∧
    (assembleOp .bufRd [65536]).toOption = none ∧ (assembleOp .flush [1]).toOption = none := by decide

/-- A leading `-` is allowed for x, y, w and h only. -/
theorem test_assemble_minus :
    (assembleLine ['G', 'E', 'T', ' ', '-', '1', ',', '0']).toOption =
      some (some (.ofWord 0x00FFFF2)) ∧
    (assembleLine ['F', 'I', 'L', 'L', ' ', '-', '0']).toOption = none := by decide

/-! ## The address mapper -/

/-- V1. -/
theorem test_map_vertical :
    [((0 : Int), (0 : Int)), (5, 9), (191, 0), (0, 63), (191, 63), (-1, 0), (192, 0), (0, 64)].map
        (fun q => mapPixel (panel .deg180) q.1 q.2) =
      [some ⟨0, 0⟩, some ⟨197, 1⟩, some ⟨191, 0⟩, some ⟨1344, 7⟩, some ⟨1535, 7⟩, none, none, none] := by
  decide

/-- V2. -/
theorem test_map_horizontal :
    [((0 : Int), (0 : Int)), (7, 0), (8, 0), (63, 0), (5, 9), (63, 191), (64, 0), (0, 192), (-1, 0)].map
        (fun q => mapPixel (panel .deg90) q.1 q.2) =
      [some ⟨0, 7⟩, some ⟨0, 0⟩, some ⟨1, 7⟩, some ⟨7, 0⟩, some ⟨72, 2⟩, some ⟨1535, 0⟩, none, none, none] := by
  decide

/-- V3. -/
theorem test_map_lsb_first :
    [((0 : Int), (0 : Int)), (7, 0), (63, 191)].map
        (fun q => mapPixel { panel .deg270 with hbitOrder := .lsbFirst } q.1 q.2) =
      [some ⟨0, 0⟩, some ⟨0, 7⟩, some ⟨1535, 7⟩] := by
  decide

/-! ## Pixel operations -/

/-- V10. -/
theorem test_set_writes_its_bit :
    (nextOf (exec (.set 5 9 true) (ready (panel .deg0)))).map (·.fb) = some [(197, 0x02#8)] ∧
    (nextOf (exec (.set 5 9 false) { ready (panel .deg0) with fb := [(197, 0x02#8)] })).map (·.fb) = some [] := by
  decide

/-- V14: two pixels share a byte. S11: out of bounds is clipped and answered OK. -/
theorem test_set_keeps_the_other_bits :
    (nextOf (exec (.set 0 0 true) { ready (panel .deg90) with fb := [(0, 0x01#8)] })).map (·.fb) =
      some [(0, 0x81#8)] ∧
    (nextOf (exec (.set 192 0 true) (ready (panel .deg0)))).map (fun t => (t.fb, t.rsp)) =
      some ([], some ⟨.ok, 0x00⟩) := by
  decide

/-- Program 1, lines 4 and 5. -/
theorem test_get_answers :
    (nextOf (exec (.get 1 3) (drawn (tiny .deg0 true)))).map (·.rsp) = some (some ⟨.ok, 0x01⟩) ∧
    (nextOf (exec (.get 0 8) (drawn (tiny .deg0 true)))).map (·.rsp) = some (some ⟨.oob, 0x00⟩) := by
  decide

/-- V17 on the panel of the programs. -/
theorem test_fill_all_bytes :
    (nextOf (exec (.fill true) (drawn (tiny .deg0 true)))).map (·.fb) =
      some [(0, 0xFF#8), (1, 0xFF#8), (2, 0xFF#8), (3, 0xFF#8)] ∧
    (nextOf (exec (.fill false) (drawn (tiny .deg0 true)))).map (·.fb) = some [] := by
  decide

/-- V18: the corner of a rectangle over the right edge and a page boundary. -/
theorem test_fillRect_clipped :
    (nextOf (exec (.fillRect 190 6 5 4 true) (ready (panel .deg0)))).map (·.fb) =
      some [(190, 0xC0#8), (191, 0xC0#8), (382, 0x03#8), (383, 0x03#8)] := by
  decide

/-- V19 and V21: negative corners, and sums that do not wrap. -/
theorem test_fillRect_negative :
    (nextOf (exec (.fillRect (-3) (-3) 5 5 true) (ready (panel .deg0)))).map (·.fb) =
      some [(0, 0x03#8), (1, 0x03#8)] ∧
    (nextOf (exec (.fillRect 32767 0 32767 1 true) (ready (panel .deg0)))).map (fun t => (t.fb, t.rsp)) =
      some ([], some ⟨.ok, 0x00⟩) := by
  decide

/-- Program 2 lines 5 and 6, program 4 line 4. -/
theorem test_bufRd_answers :
    (nextOf (exec (.bufRd 3) { ready (tiny .deg90 false) with fb := [(0, 0x80#8), (3, 0x01#8)] })).map (·.rsp) =
      some (some ⟨.ok, 0x01⟩) ∧
    (nextOf (exec (.bufRd 4) (ready (tiny .deg180 false)))).map (·.rsp) = some (some ⟨.oob, 0x00⟩) := by
  decide

/-- V24 and V25. -/
theorem test_bufWr_writes :
    (nextOf (exec (.bufWr 1535 0xA5) (ready (panel .deg0)))).map (fun t => (t.fb, t.rsp)) =
      some ([(1535, 0xA5#8)], some ⟨.ok, 0x00⟩) ∧
    (nextOf (exec (.bufWr 1536 0x00) (ready (panel .deg0)))).map (·.rsp) = some (some ⟨.oob, 0x00⟩) := by
  decide

/-! ## Requests and phases -/

/-- V30 and V31. -/
theorem test_reserved_answers :
    [Instr.reserved0, .reservedC, .reservedD, .reservedE, .reservedF].map
        (fun i => ((nextOf (exec i (ready (tiny .deg0 true)))).bind (·.rsp),
          (nextOf (exec i (faulted (tiny .deg0 true)))).bind (·.rsp))) =
      List.replicate 5 (some ⟨.illegal, 0x00⟩, some ⟨.faulted, 0x00⟩) := by
  decide

/-- Program 3, lines 4 and 5: a faulted block answers FAULTED and starts no script. -/
theorem test_faulted_block_starts_nothing :
    [Instr.get 0 0, .flush, .powerOn, .powerOff, .setContrast 3, .setInvert true, .set 0 0 true].map
        (fun i => (nextOf (exec i (faulted (tiny .deg0 true)))).map (fun t => (t.rsp, t.script, t.fb))) =
      List.replicate 7 (some (some ⟨.faulted, 0x00⟩, .none, [])) := by
  decide

/-- R121 to R125: the scripts started. -/
theorem test_script_requests :
    [Instr.flush, .powerOn, .powerOff, .setContrast 3, .setInvert false].map
        (fun i => (nextOf (exec i (ready (tiny .deg0 true)))).map (·.script)) =
      [some (.req .flush), some (.req .powerOn), some (.req .powerOff), some (.req (.setContrast 3)),
       some (.req (.setInvert false))] := by
  decide

/-! ## Command instructions -/

/-- R68 to R88: the byte each command sends. -/
theorem test_commands_send_their_bytes :
    [Instr.displayOff, .displayOn, .softReset, .tempComp, .powerCtrl, .biasRatio, .pmPrefix, .scrollOrigin,
        .analogA, .analogB, .lineCorr, .comEndPrefix, .pageAddr0, .colHi0, .colLo0, .mapOrient0, .mapOrient1,
        .mapOrient2, .mapOrient3, .ramctlOrient02, .ramctlOrient13, .pmValue 0x1D, .comEndValue 0x3F].map
        (fun i => (nextOf (exec i (withAnswer .ok (initAt (tiny .deg0 true) 6 .configuring)))).map (·.trace)) =
      ([0xAE, 0xAF, 0xE2, 0x24, 0x2C, 0xEB, 0x81, 0x40, 0x33, 0x2A, 0xC4, 0xF1, 0xB0, 0x10, 0x00, 0xC4, 0xC0,
        0xC2, 0xC6, 0x89, 0x8B, 0x1D, 0x3F] : List Byte).map (fun b => some [.cmd b (some .ok)]) := by
  decide

/-- V34: the bytes of SET_CONTRAST and the status they leave. -/
theorem test_contrast :
    [(0 : BitVec 3), 1, 4, 7].map
        (fun L => (nextOf (exec (.contrast L) (withAnswer .ok (ready (panel .deg0))))).map
          (fun t => (t.trace, status t))) =
      [some ([.cmd 0x20 (some .ok)], 0x01C4), some ([.cmd 0x21 (some .ok)], 0x03C4),
       some ([.cmd 0x24 (some .ok)], 0x09C4), some ([.cmd 0x27 (some .ok)], 0x0FC4)] := by
  decide

/-- V35: 0x21 for both flags. -/
theorem test_invert :
    [false, true].map
        (fun f => (nextOf (exec (.invert f) (withAnswer .ok (ready (panel .deg0))))).map
          (fun t => (t.trace, status t))) =
      [some ([.cmd 0x21 (some .ok)], 0x10C4), some ([.cmd 0x21 (some .ok)], 0x30C4)] := by
  decide

/-- V36: the status after POWER_OFF's command and after POWER_ON's. -/
theorem test_display_shadow :
    (nextOf (exec .displayOff (withAnswer .ok (ready (panel .deg0))))).map status = some 0x0044 ∧
    (nextOf (exec .displayOn (withAnswer .ok (ready (panel .deg0))))).map status = some 0x00C4 := by
  decide

/-- V50: 0xAE answered Err on the hardware path. -/
theorem test_fault_in_init :
    (nextOf (exec .displayOff (withAnswer .err (initAt (panel .deg0) 6 .configuring)))).map
        (fun t => (status t, errInfo t, faultOut t, t.trace)) =
      some (0x0015, 0x0602, true, [.cmd 0xAE (some .err)]) := by
  decide

/-- V53: 0xE2 answered Err on the soft path under ORIENT 2. -/
theorem test_fault_soft_path :
    (nextOf (exec .softReset (withAnswer .err (initAt (tinyI2c .deg180) 0 .configuring)))).map
        (fun t => (status t, errInfo t)) =
      some (0x8015, 0x0002) := by
  decide

/-- The last step of program 3's FLUSH, line 3, with its answer. -/
def flushFailing : State :=
  withAnswer .err
    { ready (tiny .deg0 true) with fb := [(0, 0x01#8)], script := .req .flush, seqPtr := 3, shCon := some 5 }

/-- Program 3, line 3: the data transaction of a FLUSH answered Err. BUSY is set until the response is
taken. -/
theorem test_fault_in_flush :
    (nextOf (performStep .data flushFailing)).map (fun t => (status { t with rsp := none }, errInfo t, t.rsp)) =
      some (0x0015, 0x0304, some ⟨.transportErr, 0x00⟩) ∧
    (nextOf (performStep .data flushFailing)).map (fun t => (t.fb, t.trace)) =
      some ([(0, 0x01#8)],
        [.data [0x01, 0x00, 0x00, 0x00] (some .err), .rsp .transportErr 0x00]) := by
  decide

/-! ## The sequencer -/

/-- V40 and V41: the command bytes of INIT. -/
theorem test_init_bytes :
    (initCommands (panel .deg0)).filterMap commandByteOf =
      [0xAE, 0x24, 0x2C, 0xEB, 0x81, 0x1D, 0x40, 0x33, 0x2A, 0xC4, 0xF1, 0x3F, 0xC4, 0x89, 0xB0, 0x10, 0x00, 0xAF] ∧
    (initCommands (tinyI2c .deg270)).filterMap commandByteOf =
      [0xE2, 0xAE, 0x24, 0x2C, 0xEB, 0x81, 0x1D, 0x40, 0x33, 0x2A, 0xC4, 0xF1, 0x3F, 0xC6, 0x8B, 0xB0, 0x10, 0x00,
       0xAF] := by
  decide

/-- V42: the phase of every step on the hardware path. -/
theorem test_init_labels :
    (initScript (panel .deg0)).map (·.label) =
      List.replicate 5 .resetting ++ List.replicate 16 .configuring ++ List.replicate 5 .cleared := by
  decide

/-- S7 and V56: the UNINIT step of an SPI instance without one of its lines. -/
theorem test_config_error :
    (nextOf (step (State.ofConfig { tiny .deg0 true with hasCs := false }))).map
        (fun t => (status t, errInfo t, faultOut t, t.trace)) = some (0x000E, 0x0000, true, []) ∧
    (nextOf (step (State.ofConfig { tiny .deg270 false with hasDc := false }))).map status = some 0xC00E := by
  decide

/-- R105: with a tick every 3 ms a DELAY of 10 ms loads 5; the counter of R28 has 6 bits. -/
theorem test_delay_loads :
    (nextOf (performStep (.delay 10) (initAt (tiny .deg0 true) 1 .resetting))).map (·.waitCnt) = some 5 ∧
    waitWidth (tiny .deg0 true) = 6 := by
  decide

/-- R104 and V40: the first step of INIT drives the line active. -/
theorem test_rst_step :
    (nextOf (step (initAt (tiny .deg0 true) 0 .resetting))).map
        (fun t => (t.rstOut, lcdRst t, t.seqPtr, t.trace)) = some (false, some false, 1, [.rst false]) := by
  decide

/-- V57: block reset out of FAULT; STATUS is `ORIENT << 14` (R33). -/
theorem test_block_reset :
    (nextOf (step { faulted (tiny .deg90 true) with inputs := [{ Pins.quiet with rstN := false }] })).map
        (fun t => (status t, errInfo t, faultOut t, t.phase)) = some (0x4000, 0x0000, false, .uninit) := by
  decide

/-- R130: only whole transactions are framed. R131 and R132, V41: the two I2C addresses. -/
theorem test_wire :
    wireTrace { ready (tinyI2c .deg90) with
        trace := [.cmd 0xE2 (some .ok), .delay 10, .data [0x01, 0x02] (some .ok), .cmd 0xAE (some .err)] } =
      [.i2cWrite 0x7E [0xE2], .i2cWrite 0x7F [0x01, 0x02]] := by
  decide

/-- R40: the byte presented to the adapter, with its last flag. -/
theorem test_tx_port :
    txOut { ready (tiny .deg0 true) with tx := some ⟨⟨.data, [0x01, 0x02]⟩, 0⟩ } = some (1, 0x01, false) ∧
    txOut { ready (tiny .deg0 true) with tx := some ⟨⟨.data, [0x01, 0x02]⟩, 1⟩ } = some (1, 0x02, true) ∧
    txOut { ready (tiny .deg0 true) with tx := some ⟨⟨.data, [0x01, 0x02]⟩, 2⟩ } = none := by
  decide

/-- R40: a CMD step presents its only byte, which is its last, from the step that offers it on. -/
theorem test_tx_first_byte :
    txOut (initAt (tiny .deg0 true) 6 .configuring) = some (0, 0xAE, true) ∧
    txOut (ready (tiny .deg0 true)) = none := by
  decide

/-- R112: a value byte makes no shadow update of its own. R23: `Cmd(0xAF)` answered Ok writes `sh_disp`. -/
theorem test_value_byte_shadow :
    (([0x3F, 0xAF] : List Byte).map fun v => (nextOf (exec (.pmValue v)
      { withAnswer .ok (initAt (tiny .deg0 true) 11 .configuring) with shDisp := some false })).map (·.shDisp)) =
        [some (some false), some (some true)] := by
  decide

/-- A word placed where the next step fetches is what the next step runs, from reset (log 16). -/
theorem test_fetch_words :
    (nextOf (step (State.reset.withFetchWord 80 0x0000000000000300012))).bind (·.rsp) = some ⟨.ok, 0x00⟩ ∧
    (nextOf (step (State.reset.withFetchWord 8 0xE2))).map (·.trace) = some [.cmd 0xE2 (some .ok)] := by
  decide

/-- Reset leaves a quiet, unready block, which is no good quiescent state (R16, R37). -/
theorem test_reset_outputs :
    status State.reset = 0 ∧ reqReady State.reset = false ∧ goodQuiescent State.reset = false ∧
    goodQuiescent (ready (tiny .deg0 true)) = true := by
  decide

/-! ## Witnesses: states and operands that meet the hypotheses of the statements -/

theorem witness_MapIsABijectionOntoTheBits :
    (panel .deg0).WF ∧ mapPixel (panel .deg0) 191 63 = some ⟨1535, 7⟩ ∧ 1535 < (panel .deg0).N := by decide

/-- One witness for each orientation pair, at the far corner, and for each bit order. -/
theorem witness_MapFollowsThePackingFormulas :
    ((panel .deg0).WF ∧ (panel .deg0).orient = .deg0 ∧ 191 < (panel .deg0).W ∧ 63 < (panel .deg0).H) ∧
    ((panel .deg270).WF ∧ (panel .deg270).orient = .deg270 ∧ 63 < (panel .deg270).H ∧ 191 < (panel .deg270).W ∧
      (panel .deg270).hbitOrder = .msbFirst) ∧
    ({ panel .deg270 with hbitOrder := .lsbFirst } : Config).WF := by decide

theorem witness_SetWritesItsPixelOnly :
    (Request.ofOp 0x1).op = 0x1 ∧
    (drawn (tiny .deg0 true)).cfg.WF ∧ (drawn (tiny .deg0 true)).fb.wf = true ∧
    (drawn (tiny .deg0 true)).phase = .poweredOn ∧ mapPixel (tiny .deg0 true) 3 7 = some ⟨3, 7⟩ ∧
    (∀ p, mapPixel (tiny .deg0 true) 4 7 = some p → 3 ≠ p.index) := by
  refine ⟨rfl, by decide, by decide, by decide, by decide, ?_⟩
  intro p h
  rw [show mapPixel (tiny .deg0 true) 4 7 = none by decide] at h
  cases h

/-- The last column in bounds and the first out of bounds. -/
theorem witness_GetAnswersThePixelOrOob :
    (Request.ofOp 0x2).op = 0x2 ∧
    (drawn (tiny .deg0 true)).phase = .poweredOn ∧ mapPixel (tiny .deg0 true) 3 7 = some ⟨3, 7⟩ ∧
    ¬ InBounds (tiny .deg0 true) 4 0 := by decide

theorem witness_FillSetsEveryByteAndPixel :
    (Request.ofOp 0x3).op = 0x3 ∧
    (drawn (tiny .deg90 true)).cfg.WF ∧ (drawn (tiny .deg90 true)).phase = .poweredOn ∧
    mapPixel (tiny .deg90 true) 7 3 = some ⟨3, 0⟩ := by decide

/-- A rectangle whose last pixel is in bounds, and a byte that holds none of its pixels. -/
theorem witness_FillRectSetsTheClippedRectangle :
    (Request.ofOp 0x4).op = 0x4 ∧
    (drawn (tiny .deg0 true)).cfg.WF ∧ (drawn (tiny .deg0 true)).fb.wf = true ∧
    (drawn (tiny .deg0 true)).phase = .poweredOn ∧ InRect 2 6 5 4 3 7 ∧ ¬ InRect 2 6 5 4 1 7 ∧
    mapPixel (tiny .deg0 true) 3 7 = some ⟨3, 7⟩ ∧
    (∀ px py q, InRect 2 6 5 4 px py → mapPixel (tiny .deg0 true) px py = some q → 0 ≠ q.index) := by
  refine ⟨rfl, by decide, by decide, by decide, by decide, by decide, by decide, ?_⟩
  intro px py q hr hq
  have hb := mapPixel_inBounds hq
  unfold mapPixel at hq
  rw [if_pos hb] at hq
  obtain ⟨h1, h2, h3, h4⟩ := hb
  obtain ⟨r1, r2, r3, r4⟩ := hr
  have h2' : px < 4 := h2
  have h4' : py < 8 := h4
  have hpy : py.toNat = 6 ∨ py.toNat = 7 := by omega
  have hv : isVertical (tiny .deg0 true) = true := rfl
  simp only [hv, if_true, placeVertical, Option.some.injEq] at hq
  subst hq
  simp only
  omega

theorem witness_BufRdAnswersTheByteOrOob :
    (Request.ofOp 0xA).op = 0xA ∧
    (drawn (tiny .deg0 true)).phase = .poweredOn ∧ 3 < (drawn (tiny .deg0 true)).cfg.N ∧
    (drawn (tiny .deg0 true)).cfg.N ≤ 4 := by decide

theorem witness_BufWrWritesItsByteOnly :
    (Request.ofOp 0xB).op = 0xB ∧
    (drawn (tiny .deg0 true)).fb.wf = true ∧ (drawn (tiny .deg0 true)).phase = .poweredOn ∧
    3 < (drawn (tiny .deg0 true)).cfg.N ∧ (drawn (tiny .deg0 true)).cfg.N ≤ 4 := by decide

theorem witness_PixelRoundTripLaws :
    ((drawn (tiny .deg0 true)).cfg.WF ∧ FbOk (drawn (tiny .deg0 true)) ∧
      (drawn (tiny .deg0 true)).phase = .poweredOn) ∧
    InBounds (tiny .deg0 true) 3 7 ∧ ((2 : Int) ≠ 3 ∨ (7 : Int) ≠ 7) ∧
    (∃ t, exec (.bufWr 3 0xFF) (drawn (tiny .deg0 true)) = .next t) :=
  ⟨by decide, by decide, by decide, _, rfl⟩

theorem witness_ByteViewAndPixelViewAgree :
    (drawn (tiny .deg270 true)).cfg.WF ∧ (drawn (tiny .deg270 true)).fb.wf = true ∧
    (drawn (tiny .deg270 true)).phase = .poweredOn ∧ mapPixel (tiny .deg270 true) 7 3 = some ⟨3, 0⟩ := by decide

/-- A rectangle that just covers the panel of the programs, and an empty one. -/
theorem witness_FillRectCornersAreFillAndSet :
    ((drawn (tiny .deg0 true)).cfg.WF ∧ FbOk (drawn (tiny .deg0 true))) ∧
    ((0 : Int) ≤ 0 ∧ (logicalW (tiny .deg0 true) : Int) ≤ 0 + 4 ∧
      (logicalH (tiny .deg0 true) : Int) ≤ 0 + 8) ∧
    ((0 : Int) ≤ 0 ∨ (-1 : Int) ≤ 0) := by decide

/-- Every opcode. -/
theorem witness_OpcodeSelectsTheOperation :
    ([0x0, 0x1, 0x2, 0x3, 0x4, 0x5, 0x6, 0x7, 0x8, 0x9, 0xA, 0xB, 0xC, 0xD, 0xE, 0xF] : List (BitVec 4)).map
        (fun op => (Request.ofOp op).op) =
      [0x0, 0x1, 0x2, 0x3, 0x4, 0x5, 0x6, 0x7, 0x8, 0x9, 0xA, 0xB, 0xC, 0xD, 0xE, 0xF] := by decide

theorem witness_ReservedRequestsAreIllegal :
    (Request.ofOp 0xC).op = 0xC ∧
    Instr.reservedF ∈ [Instr.reserved0, Instr.reservedC, Instr.reservedD, Instr.reservedE, Instr.reservedF] ∧
    (ready (tiny .deg0 true)).phase = .poweredOn ∧ (faulted (tiny .deg0 true)).phase = .fault ∧
    (configErrorEntry (ready (tiny .deg0 true))).phase = .configError := by decide

theorem witness_FaultedPhaseAnswersEveryRequest :
    (faulted (tiny .deg0 true)).phase = .fault ∧ (faulted (tiny .deg0 true)).pins.rstN = true ∧
    (faulted (tiny .deg0 true)).script = .none ∧ (faulted (tiny .deg0 true)).rsp = none ∧
    (configErrorEntry (ready (tiny .deg0 true))).phase = .configError := by decide

theorem witness_ScriptRequestsStartTheirScript : (ready (tiny .deg0 true)).phase = .poweredOn := by decide

theorem witness_CommandAnsweredOkCompletes :
    commandByteOf (.pmValue 0xFF) = some 0xFF ∧
    (withAnswer .ok (initAt (tiny .deg0 true) 11 .configuring)).pins.answer = some .ok := by decide

theorem witness_ShadowCommandsSendTheirBytes :
    (withAnswer .ok (ready (tiny .deg0 true))).pins.answer = some .ok := by decide

theorem witness_TransactionAnsweredErrEntersFault :
    flushFailing.pins.answer = some .err ∧ commandByteOf .displayOn = some 0xAF := by decide

/-- The clauses: nothing outstanding yet, a CMD step and a DATA step that start, and one byte outstanding. -/
theorem witness_UnansweredTransactionIsHeld :
    ((initAt (tiny .deg0 true) 25 .cleared).pins.rstN = true ∧
      (initAt (tiny .deg0 true) 25 .cleared).phase ≠ .uninit ∧
      currentStep (initAt (tiny .deg0 true) 25 .cleared) = some ⟨.cmd .displayOn, .cleared⟩ ∧
      (initAt (tiny .deg0 true) 25 .cleared).pins.answer = none ∧
      (initAt (tiny .deg0 true) 25 .cleared).tx = none) ∧
    (currentStep (initAt (tiny .deg0 true) 24 .cleared) = some ⟨.data, .cleared⟩ ∧ (tiny .deg0 true).WF) ∧
    commandByteOf .displayOn = some 0xAF ∧ (ready (tiny .deg0 true)).pins.answer = none ∧
    (ready (tiny .deg0 true)).tx = none ∧
    ({ ready (tiny .deg0 true) with tx := some ⟨⟨.cmd, [0xAF]⟩, 0⟩ } : State).pins.answer = none ∧
    ({ ready (tiny .deg0 true) with tx := some ⟨⟨.cmd, [0xAF]⟩, 0⟩ } : State).pins.rstN = true ∧
    ([0xAF] : List Byte)[0]? = some 0xAF := by decide

/-- Answered in the step that offers the frame, and after having been held. -/
theorem witness_DataStepSendsTheWholeFrame :
    (∀ f, ({ withAnswer .ok (drawn (tiny .deg0 true)) with
        tx := some ⟨⟨.data, (drawn (tiny .deg0 true)).fb.bytes (tiny .deg0 true).N⟩, 4⟩ } : State).tx = some f →
      f.txn = ⟨.data, (drawn (tiny .deg0 true)).fb.bytes (tiny .deg0 true).N⟩) ∧
    (withAnswer .ok (drawn (tiny .deg0 true))).tx = none ∧
    (withAnswer .ok (drawn (tiny .deg0 true))).pins.answer = some .ok ∧ 3 < (tiny .deg0 true).N := by
  refine ⟨?_, by decide, by decide, by decide⟩
  intro f h
  injection h with h
  exact h ▸ rfl

/-- A ready block to which program 1's `GET 1, 3` is offered. -/
def offeredGet : State :=
  { drawn (tiny .deg0 true) with offered := [.ofWord 0x0000000000000300012] }

theorem witness_StepRunsTheDecodedRequest :
    offeredGet.cfg.WF ∧ decode .request [0x12, 0x00, 0x30, 0, 0, 0, 0, 0, 0, 0] = .ok (.get 1 3) ∧
    (sample offeredGet).offered =
      .ofWord (BitVec.ofNat 76 (natOfBytes [0x12, 0x00, 0x30, 0, 0, 0, 0, 0, 0, 0])) :: [] ∧
    reqReady (sample offeredGet) = true := by
  refine ⟨by decide, rfl, by decide, by decide⟩

/-- INIT at its display-off step, the answer in the next row. -/
def atDisplayOff (a : Answer) : State := { initAt (tiny .deg0 true) 6 .configuring with inputs := [answering a] }

theorem witness_StepRunsTheScriptCommand :
    (atDisplayOff .ok).cfg.WF ∧ (sample (atDisplayOff .ok)).pins.rstN = true ∧
    (atDisplayOff .ok).phase ≠ .uninit ∧
    currentStep (atDisplayOff .ok) = some ⟨.cmd .displayOff, .configuring⟩ := by decide

/-- A ready block, and one that is not ready, with a request offered. -/
theorem witness_RequestIsAcceptedWhenReadyAndHeldOtherwise :
    (offeredGet.cfg.WF ∧ (sample offeredGet).pins.rstN = true ∧
      (sample offeredGet).offered = .ofWord 0x0000000000000300012 :: [] ∧ reqReady (sample offeredGet) = true) ∧
    reqReady (sample { atDisplayOff .ok with offered := [.ofOp 0x5] }) = false ∧
    (∃ t, step { atDisplayOff .ok with offered := [.ofOp 0x5] } = .next t) :=
  ⟨by decide, by decide, _, rfl⟩

/-- A response the host takes in the next row. -/
def responding : State :=
  { ready (tiny .deg0 true) with rsp := some ⟨.ok, 0x01⟩, inputs := [{ Pins.quiet with rspReady := true }] }

theorem witness_ResponseWaitsForTheHost :
    responding.cfg.WF ∧ (sample responding).pins.rstN = true ∧ responding.phase ≠ .uninit ∧
    responding.script = .none ∧ responding.rsp = some ⟨.ok, 0x01⟩ := by decide

/-- Both outcomes of the UNINIT step: a missing line, and a complete instance. -/
theorem witness_UninitStepStartsInitOrReportsConfigError :
    ((State.ofConfig { tiny .deg0 true with hasCs := false }).cfg.WF ∧
      (State.ofConfig { tiny .deg0 true with hasCs := false }).phase = .uninit ∧
      (sample (State.ofConfig { tiny .deg0 true with hasCs := false })).pins.rstN = true) ∧
    ((State.ofConfig (tinyI2c .deg90)).cfg.WF ∧ (State.ofConfig (tinyI2c .deg90)).cfg.bus ≠ .spi) ∧
    ((State.ofConfig (tiny .deg0 true)).cfg.hasDc = true ∧
      (State.ofConfig (tiny .deg0 true)).cfg.hasCs = true) := by decide

/-- A faulted block whose reset is asserted in the next row. -/
def resetting : State := { faulted (tiny .deg90 true) with inputs := [{ Pins.quiet with rstN := false }] }

theorem witness_BlockResetRestoresTheResetValues :
    resetting.cfg.WF ∧ (sample resetting).pins.rstN = false ∧ resetting.cfg.hasRst = true ∧
    3 < (drawn (tiny .deg0 true)).cfg.N := by decide

/-- Both clauses: reset asserted, and a request answered FAULTED. -/
theorem witness_OnlyBlockResetLeavesAFaultedPhase :
    (resetting.cfg.WF ∧ resetting.phase = .fault ∧ resetting.script = .none ∧
      (sample resetting).pins.rstN = false) ∧ (∃ t, step resetting = .next t) ∧
    (sample { faulted (tiny .deg0 true) with offered := [.ofOp 0x5] }).pins.rstN = true ∧
    (∃ t, step { faulted (tiny .deg0 true) with offered := [.ofOp 0x5] } = .next t) :=
  ⟨by decide, ⟨_, rfl⟩, by decide, _, rfl⟩

/-- One record for each clause, at the nearest value outside it. -/
theorem witness_RecordThatIsNoInstanceIsRefused :
    9 % 8 ≠ 0 ∧ 7 < 8 ∧ 0 < 1 ∧
    65536 < ({ tiny .deg0 true with W := 65537 } : Config).P * ({ tiny .deg0 true with W := 65537 } : Config).W ∧
    ({ tinyI2c .deg0 with i2cAddr := 0x7F } : Config).bus = .i2c ∧
    0x7E < ({ tinyI2c .deg0 with i2cAddr := 0x7F } : Config).i2cAddr.toNat ∧
    ({ tinyI2c .deg0 with hasRst := true } : Config).hasRst = true := by decide

/-- INIT in its first DELAY, one tick before its end, and ticking in the next row. -/
def waiting (k : Nat) : State :=
  { initAt (tiny .deg0 true) 1 .resetting with
    delaying := true
    waitCnt := k
    inputs := [{ Pins.quiet with tick := true }] }

theorem witness_DelayStepCountsTicks :
    (initAt (tiny .deg0 true) 1 .resetting).delaying = false ∧
    ((waiting 1).delaying = true ∧ (waiting 1).waitCnt ≠ 0) ∧
    ((waiting 0).delaying = true ∧ (waiting 0).waitCnt = 0) ∧ 0 < 1 ∧ 100 ≤ 100 := by decide

/-- Fewer ticks than the count by one. -/
theorem witness_DelayIsHeldUntilItsTicksHaveCome :
    (waiting 2).cfg.WF ∧ (waiting 2).phase ≠ .uninit ∧
    currentStep (waiting 2) = some ⟨.delay 10, .resetting⟩ ∧ (waiting 2).delaying = true ∧
    (waiting 2).inputs = [{ Pins.quiet with tick := true }] ++ [] ∧
    (∀ p ∈ [{ Pins.quiet with tick := true }], p.rstN = true) ∧
    ([{ Pins.quiet with tick := true }].filter (·.tick)).length < (waiting 2).waitCnt := by decide

theorem witness_TickOutsideADelayIsIgnored :
    (atDisplayOff .ok).cfg.WF ∧ (atDisplayOff .ok).inputs = answering .ok :: [] ∧
    (∀ ms l, currentStep (atDisplayOff .ok) ≠ some ⟨.delay ms, l⟩) ∧
    (∃ t, step { atDisplayOff .ok with inputs := [{ answering .ok with tick := true }] } = .next t) ∧
    (∃ u, step { atDisplayOff .ok with inputs := [{ answering .ok with tick := false }] } = .next u) := by
  refine ⟨by decide, by decide, ?_, ⟨_, rfl⟩, ⟨_, rfl⟩⟩
  intro ms l h
  rw [show currentStep (atDisplayOff .ok) = some ⟨.cmd .displayOff, .configuring⟩ by decide] at h
  cases h

/-- An idle block to which a request is offered, with rows of inputs. -/
def offering (op : BitVec 4) (rows : List Pins) : State :=
  { ready (tiny .deg0 true) with offered := [.ofOp op], inputs := rows }

theorem idleWith_offering (op : BitVec 4) (rows : List Pins) :
    IdleWith (offering op rows) (.ofOp op) [] where
  config := by show (tiny .deg0 true).WF; decide
  phase := rfl
  script := rfl
  seqPtr := rfl
  rsp := rfl
  tx := rfl
  offered := rfl

/-- The command answered Ok in the second row, and the command answered Err there. -/
theorem witness_PowerOnRequestRuns :
    IdleWith (offering 0x6 [.quiet, answering .ok, .quiet]) (.ofOp 0x6) [] ∧
    (offering 0x6 [.quiet, answering .ok, .quiet]).inputs = .quiet :: answering .ok :: .quiet :: [] ∧
    (offering 0x6 [.quiet, answering .err]).inputs = .quiet :: answering .err :: [] ∧
    Pins.quiet.rstN = true ∧ (answering .ok).rstN = true ∧ (answering .err).rstN = true ∧
    (Request.ofOp 0x6).op = 0x6 ∧
    (answering .ok).answer = some .ok ∧ (answering .err).answer = some .err :=
  ⟨idleWith_offering _ _, by decide⟩

theorem witness_PowerOffRequestRuns :
    IdleWith (offering 0x7 [.quiet, answering .ok, .quiet]) (.ofOp 0x7) [] ∧
    (offering 0x7 [.quiet, answering .ok, .quiet]).inputs = .quiet :: answering .ok :: .quiet :: [] ∧
    (offering 0x7 [.quiet, answering .err]).inputs = .quiet :: answering .err :: [] ∧
    Pins.quiet.rstN = true ∧ (answering .ok).rstN = true ∧ (answering .err).rstN = true ∧
    (Request.ofOp 0x7).op = 0x7 ∧ (answering .ok).answer = some .ok ∧
    (answering .err).answer = some .err :=
  ⟨idleWith_offering _ _, by decide⟩

theorem witness_SetContrastRequestRuns :
    IdleWith (offering 0x8 [.quiet, answering .ok, .quiet]) (.ofOp 0x8) [] ∧
    (offering 0x8 [.quiet, answering .ok, .quiet]).inputs = .quiet :: answering .ok :: .quiet :: [] ∧
    (offering 0x8 [.quiet, answering .err]).inputs = .quiet :: answering .err :: [] ∧
    Pins.quiet.rstN = true ∧ (answering .ok).rstN = true ∧ (answering .err).rstN = true ∧
    (Request.ofOp 0x8).op = 0x8 ∧ (⟨0x8, 0, 0, 0, 0, 0xFF⟩ : Request).op = 0x8 ∧
    (answering .ok).answer = some .ok ∧ (answering .err).answer = some .err :=
  ⟨idleWith_offering _ _, by decide⟩

theorem witness_SetInvertRequestRuns :
    IdleWith (offering 0x9 [.quiet, answering .ok, .quiet]) (.ofOp 0x9) [] ∧
    (offering 0x9 [.quiet, answering .ok, .quiet]).inputs = .quiet :: answering .ok :: .quiet :: [] ∧
    (offering 0x9 [.quiet, answering .err]).inputs = .quiet :: answering .err :: [] ∧
    Pins.quiet.rstN = true ∧ (answering .ok).rstN = true ∧ (answering .err).rstN = true ∧
    (Request.ofOp 0x9).op = 0x9 ∧ (⟨0x9, 0, 0, 0, 0, 1⟩ : Request).op = 0x9 ∧
    (answering .ok).answer = some .ok ∧ (answering .err).answer = some .err :=
  ⟨idleWith_offering _ _, by decide⟩

/-- Six rows with every transaction answered Ok, and the last one answered Err in the fifth of five. -/
theorem witness_FlushRequestRuns :
    IdleWith (offering 0x5 (List.replicate 6 (answering .ok))) (.ofOp 0x5) [] ∧
    (Request.ofOp 0x5).op = 0x5 ∧
    (offering 0x5 (List.replicate 6 (answering .ok))).inputs = List.replicate 6 (answering .ok) ++ [] ∧
    (∀ p ∈ List.replicate 6 (answering .ok), p.rstN = true) ∧
    (List.replicate 6 (answering .ok)).length = 6 ∧
    (∀ k, 1 ≤ k → k ≤ 4 → (List.replicate 6 (answering .ok))[k]? = some (answering .ok)) ∧
    (List.replicate 4 (answering .ok) ++ [answering .err]).length = 3 + 2 ∧
    (List.replicate 4 (answering .ok) ++ [answering .err])[3 + 1]? = some (answering .err) := by
  refine ⟨idleWith_offering _ _, by decide, by decide, by decide, by decide, ?_, by decide, by decide⟩
  intro k h1 h2
  interval_cases k <;> decide

/-- A friendly row for each step, on both reset paths. -/
theorem witness_InitReachesPoweredOn :
    ((tiny .deg0 true).WF ∧ hasRequiredPins (tiny .deg0 true) = true) ∧
    ((tinyI2c .deg90).WF ∧ hasRequiredPins (tinyI2c .deg90) = true) ∧
    (∀ n, Friendly (List.replicate n { answering .ok with tick := true })) ∧
    (∀ c, (List.replicate (initSteps c) { answering .ok with tick := true }).length = initSteps c) := by
  refine ⟨by decide, by decide, ?_, fun c => List.length_replicate⟩
  intro n p h
  rw [List.eq_of_mem_replicate h]
  decide

/-! Witnesses of the invariant: a ready block, and INIT at its last step after the blank frame. -/

theorem inv_ready : Inv (ready (tiny .deg0 true)) where
  config := by decide
  fb := by decide
  err := by decide
  script := ⟨.inr (.inl rfl), rfl, fun _ => rfl⟩
  delay := rfl
  tx := by intro f h; cases h
  rst := by decide
  blank := by intro h; cases h

/-- The inputs to come are no part of the invariant. -/
theorem inv_inputs {s : State} (h : Inv s) (rows : List Pins) : Inv { s with inputs := rows } :=
  ⟨h.config, h.fb, h.err, h.script, h.delay, h.tx, h.rst, h.blank⟩

/-- INIT at its display-on step, after the blank frame, the answer in the next row. -/
def atDisplayOn (a : Answer) : State :=
  { initAt (tiny .deg0 true) 25 .cleared with
    shDisp := some false
    trace := [blankFrame (tiny .deg0 true)]
    inputs := [answering a] }

theorem inv_atDisplayOn (a : Answer) : Inv (atDisplayOn a) where
  config := by show (tiny .deg0 true).WF; decide
  fb := ⟨rfl, rfl⟩
  err := by
    have h : ErrOk (atDisplayOn .ok) := by decide
    cases a <;> exact h
  script := by cases a <;> exact ⟨by decide, by decide, rfl⟩
  delay := rfl
  tx := by intro f h; cases h
  rst := by cases a <;> decide
  blank := fun _ _ _ => rfl

theorem blankBeforeOn_atDisplayOn (a : Answer) : BlankBeforeOn 0 (atDisplayOn a) := by
  refine ⟨Nat.zero_le _, ?_, fun _ => List.mem_singleton.2 rfl⟩
  intro before e after h he
  have hmem : e ∈ [blankFrame (tiny .deg0 true)] := by
    have h' : [blankFrame (tiny .deg0 true)] = before ++ e :: after := h
    rw [h']
    simp
  rw [List.mem_singleton.1 hmem] at he
  cases he

/-- The display-on of an INIT, and the block reset of that INIT. -/
def resetAtDisplayOn : State :=
  { atDisplayOn .ok with inputs := [{ answering .ok with rstN := false }] }

theorem witness_DisplayOnFollowsABlankFrame :
    (∃ t, Inv (atDisplayOn .ok) ∧ (atDisplayOn .ok).cfg.pmValue ≠ 0xAF ∧
      (atDisplayOn .ok).cfg.comEndValue ≠ 0xAF ∧ BlankBeforeOn 0 (atDisplayOn .ok) ∧
      step (atDisplayOn .ok) = .next t) ∧
    (∃ t, Inv resetAtDisplayOn ∧ BlankBeforeOn 0 resetAtDisplayOn ∧
      (sample resetAtDisplayOn).pins.rstN = false ∧ step resetAtDisplayOn = .next t) :=
  ⟨⟨_, inv_atDisplayOn .ok, by decide, by decide, blankBeforeOn_atDisplayOn .ok, rfl⟩,
    _, inv_inputs (inv_atDisplayOn .ok) _, blankBeforeOn_atDisplayOn .ok, by decide, rfl⟩

theorem inv_atDisplayOff (a : Answer) : Inv (atDisplayOff a) where
  config := by show (tiny .deg0 true).WF; decide
  fb := ⟨rfl, rfl⟩
  err := by
    have h : ErrOk (atDisplayOff .ok) := by decide
    cases a <;> exact h
  script := by cases a <;> exact ⟨by decide, by decide, rfl⟩
  delay := rfl
  tx := by intro f h; cases h
  rst := by cases a <;> decide
  blank := fun _ _ _ => rfl

/-- The clauses: the commands answered Ok, the fault entered, and reset asserted. -/
theorem witness_DisplayShadowIsWrittenOnlyByItsCommands :
    (Inv (atDisplayOff .ok) ∧ Inv (atDisplayOn .err) ∧ Inv resetAtDisplayOn) ∧
    ((atDisplayOff .ok).phase ≠ .uninit ∧ (sample (atDisplayOff .ok)).pins.rstN = true ∧
      (sample (atDisplayOff .ok)).pins.answer = some .ok ∧
      currentStep (atDisplayOff .ok) = some ⟨.cmd .displayOff, .configuring⟩) ∧
    currentStep (atDisplayOn .ok) = some ⟨.cmd .displayOn, .cleared⟩ ∧
    (commandByteOf .displayOn = some 0xAF ∧ commandByteOf .displayOff = some 0xAE) ∧
    (nextOf (step (atDisplayOff .ok))).map (·.shDisp) = some (some false) ∧
    (nextOf (step (atDisplayOn .ok))).map (·.shDisp) = some (some true) ∧
    (nextOf (step (atDisplayOn .err))).map (fun t => (t.phase, t.shDisp)) = some (.fault, none) ∧
    (sample resetAtDisplayOn).pins.rstN = false ∧ (∃ t, step resetAtDisplayOn = .next t) :=
  ⟨⟨inv_atDisplayOff .ok, inv_atDisplayOn .err, inv_inputs (inv_atDisplayOn .ok) _⟩, by decide, by decide, by decide,
    by decide, by decide, by decide, by decide, _, rfl⟩

/-- A block that performs `FILL 1` changes its framebuffer. -/
theorem witness_FramebufferIsWrittenOnlyByItsOperations :
    ({ drawn (tiny .deg0 true) with offered := [⟨0x3, 0, 0, 0, 0, 1⟩] } : State).cfg.WF ∧
    (sample { drawn (tiny .deg0 true) with offered := [⟨0x3, 0, 0, 0, 0, 1⟩] }).pins.rstN = true ∧
    (∃ t, step { drawn (tiny .deg0 true) with offered := [⟨0x3, 0, 0, 0, 0, 1⟩] } = .next t ∧
      t.fb ≠ (drawn (tiny .deg0 true)).fb) :=
  ⟨by decide, by decide, _, rfl, by decide⟩

theorem witness_OnlyTheListedBytesAreSent :
    ∃ t, Inv (atDisplayOn .ok) ∧ step (atDisplayOn .ok) = .next t ∧
      t.trace = (atDisplayOn .ok).trace ++ [.cmd 0xAF (some .ok)] :=
  ⟨_, inv_atDisplayOn .ok, rfl, rfl⟩

/-- Reset asserted, and the first RST step. -/
theorem witness_ResetLineChangesOnlyInRstSteps :
    ((sample resetting).pins.rstN = false ∧ ∃ t, step resetting = .next t) ∧
    (initAt (tiny .deg0 true) 0 .resetting).cfg.WF ∧
    (sample (initAt (tiny .deg0 true) 0 .resetting)).pins.rstN = true ∧
    (∃ t, step (initAt (tiny .deg0 true) 0 .resetting) = .next t ∧
      t.rstOut ≠ (initAt (tiny .deg0 true) 0 .resetting).rstOut) :=
  ⟨⟨by decide, _, rfl⟩, by decide, by decide, _, rfl, by decide⟩

theorem witness_PhaseFollowsTheStateMachine :
    ∃ t, Inv (atDisplayOn .err) ∧ step (atDisplayOn .err) = .next t ∧ t.phase ≠ (atDisplayOn .err).phase :=
  ⟨_, inv_atDisplayOn .err, rfl, by decide⟩

theorem witness_StepKeepsTheInvariant :
    ∃ t, Inv (atDisplayOn .ok) ∧ step (atDisplayOn .ok) = .next t :=
  ⟨_, inv_atDisplayOn .ok, rfl⟩

theorem witness_ResetMeetsTheInvariant : (tiny .deg0 true).WF ∧ (tinyI2c .deg90).WF := by decide

theorem witness_StepNeverStopsUnderTheInvariant : Inv (ready (tiny .deg0 true)) := inv_ready

theorem witness_CanonicalMemoryIsUnique :
    (Mem.wf [(1, 0x08#8)] = true ∧ (∀ a, Mem.read [(1, 0x08#8)] a = Mem.read [(1, 0x08#8)] a)) ∧
    ((drawn (tiny .deg0 true)).cfg.WF ∧ FbOk (drawn (tiny .deg0 true))) ∧
    (∃ t, exec (decodeRequest ⟨0x3, 0, 0, 0, 0, 1⟩) (drawn (tiny .deg0 true)) = .next t) :=
  ⟨⟨by decide, fun _ => rfl⟩, by decide, _, rfl⟩

theorem witness_DecodeOfEncodeIsTheInstruction :
    (Instr.fillRect (-32768) 32767 (-32768) 32767 true).wellFormed = true ∧
    Instr.fillRect (-32768) 32767 (-32768) 32767 true ≠ .invert false ∧
    (Instr.bufWr 65535 0xFF).wellFormed = true ∧ (Instr.invert true).wellFormed = true ∧
    Instr.invert true ≠ .invert false := by decide

/-- The last bit of every field. -/
theorem witness_BundlePacksItsFields : 3 < 4 ∧ 15 < 16 ∧ 7 < 8 := by decide

/-- The ranges of the operands, at their ends and just outside. -/
theorem witness_AssemblerEncodesItsOperands :
    (InCoordRange (-32768) ∧ InCoordRange 32767 ∧ (0 : Int) ≤ 1 ∧ (1 : Int) ≤ 1) ∧
    ¬ (InCoordRange (-32769) ∧ InCoordRange 0) ∧ ¬ ((0 : Int) ≤ 2 ∧ (2 : Int) ≤ 1) ∧
    ((0 : Int) ≤ 255 ∧ (255 : Int) ≤ 255) ∧ ¬ ((0 : Int) ≤ 256 ∧ (256 : Int) ≤ 255) ∧
    ((0 : Int) ≤ 65535 ∧ (65535 : Int) ≤ 65535) ∧ ¬ ((0 : Int) ≤ -1 ∧ (-1 : Int) ≤ 65535) ∧
    ¬ ((0 : Int) ≤ 65536 ∧ (65536 : Int) ≤ 65535) := by decide

/-- A block reset in the middle of a frame, of a command, and with nothing outstanding. -/
theorem witness_BlockResetKeepsTheEnvironmentAndTheTrace :
    (resetting.cfg.WF ∧ (sample resetting).pins.rstN = false ∧ resetting.tx = none) ∧
    ({ resetting with tx := some ⟨⟨.cmd, [0xAF]⟩, 1⟩ } : State).tx = some ⟨⟨.cmd, [0xAF]⟩, 1⟩ ∧
    ({ resetting with tx := some ⟨⟨.data, [0x01, 0x02]⟩, 1⟩ } : State).tx = some ⟨⟨.data, [0x01, 0x02]⟩, 1⟩ := by
  decide

/-- The parts of `SET 5, 9,1`, a comment, a line of blanks, and a line that assembles. -/
theorem witness_AssemblerReadsALine :
    (['5'] ≠ [] ∧ (∀ c ∈ ['5'], isBlank c = false ∧ c ≠ ',' ∧ c ≠ ';') ∧
      (∀ q ∈ [([' '], ['9']), ([], ['1'])], q.2 ≠ [] ∧ (∀ c ∈ q.1, isBlank c = true) ∧
        ∀ c ∈ q.2, isBlank c = false ∧ c ≠ ',' ∧ c ≠ ';')) ∧
    ';' ∉ ['F', 'L', 'U', 'S', 'H'] ∧ (∀ c ∈ [' ', '\t'], isBlank c = true) ∧
    (assembleLine ['F', 'L', 'U', 'S', 'H']).toOption = some (some (.ofOp 0x5)) := by
  refine ⟨⟨by simp, by simp [isBlank], by simp [isBlank]⟩, by simp, by simp [isBlank], rfl⟩

/-- One instance of each bus, I2C at the highest base address. -/
theorem witness_AdapterFramesEveryTransaction :
    ((tinyI2c .deg90).WF ∧ (tinyI2c .deg90).bus = .i2c ∧ (tinyI2c .deg90).i2cAddr = 0x7E) ∧
    ((tiny .deg0 true).WF ∧ (tiny .deg0 true).bus = .spi) := by decide

end Sys2Proof.Tests
end

/-! # Scope (00_scope.md): which records are refused -/

namespace Sys2Proof.Machine

/-! ## Only `step` itself refuses: below it every step answers a next state or faults -/

theorem exec_ne_refused (i : Instr) (s : State) (e : Refusal) : exec i s ≠ .refused e := by
  obtain ⟨t, ht⟩ := exec_answers_next i s
  simp [ht]

theorem performStep_ne_refused (k : StepKind) (s : State) (e : Refusal) : performStep k s ≠ .refused e := by
  cases k with
  | cmd i => exact exec_ne_refused i s e
  | rst | delay | data | clearBuf => simp [performStep]

theorem runStep_ne_refused (s : State) (e : Refusal) : runStep s ≠ .refused e := by
  cases hc : currentStep s with
  | some st =>
    rw [runStep_current hc]
    exact performStep_ne_refused st.kind s e
  | none =>
    simp only [runStep, hc]
    split <;> simp

theorem idleStep_ne_refused (s : State) (e : Refusal) : idleStep s ≠ .refused e := by
  obtain ⟨_, _, _, hstep⟩ | hstep | ⟨r, rest, _, _, _, hstep⟩ := idleStep_cases s <;> rw [hstep]
  · simp
  · simp
  · exact exec_ne_refused _ _ e

theorem sequencerStep_ne_refused (s : State) (e : Refusal) : sequencerStep s ≠ .refused e := by
  obtain ⟨_, hstep⟩ | ⟨_, _, hstep⟩ | ⟨_, _, _, hstep⟩ | ⟨_, _, _, hstep⟩ := sequencerStep_cases s <;>
    rw [hstep]
  · simp
  · simp
  · exact idleStep_ne_refused s e
  · exact runStep_ne_refused s e

/-! ## The refusal is exactly that of the records that are no instance -/

theorem step_of_not_wf {s : State} (h : ¬ s.cfg.WF) : step s = .refused .notAnInstance := by
  simp only [step, if_neg h]

theorem step_refused_iff (s : State) : step s = .refused .notAnInstance ↔ ¬ s.cfg.WF := by
  refine ⟨fun h hwf => ?_, step_of_not_wf⟩
  rw [step_instance hwf] at h
  exact sequencerStep_ne_refused _ _ h

/-- The negation of R13's conditions, one clause for each. -/
theorem Config.not_wf_iff (c : Config) :
    ¬ c.WF ↔
      (c.H % 8 ≠ 0 ∨ c.H < 8 ∨ c.W < 1 ∨ 65536 < c.P * c.W ∨
        (c.bus = .i2c ∧ (0x7E < c.i2cAddr.toNat ∨ c.hasRst = true))) := by
  simp only [Config.WF, Config.N, BitVec.le_def, not_and_or, Classical.not_imp, not_le, Bool.not_eq_false,
    BitVec.reduceToNat, ne_eq]

/-- Settles O28: a step is refused exactly when the record fails `Config.WF`, because nothing below `step`
refuses; then `Config.WF` is negated clause by clause. -/
theorem recordThatIsNoInstanceIsRefused : Obligations.RecordThatIsNoInstanceIsRefused := by
  intro s
  rw [step_refused_iff, Config.not_wf_iff]

end Sys2Proof.Machine

/-! # The state of the block (10_state.md): the invariant, the display shadow, the status outputs -/

namespace Sys2Proof.Machine

/-! ## What is at rest between two steps -/

/-- Nothing is in progress: no DELAY step, no transaction, `seq_ptr` at 0 and the reset line inactive. -/
structure AtRest (s : State) : Prop where
  delaying : s.delaying = false
  waitCnt : s.waitCnt = 0
  tx : s.tx = none
  seqPtr : s.seqPtr = 0
  rstOut : s.rstOut ≠ s.cfg.rstActive

/-- A block at rest meets the parts of the invariant that speak of a step in progress. -/
theorem inv_of_atRest {s : State} (hr : AtRest s) (hc : s.cfg.WF) (hfb : FbOk s) (he : ErrOk s)
    (hs : ScriptOk s) : Inv s where
  config := hc
  fb := hfb
  err := he
  script := hs
  delay := by simp [DelayOk, hr.delaying, hr.waitCnt]
  tx := by simp [TxOk, hr.tx]
  rst := by simp [RstOk, hr.rstOut, hr.seqPtr]
  blank := by simp [BlankOk, hr.seqPtr]

/-- An idle block is at rest. -/
theorem atRest_of_idle {s : State} (hi : Inv s) (hs : s.script = .none) : AtRest s := by
  obtain ⟨hd, hw, htx, hr⟩ := idle_facts hi hs
  have hso := hi.script
  simp only [ScriptOk, hs] at hso
  exact ⟨hd, hw, htx, hso.2.1, hr⟩

/-- No script runs in UNINIT. -/
theorem script_none_of_uninit {s : State} (h : ScriptOk s) (hp : s.phase = .uninit) : s.script = .none :=
  by_contra fun hs => (phase_of_scriptOk h hs).1 hp

/-- The faulted phases (R35 of 10_state.md). -/
theorem Phase.isFaulted_iff (p : Phase) : p.isFaulted = true ↔ p = .fault ∨ p = .configError := by
  cases p <;> simp [Phase.isFaulted]

/-- The error registers stay right when the phase moves among those that are not faulted. -/
theorem errOk_of_not_faulted {s t : State} (h : ErrOk s) (hs : s.phase.isFaulted = false)
    (ht : t.phase.isFaulted = false) (e1 : t.errCode = s.errCode) (e2 : t.errPhase = s.errPhase)
    (e3 : t.errStep = s.errStep) : ErrOk t := by
  obtain ⟨htr, hcf, hreg, -⟩ := h
  rw [Bool.eq_false_iff, Ne, Phase.isFaulted_iff, not_or] at hs ht
  simp only [ErrOk, e1, e2, e3, htr, hcf, hs, ht]
  simpa [htr, hs] using hreg

/-! ## The invariant across the steps of an idle block -/

theorem inv_blockReset {s : State} (hc : s.cfg.WF) : Inv (blockReset s) :=
  inv_of_atRest ⟨rfl, rfl, rfl, rfl, by simp⟩ hc ⟨rfl, rfl⟩ (by simp [ErrOk]) (by simp [ScriptOk])

theorem initLabel_eq_initPhaseAt (c : Config) : initLabel c = initPhaseAt c 0 := by
  cases h : c.hasRst with
  | false => simp [initLabel, initPhaseAt, initScript_soft h]
  | true => simp [initLabel, initPhaseAt, initScript_hardware h]

theorem initPhaseAt_not_faulted (c : Config) (k : Nat) : (initPhaseAt c k).isFaulted = false := by
  rcases initPhaseAt_cases c k with h | h | h <;> rw [h] <;> rfl

/-- The UNINIT step keeps the invariant: INIT starts at its first label, or CONFIG_ERROR is entered. -/
theorem inv_uninitStep {s : State} (hi : Inv s) (hp : s.phase = .uninit) : Inv (uninitStep s) := by
  have hs := script_none_of_uninit hi.script hp
  obtain ⟨hd, hw, htx, hq, hr⟩ := atRest_of_idle hi hs
  unfold uninitStep
  split
  · refine inv_of_atRest ⟨hd, hw, htx, rfl, hr⟩ hi.config hi.fb ?_ ?_
    · exact errOk_of_not_faulted hi.err (by rw [hp]; rfl)
        (by rw [initLabel_eq_initPhaseAt]; exact initPhaseAt_not_faulted ..) rfl rfl rfl
    · have hso := hi.script
      simp only [ScriptOk, hs] at hso
      simp only [ScriptOk]
      exact ⟨initLabel_eq_initPhaseAt _, by simp, hso.2.2 hp⟩
  · refine inv_of_atRest ⟨hd, hw, htx, hq, hr⟩ hi.config hi.fb ?_ (by simp [ScriptOk, hs, hq])
    obtain ⟨htr, -, hreg, -⟩ := hi.err
    have hne : s.errCode ≠ .transport := by rw [Ne, htr, hp]; exact Phase.noConfusion
    simpa [ErrOk] using hreg hne

/-- Latching a request keeps the invariant of an idle block. -/
theorem inv_latchRequest {s : State} (hi : Inv s) (hs : s.script = .none) (r : Request)
    (rest : List Request) : Inv (latchRequest r rest s) := by
  obtain ⟨hd, hw, htx, hq, hr⟩ := atRest_of_idle hi hs
  have hso := hi.script
  refine inv_of_atRest ⟨hd, hw, htx, hq, hr⟩ hi.config hi.fb hi.err ?_
  simpa [ScriptOk, hs] using hso

/-- A response keeps the invariant of an idle block that has left UNINIT. -/
theorem inv_respond {s : State} (hi : Inv s) (hs : s.script = .none) (hp : s.phase ≠ .uninit)
    (st : RspStatus) (d : Byte) : Inv (respond st d s) := by
  obtain ⟨hd, hw, htx, hq, hr⟩ := atRest_of_idle hi hs
  have hso := hi.script
  refine inv_of_atRest ⟨hd, hw, htx, hq, hr⟩ hi.config hi.fb hi.err ?_
  simp only [ScriptOk, hs] at hso
  simpa [ScriptOk, hs, hp] using hso

/-- The response taken keeps the invariant of an idle block. -/
theorem inv_rspTaken {s : State} (hi : Inv s) (hs : s.script = .none) : Inv { s with rsp := none } := by
  obtain ⟨hd, hw, htx, hq, hr⟩ := atRest_of_idle hi hs
  have hso := hi.script
  refine inv_of_atRest ⟨hd, hw, htx, hq, hr⟩ hi.config hi.fb hi.err ?_
  simp only [ScriptOk, hs] at hso
  simpa [ScriptOk, hs] using ⟨hso.1, hso.2.1⟩

/-- A new framebuffer keeps the invariant of an idle block. -/
theorem inv_setFb {s : State} (hi : Inv s) (hs : s.script = .none) {m : Mem} (hw : m.wf = true)
    (hb : m.below s.cfg.N = true) : Inv (setFb m s) := by
  obtain ⟨hd, hwait, htx, hq, hr⟩ := atRest_of_idle hi hs
  exact inv_of_atRest ⟨hd, hwait, htx, hq, hr⟩ hi.config ⟨hw, hb⟩ hi.err hi.script

/-- The request latched starts its script. -/
theorem inv_startScript {s : State} (hi : Inv s) (hs : s.script = .none) (hp : s.phase = .poweredOn)
    (hrsp : s.rsp = none) {q : Request} {r : ReqScript} (hreq : s.req = some q)
    (hq : scriptStartedBy (decodeRequest q) = some r) : Inv (startScript r s) := by
  obtain ⟨hd, hw, htx, -, hr⟩ := atRest_of_idle hi hs
  refine inv_of_atRest ⟨hd, hw, htx, rfl, hr⟩ hi.config hi.fb hi.err ?_
  simp [ScriptOk, hp, hrsp, hreq, hq]

/-! ## The invariant across the steps of a script -/

/-- The transaction of a CMD or DATA step: what the step at `seq_ptr` sends. -/
def StepSends (s : State) (t : Transaction) : Prop :=
  (∃ i b l, currentStep s = some ⟨.cmd i, l⟩ ∧ commandByteOf i = some b ∧ t = cmdTransaction b) ∨
    (∃ l, currentStep s = some ⟨.data, l⟩ ∧ t = dataTransaction (s.fb.bytes s.cfg.N))

/-- An outstanding transaction is the one its step sends. -/
theorem stepSends_of_tx {s : State} (hi : Inv s) {f : InFlight} (h : s.tx = some f) : StepSends s f.txn :=
  (hi.tx f h).2

/-- Only a CMD or DATA step sends a transaction. -/
theorem StepSends.current {s : State} {t : Transaction} (h : StepSends s t) :
    ∃ st, currentStep s = some st ∧ ((∃ i, st.kind = .cmd i) ∨ st.kind = .data) := by
  obtain ⟨i, b, l, hc, -⟩ | ⟨l, hc, -⟩ := h
  · exact ⟨_, hc, .inl ⟨i, rfl⟩⟩
  · exact ⟨_, hc, .inr rfl⟩

/-- A step that makes no transaction has none outstanding. -/
theorem tx_none_of_step {s : State} (hi : Inv s) {st : ScriptStep} (hc : currentStep s = some st)
    (hcmd : ∀ i, st.kind ≠ .cmd i) (hdata : st.kind ≠ .data) : s.tx = none := by
  by_contra hne
  obtain ⟨f, hf⟩ := Option.ne_none_iff_exists'.1 hne
  obtain ⟨st', hc', hk⟩ := (stepSends_of_tx hi hf).current
  obtain rfl := Option.some.inj (hc.symm.trans hc')
  obtain ⟨i, hk⟩ | hk := hk
  · exact hcmd i hk
  · exact hdata hk

theorem inv_rstStep {s : State} (hi : Inv s) {l : Bool} {lab : Phase}
    (hc : currentStep s = some ⟨.rst l, lab⟩) : Inv (rstStep l s) := by
  obtain ⟨hd, hw⟩ := notDelaying hi hc (by simp)
  have htx := tx_none_of_step hi hc (by simp) (by simp)
  have hinit := script_init_of_current hc (by simp) (by simp)
  have hline : l = s.cfg.rstActive ↔
      s.cfg.hasRst = true ∧ s.script = .init ∧ (s.seqPtr.toNat = 0 ∨ s.seqPtr.toNat = 1) := by
    have hk := hc
    rw [currentStep, hinit, scriptSteps] at hk
    obtain ⟨hrst, ⟨h0, rfl⟩ | ⟨h2 | h4, rfl⟩⟩ := initScript_rst hk
    · simp [hrst, hinit, h0]
    · simp [h2]
    · simp [h4]
  exact inv_advance hi hc rfl rfl rfl rfl rfl rfl rfl rfl rfl hd hw htx hi.fb hline
    (blank_carry hi hc (by simp))

theorem inv_delayStep {s : State} (hi : Inv s) {ms : Nat} {lab : Phase}
    (hc : currentStep s = some ⟨.delay ms, lab⟩) : Inv (delayStep ms s) := by
  have htx := tx_none_of_step hi hc (by simp) (by simp)
  unfold delayStep
  split
  · have hload : s.waitCnt ≤ delayTicks s.cfg ms := by
      have hd := hi.delay
      rw [DelayOk, if_pos ‹_›] at hd
      obtain ⟨ms', l, h, hle⟩ := hd
      rw [hc] at h
      cases h
      exact hle
    have hrst := rst_carry hi hc (by simp)
    split
    · exact inv_advance hi hc rfl rfl rfl rfl rfl rfl rfl rfl rfl rfl ‹_› htx hi.fb hrst
        (blank_carry hi hc (by simp))
    · split
      · refine ⟨hi.config, hi.fb, hi.err, hi.script, ?_, hi.tx, hi.rst, hi.blank⟩
        rw [DelayOk, if_pos ‹_›]
        exact ⟨ms, lab, hc, Nat.le_trans (Nat.sub_le ..) hload⟩
      · exact hi
  · refine ⟨hi.config, hi.fb, hi.err, hi.script, ?_, hi.tx, hi.rst, hi.blank⟩
    rw [DelayOk, if_pos rfl]
    exact ⟨ms, lab, hc, Nat.le_refl _⟩

theorem inv_clearBufStep {s : State} (hi : Inv s) {lab : Phase}
    (hc : currentStep s = some ⟨.clearBuf, lab⟩) : Inv (clearBufStep s) := by
  obtain ⟨hd, hw⟩ := notDelaying hi hc (by simp)
  obtain ⟨-, hbelow⟩ := hi.fb
  have htx := tx_none_of_step hi hc (by simp) (by simp)
  have hrst := rst_carry hi hc (by simp)
  have hblank : s.fb.fill s.cfg.N 0x00 = [] := by rw [Mem.fill_of_below hbelow]; rfl
  refine inv_advance hi hc rfl rfl rfl rfl rfl rfl rfl rfl rfl hd hw htx
    ⟨Mem.wf_fill hbelow, Mem.below_fill hbelow⟩ hrst fun _ _ a => ?_
  rw [setFb_fb, hblank]
  rfl

/-- A held transaction is the one of its step, with a byte more handed over at most. -/
theorem inv_hold {s : State} (hi : Inv s) {t : Transaction} (ht : StepSends s t) : Inv (hold t s) := by
  refine ⟨hi.config, hi.fb, hi.err, hi.script, hi.delay, ?_, hi.rst, hi.blank⟩
  have hf : (s.tx.getD ⟨t, 0⟩).handed ≤ (s.tx.getD ⟨t, 0⟩).txn.bytes.length ∧
      StepSends s (s.tx.getD ⟨t, 0⟩).txn := by
    cases htx : s.tx with
    | none => exact ⟨Nat.zero_le _, ht⟩
    | some f => exact ⟨(hi.tx f htx).1, stepSends_of_tx hi htx⟩
  intro f h
  obtain rfl := Option.some.inj h
  rw [handOver_txn]
  exact ⟨handOver_handed_le _ hf.1, hf.2⟩

/-- A CMD or DATA step is none of the other kinds. -/
theorem StepKind.of_cmd_or_data {k : StepKind} (h : (∃ i, k = .cmd i) ∨ k = .data) :
    (∀ l, k ≠ .rst l) ∧ (∀ ms, k ≠ .delay ms) ∧ k ≠ .clearBuf := by
  rcases h with ⟨i, rfl⟩ | rfl <;> simp

/-- FAULT entry from a CMD or DATA step, once its transaction is answered. -/
theorem inv_transportFault {s : State} (hi : Inv s) {st : ScriptStep} (hc : currentStep s = some st)
    (hk : (∃ i, st.kind = .cmd i) ∨ st.kind = .data) (t : Transaction) (a : Answer) :
    Inv (transportFault (answered t a s)) := by
  obtain ⟨-, hndelay, -⟩ := StepKind.of_cmd_or_data hk
  obtain ⟨hd, hw⟩ := notDelaying hi hc hndelay
  have hr := rst_inactive hi hc hk
  exact inv_of_atRest ⟨by simpa using hd, by simpa using hw, by simp, by simp, by simpa using hr⟩
    (by simpa using hi.config) (by simpa [FbOk] using hi.fb) (by simp [ErrOk]) (by simp [ScriptOk])

/-- A transaction step answered Ok keeps the invariant: its shadow update is of no register the invariant
binds outside FAULT. -/
theorem inv_answeredOk {s : State} (hi : Inv s) {st : ScriptStep} (hc : currentStep s = some st)
    (hk : (∃ i, st.kind = .cmd i) ∨ st.kind = .data) (t : Transaction) (u : ShadowUpdate) :
    Inv (advance (applyShadow u (answered t .ok s))) := by
  obtain ⟨hnrst, hndelay, hnclear⟩ := StepKind.of_cmd_or_data hk
  obtain ⟨hd, hw⟩ := notDelaying hi hc hndelay
  have hrst := rst_carry hi hc hnrst
  have hblank := blank_carry hi hc hnclear
  cases u <;> exact inv_advance hi hc rfl rfl rfl rfl rfl rfl rfl rfl rfl hd hw rfl hi.fb hrst hblank

/-- A transaction step keeps the invariant, whatever the adapter answers. -/
theorem inv_emit {s : State} (hi : Inv s) {st : ScriptStep} (hc : currentStep s = some st)
    (hk : (∃ i, st.kind = .cmd i) ∨ st.kind = .data) {t : Transaction} (ht : StepSends s t)
    (u : ShadowUpdate) : Inv (emit t u s) := by
  rcases emit_cases t u s with ⟨-, h⟩ | ⟨-, h⟩ | ⟨-, h⟩ <;> rw [h]
  · exact inv_answeredOk hi hc hk t u
  · exact inv_transportFault hi hc hk t .err
  · exact inv_hold hi ht

/-- The DATA step sends the framebuffer: an outstanding frame is the framebuffer still. -/
theorem dataBytes_eq {s : State} (hi : Inv s) {lab : Phase} (hc : currentStep s = some ⟨.data, lab⟩) :
    dataBytes s = s.fb.bytes s.cfg.N := by
  unfold dataBytes
  split
  · obtain ⟨i, b, l, h, -⟩ | ⟨l, -, h⟩ := stepSends_of_tx hi ‹_›
    · rw [hc] at h
      cases h
    · rw [h]
      rfl
  · rfl

/-- Where no step stands at `seq_ptr`, none is in progress. -/
theorem nothing_in_progress {s : State} (hi : Inv s) (hc : currentStep s = none) :
    s.delaying = false ∧ s.waitCnt = 0 ∧ s.tx = none := by
  have hd : s.delaying = false := by
    by_contra hne
    have hdelay := hi.delay
    rw [DelayOk, if_pos (by simpa using hne)] at hdelay
    obtain ⟨ms, l, h, -⟩ := hdelay
    simp [hc] at h
  refine ⟨hd, by simpa [DelayOk, hd] using hi.delay, ?_⟩
  by_contra hne
  obtain ⟨f, hf⟩ := Option.ne_none_iff_exists'.1 hne
  obtain ⟨st, h, -⟩ := (stepSends_of_tx hi hf).current
  simp [hc] at h

/-- The reset pulse is over at the end of every script. -/
theorem rst_inactive_at_end {s : State} (hi : Inv s)
    (he : s.seqPtr.toNat = (scriptSteps s.cfg s.script).length) : s.rstOut ≠ s.cfg.rstActive := by
  intro hactive
  obtain ⟨-, hs, hptr⟩ := hi.rst.1 hactive
  have hlen := initScript_length s.cfg
  rw [hs, scriptSteps] at he
  rcases hptr with h | h <;> rw [h] at he <;> split at hlen <;> simp at he <;> omega

/-- The end of a script keeps the invariant. -/
theorem inv_endScript {s : State} (hi : Inv s)
    (he : s.seqPtr.toNat = (scriptSteps s.cfg s.script).length) : Inv (endScript s) := by
  have hc : currentStep s = none := List.getElem?_eq_none_iff.2 (by omega)
  obtain ⟨hd, hw, htx⟩ := nothing_in_progress hi hc
  have hr := rst_inactive_at_end hi he
  have hso := hi.script
  unfold endScript
  split
  · exact hi
  · simp only [ScriptOk, ‹s.script = .init›] at hso
    obtain ⟨hphase, -, -⟩ := hso
    have hnf : s.phase.isFaulted = false := hphase ▸ initPhaseAt_not_faulted _ _
    exact inv_of_atRest ⟨hd, hw, htx, rfl, hr⟩ hi.config hi.fb
      (errOk_of_not_faulted hi.err hnf rfl rfl rfl rfl) (by simp [ScriptOk])
  · simp only [ScriptOk, ‹s.script = .req _›] at hso
    obtain ⟨hphase, -⟩ := hso
    exact inv_of_atRest ⟨hd, hw, htx, rfl, hr⟩ hi.config hi.fb hi.err (by simp [ScriptOk, hphase])

/-! ## The invariant across every step -/

/-- Everything a step can do keeps the invariant. -/
theorem inv_of_took {s t : State} (hi : Inv s) (h : Took s t) : Inv t := by
  cases h with
  | blockReset hr ht => exact ht ▸ inv_blockReset hi.config
  | uninit hr hp ht => exact ht ▸ inv_uninitStep hi hp
  | taken hr hp hs r hrsp hready ht => exact ht ▸ inv_rspTaken hi hs
  | waited hr hp hs ht => exact ht ▸ hi
  | answeredFaulted r rest hready ho hf ht =>
    obtain ⟨-, hs, -, hp⟩ := (reqReady_iff s).1 hready
    have hp : s.phase ≠ .uninit := by rintro h; simp [h] at hp
    exact ht ▸ inv_respond (inv_latchRequest hi hs r rest) hs hp _ _
  | started r rest q hready ho hp hq ht =>
    obtain ⟨-, hs, hrsp, -⟩ := (reqReady_iff s).1 hready
    exact ht ▸ inv_startScript (inv_latchRequest hi hs r rest) hs hp hrsp rfl hq
  | answeredNow r rest st d hready ho hp hq ht =>
    obtain ⟨-, hs, -, -⟩ := (reqReady_iff s).1 hready
    obtain ⟨hwf, hbelow⟩ := hi.fb
    have hfb := inv_setFb (inv_latchRequest hi hs r rest) hs (wf_fbAfter hwf hbelow (decodeRequest r))
      (below_fbAfter hi.config hbelow (decodeRequest r))
    exact ht ▸ inv_respond hfb hs (by simp [hp]) _ _
  | rst l lab hr hp hc ht => exact ht ▸ inv_rstStep hi hc
  | delay ms lab hr hp hc ht => exact ht ▸ inv_delayStep hi hc
  | cmd i b lab hr hp hc hb hm ht =>
    exact ht ▸ inv_emit hi hc (.inl ⟨i, rfl⟩) (.inl ⟨i, b, lab, hc, hb, rfl⟩) _
  | data lab hr hp hc ht =>
    have hsends : StepSends s (dataTransaction (dataBytes s)) :=
      .inr ⟨lab, hc, by rw [dataBytes_eq hi hc]⟩
    exact ht ▸ inv_emit hi hc (.inr rfl) hsends _
  | clearBuf lab hr hp hc ht => exact ht ▸ inv_clearBufStep hi hc
  | ended hr hp hs he ht => exact ht ▸ inv_endScript hi he

/-- Settles O46: the inputs sampled keep the invariant, and so does each thing `Took` lists. -/
theorem stepKeepsTheInvariant : Obligations.StepKeepsTheInvariant := by
  intro s t hi h
  exact inv_of_took (inv_sample hi) (took_of_step hi.config h)

/-! ## No step stops -/

theorem performStep_answers_next (k : StepKind) (s : State) : ∃ t, performStep k s = .next t := by
  cases k with
  | cmd i => exact exec_answers_next i s
  | rst | delay | data | clearBuf => exact ⟨_, rfl⟩

/-- `seq_ptr` never stands past the script's end. -/
theorem seqPtr_le_of_scriptOk {s : State} (h : ScriptOk s) :
    s.seqPtr.toNat ≤ (scriptSteps s.cfg s.script).length := by
  unfold ScriptOk at h
  split at h
  · obtain ⟨-, hq, -⟩ := h
    simp [hq]
  · obtain ⟨-, hle, -⟩ := h
    simpa [scriptSteps, ‹s.script = .init›] using hle
  · obtain ⟨-, hle, -⟩ := h
    simpa [scriptSteps, ‹s.script = .req _›] using hle

theorem runStep_answers_next {s : State} (h : ScriptOk s) : ∃ t, runStep s = .next t := by
  cases hc : currentStep s with
  | some st =>
    rw [runStep_current hc]
    exact performStep_answers_next st.kind s
  | none =>
    have hge := List.getElem?_eq_none_iff.1 hc
    exact ⟨_, runStep_end (Nat.le_antisymm (seqPtr_le_of_scriptOk h) hge)⟩

theorem idleStep_answers_next (s : State) : ∃ t, idleStep s = .next t := by
  obtain ⟨r, -, -, h⟩ | h | ⟨r, rest, -, -, -, h⟩ := idleStep_cases s
  · exact ⟨_, h⟩
  · exact ⟨_, h⟩
  · rw [h]
    exact exec_answers_next _ _

/-- Settles O48: only a running script could stop, and `seq_ptr` is never past its end. -/
theorem stepNeverStopsUnderTheInvariant : Obligations.StepNeverStopsUnderTheInvariant := by
  intro s hi
  rw [step_instance hi.config]
  obtain ⟨-, h⟩ | ⟨-, -, h⟩ | ⟨-, -, -, h⟩ | ⟨-, -, -, h⟩ := sequencerStep_cases (sample s) <;> rw [h]
  · exact ⟨_, rfl⟩
  · exact ⟨_, rfl⟩
  · exact idleStep_answers_next _
  · exact runStep_answers_next (inv_sample hi).script

/-! ## What writes `sh_disp` (R23 of 10_state.md) -/

@[simp] theorem uninitStep_shDisp (s : State) : (uninitStep s).shDisp = s.shDisp := by
  unfold uninitStep
  split <;> rfl

@[simp] theorem delayStep_shDisp (ms : Nat) (s : State) : (delayStep ms s).shDisp = s.shDisp := by
  unfold delayStep
  split_ifs <;> rfl

@[simp] theorem endScript_shDisp (s : State) : (endScript s).shDisp = s.shDisp := by
  unfold endScript
  split <;> rfl

/-- The commands that send 0xAF or 0xAE: the two display commands and the value bytes (log 32). -/
theorem command_of_display_byte {i : Instr} {b : Byte} (h : commandByteOf i = some b)
    (hb : b = 0xAF ∨ b = 0xAE) :
    i = .displayOn ∨ i = .displayOff ∨ i = .pmValue b ∨ i = .comEndValue b := by
  have hcon : ∀ L : BitVec 3, 0x20#8 ||| L.zeroExtend 8 ≠ 0xAF ∧ 0x20#8 ||| L.zeroExtend 8 ≠ 0xAE := by
    decide
  have hinv : ∀ f, 0x21#8 ||| bitByte f ≠ 0xAF ∧ 0x21#8 ||| bitByte f ≠ 0xAE := by decide
  cases i <;> simp only [commandByteOf, encodeCode, reduceCtorEq, Option.some.injEq] at h <;> subst h
  case contrast L => exact absurd hb (not_or.2 (hcon L))
  case invert f => exact absurd hb (not_or.2 (hinv f))
  case displayOn | displayOff | pmValue | comEndValue => simp
  all_goals exact absurd hb (by decide)

/-- A CMD step answered Ok leaves in `sh_disp` what its byte says. -/
theorem shDisp_of_step_cmd_ok {s t : State} (hi : Inv s) (h : step s = .next t)
    (hr : (sample s).pins.rstN = true) (hp : s.phase ≠ .uninit) (ha : (sample s).pins.answer = some .ok)
    {i : Instr} {l : Phase} (hc : currentStep s = some ⟨.cmd i, l⟩) {b : Byte} (hb : commandByteOf i = some b) :
    t.shDisp = if b = 0xAF then some true else if b = 0xAE then some false else s.shDisp := by
  rw [step_script hi.config hr hp hc] at h
  have h : exec i (sample s) = .next t := h
  rw [exec_command hb] at h
  injection h with h
  rw [← h, shDisp_command_ok hb ha, sample_shDisp]

/-- The CMD step at `seq_ptr` sends 0xAF or 0xAE, is answered Ok in this step, and `sh_disp` follows. -/
def DisplayCommandDone (s t : State) : Prop :=
  s.pins.answer = some .ok ∧ ∃ i l b, currentStep s = some ⟨.cmd i, l⟩ ∧
    (i = .displayOn ∨ i = .displayOff ∨ i = .pmValue b ∨ i = .comEndValue b) ∧
    (commandByteOf i = some 0xAF ∧ t.shDisp = some true ∨ commandByteOf i = some 0xAE ∧ t.shDisp = some false)

/-- The CMD or DATA step at `seq_ptr` is answered Err in this step, which enters FAULT. -/
def DisplayLostInFault (s t : State) : Prop :=
  s.pins.answer = some .err ∧ s.phase ≠ .fault ∧ t.phase = .fault ∧ t.shDisp = none ∧
    ∃ k l, currentStep s = some ⟨k, l⟩ ∧ ((∃ i, k = .cmd i) ∨ k = .data)

theorem displayLostInFault_of_err {s : State} (hi : Inv s) {k : StepKind} {lab : Phase}
    (hc : currentStep s = some ⟨k, lab⟩) (hk : (∃ i, k = .cmd i) ∨ k = .data)
    (ha : s.pins.answer = some .err) (t : Transaction) (u : ShadowUpdate) :
    DisplayLostInFault s (emit t u s) := by
  obtain ⟨-, hnf, -⟩ := phase_of_scriptOk hi.script (script_ne_none_of_current hc)
  rw [emit_err ha]
  exact ⟨ha, hnf, transportFault_phase _, transportFault_shDisp _, k, lab, hc, hk⟩

/-- What a CMD step does to `sh_disp`, when it changes it. -/
theorem shDisp_changed_by_cmd {s : State} (hi : Inv s) {i : Instr} {b : Byte} {lab : Phase}
    (hc : currentStep s = some ⟨.cmd i, lab⟩) (hb : commandByteOf i = some b)
    (hne : (emit (cmdTransaction b) (shadowOf i) s).shDisp ≠ s.shDisp) :
    DisplayCommandDone s (emit (cmdTransaction b) (shadowOf i) s) ∨
      DisplayLostInFault s (emit (cmdTransaction b) (shadowOf i) s) := by
  rcases emit_cases (cmdTransaction b) (shadowOf i) s with ⟨ha, -⟩ | ⟨ha, -⟩ | ⟨-, h⟩
  · have hsh := shDisp_command_ok hb ha
    refine .inl ⟨ha, i, lab, b, hc, ?_⟩
    by_cases hon : b = 0xAF
    · exact ⟨command_of_display_byte hb (.inl hon), .inl ⟨hon ▸ hb, by rw [hsh, if_pos hon]⟩⟩
    by_cases hoff : b = 0xAE
    · exact ⟨command_of_display_byte hb (.inr hoff),
        .inr ⟨hoff ▸ hb, by rw [hsh, if_neg hon, if_pos hoff]⟩⟩
    · rw [hsh, if_neg hon, if_neg hoff] at hne
      exact absurd rfl hne
  · exact .inr (displayLostInFault_of_err hi hc (.inl ⟨i, rfl⟩) ha _ _)
  · rw [h] at hne
    exact absurd rfl hne

/-- What a DATA step does to `sh_disp`, when it changes it. -/
theorem shDisp_changed_by_data {s : State} (hi : Inv s) {lab : Phase}
    (hc : currentStep s = some ⟨.data, lab⟩) (bs : List Byte)
    (hne : (emit (dataTransaction bs) .none s).shDisp ≠ s.shDisp) :
    DisplayLostInFault s (emit (dataTransaction bs) .none s) := by
  rcases emit_cases (dataTransaction bs) .none s with ⟨-, h⟩ | ⟨ha, -⟩ | ⟨-, h⟩
  · simp [h] at hne
  · exact displayLostInFault_of_err hi hc (.inr rfl) ha _ _
  · simp [h] at hne

/-- Outside block reset, a step that changes `sh_disp` completes a display command or enters FAULT. -/
theorem shDisp_changed_of_took {s t : State} (hi : Inv s) (h : Took s t) (hr : s.pins.rstN = true)
    (hne : t.shDisp ≠ s.shDisp) :
    s.phase ≠ .uninit ∧ (DisplayCommandDone s t ∨ DisplayLostInFault s t) := by
  cases h with
  | blockReset hr' ht => rw [hr] at hr'; cases hr'
  | uninit hr hp ht => exact absurd (ht ▸ uninitStep_shDisp s) hne
  | delay ms lab hr hp hc ht => exact absurd (ht ▸ delayStep_shDisp ms s) hne
  | ended hr hp hs he ht => exact absurd (ht ▸ endScript_shDisp s) hne
  | cmd i b lab hr hp hc hb hm ht =>
    subst ht
    exact ⟨hp, shDisp_changed_by_cmd hi hc hb hne⟩
  | data lab hr hp hc ht =>
    subst ht
    exact ⟨hp, .inr (shDisp_changed_by_data hi hc _ hne)⟩
  | taken _ _ _ _ _ _ ht | waited _ _ _ ht | answeredFaulted _ _ _ _ _ ht | started _ _ _ _ _ _ _ ht
  | answeredNow _ _ _ _ _ _ _ _ ht | rst _ _ _ _ _ ht | clearBuf _ _ _ _ ht =>
    subst ht
    exact absurd rfl hne

/-- Settles O41: the CMD steps by their byte, the entry of FAULT by the invariant of the next state, and any
change by the case list `Took`. -/
theorem displayShadowIsWrittenOnlyByItsCommands : Obligations.DisplayShadowIsWrittenOnlyByItsCommands := by
  intro s t hi h
  refine ⟨fun hr => ?_, fun hr =>
    ⟨fun l hp ha => ⟨fun hc => ?_, fun hc => ?_, fun i hc => ⟨fun hb => ?_, fun hb => ?_⟩⟩,
      fun hf _ => ?_, fun hne => ?_⟩⟩
  · rw [step_instance hi.config, sequencerStep_reset hr] at h
    injection h with h
    exact h ▸ blockReset_shDisp _
  · simpa using shDisp_of_step_cmd_ok hi h hr hp ha hc (b := 0xAF) rfl
  · simpa using shDisp_of_step_cmd_ok hi h hr hp ha hc (b := 0xAE) rfl
  · simpa using shDisp_of_step_cmd_ok hi h hr hp ha hc hb
  · simpa using shDisp_of_step_cmd_ok hi h hr hp ha hc hb
  · obtain ⟨-, -, -, hshadows⟩ := (stepKeepsTheInvariant s t hi h).err
    exact (hshadows hf).1
  · simpa [DisplayCommandDone, DisplayLostInFault] using
      shDisp_changed_of_took (inv_sample hi) (took_of_step hi.config h) hr (by simpa using hne)

/-! ## The response port (R39 of 10_state.md) -/

/-- Settles O24: R100 leaves an idle block with a pending response one step only, its taking. -/
theorem responseWaitsForTheHost : Obligations.ResponseWaitsForTheHost := by
  refine ⟨fun s hr => by simp [rspValid, hr, Option.isSome_iff_ne_none], ?_⟩
  intro s r hc hr hp hs hrsp
  have hrsp' : (sample s).rsp = some r := by rw [sample_rsp, hrsp]
  refine ⟨by simp [rspOut, hrsp], ?_⟩
  rw [step_instance hc, sequencerStep_idle hr (by simpa using hp) (by simpa using hs), idleStep_pending hrsp']
  cases (sample s).pins.rspReady
  · rw [if_neg Bool.false_ne_true, if_neg Bool.false_ne_true, ← hrsp']
  · rfl

/-! ## STATUS, ERRINFO and the fault level (R33 to R35 of 10_state.md) -/

/-- The ten fields that STATUS puts together, each cut out again. The width stays the sum of the widths, as
the lemmas on `++` need it. -/
theorem statusFields_of_append (orient : BitVec 2) (inv invKnown : Bool) (con : BitVec 3)
    (conKnown disp dispKnown busy : Bool) (err : BitVec 2) (phase : BitVec 3) :
    let word := orient ++ BitVec.ofBool inv ++ BitVec.ofBool invKnown ++ con ++ BitVec.ofBool conKnown ++
      BitVec.ofBool disp ++ BitVec.ofBool dispKnown ++ BitVec.ofBool busy ++ err ++ phase
    word.extractLsb' 0 3 = phase ∧ word.extractLsb' 3 2 = err ∧ word.getLsbD 5 = busy ∧
      word.getLsbD 6 = dispKnown ∧ word.getLsbD 7 = disp ∧ word.getLsbD 8 = conKnown ∧
      word.extractLsb' 9 3 = con ∧ word.getLsbD 12 = invKnown ∧ word.getLsbD 13 = inv ∧
      word.extractLsb' 14 2 = orient := by
  simp (disch := decide) only [BitVec.extractLsb'_append_eq_of_le, BitVec.extractLsb'_append_eq_of_add_le,
    BitVec.getLsbD_append, Nat.reduceLT, Nat.reduceSub, if_true, if_false]
  simp

/-- STATUS right after block reset: only ORIENT is not 0. -/
theorem status_ofConfig (c : Config) : status (State.ofConfig c) = c.orient.code ++ 0#14 := by
  have hzeros : ∀ x : BitVec 2,
      x ++ 0#1 ++ 0#1 ++ 0#3 ++ 0#1 ++ 0#1 ++ 0#1 ++ 0#1 ++ 0#2 ++ 0#3 = x ++ 0#14 := by decide
  exact hzeros c.orient.code

/-- Settles O54: STATUS is its fields put together, and each is cut out again. -/
theorem statusHoldsItsFields : Obligations.StatusHoldsItsFields := by
  intro s
  obtain ⟨hphase, herr, hbusy, hdispKnown, hdisp, hconKnown, hcon, hinvKnown, hinv, horient⟩ :=
    statusFields_of_append s.cfg.orient.code (s.shInv.getD false) s.shInv.isSome (s.shCon.getD 0)
      s.shCon.isSome (s.shDisp.getD false) s.shDisp.isSome (busy s) s.errCode.code s.phase.code
  exact ⟨hphase, herr, hbusy, hdispKnown, hdisp, hconKnown, hcon, hinvKnown, hinv, horient,
    status_ofConfig _⟩

/-- The fields that ERRINFO puts together, each cut out again. -/
theorem errInfoFields_of_append (step : BitVec 8) (phase : BitVec 3) :
    let word := step ++ 0#5 ++ phase
    word.extractLsb' 0 3 = phase ∧ word.extractLsb' 3 5 = 0#5 ∧ word.extractLsb' 8 8 = step := by
  simp (disch := decide) only [BitVec.extractLsb'_append_eq_of_le, BitVec.extractLsb'_append_eq_of_add_le,
    Nat.reduceSub, BitVec.extractLsb'_eq_self, and_self]

/-- ERRINFO right after block reset. -/
theorem errInfo_ofConfig (c : Config) : errInfo (State.ofConfig c) = 0 :=
  (by decide : 0#8 ++ 0#5 ++ 0#3 = 0#16)

/-- Settles O55: ERRINFO is its fields put together, and each is cut out again; the faulted phases are two. -/
theorem errInfoHoldsItsFields : Obligations.ErrInfoHoldsItsFields := by
  intro s
  obtain ⟨hphase, hzero, hstep⟩ := errInfoFields_of_append s.errStep s.errPhase
  exact ⟨hphase, hzero, hstep, Phase.isFaulted_iff _, errInfo_ofConfig _, rfl⟩

end Sys2Proof.Machine

/-! # The framebuffer (20_memory.md): the mapper, the two views of the storage, what writes it -/

namespace Sys2Proof.Machine

/-! ## The address mapper (R45 to R50) -/

theorem isVertical_iff (c : Config) : isVertical c = true ↔ c.orient = .deg0 ∨ c.orient = .deg180 := by
  unfold isVertical
  cases c.orient <;> simp

theorem isVertical_eq_false_iff (c : Config) :
    isVertical c = false ↔ c.orient = .deg90 ∨ c.orient = .deg270 := by
  unfold isVertical
  cases c.orient <;> simp

/-- The logical space of the vertical packing (R45). -/
theorem logicalSize_vertical {c : Config} (h : isVertical c = true) :
    logicalW c = c.W ∧ logicalH c = c.H := by
  simp [logicalW, logicalH, h]

/-- The logical space of the horizontal packing (R45). -/
theorem logicalSize_horizontal {c : Config} (h : isVertical c = false) :
    logicalW c = c.H ∧ logicalH c = c.W := by
  simp [logicalW, logicalH, h]

theorem mapPixel_isSome_iff (c : Config) (x y : Int) : (mapPixel c x y).isSome = true ↔ InBounds c x y := by
  rw [Option.isSome_iff_ne_none, Ne, mapPixel_eq_none_iff, not_not]

theorem mapPixel_vertical {c : Config} (h : isVertical c = true) {x y : Nat} (hx : x < c.W) (hy : y < c.H) :
    mapPixel c x y = some (placeVertical c x y) := by
  obtain ⟨hW, hH⟩ := logicalSize_vertical h
  have hin : InBounds c x y := by rw [InBounds, hW, hH]; omega
  simp [mapPixel, hin, h]

theorem mapPixel_horizontal {c : Config} (h : isVertical c = false) {x y : Nat} (hx : x < c.H)
    (hy : y < c.W) : mapPixel c x y = some (placeHorizontal c x y) := by
  obtain ⟨hW, hH⟩ := logicalSize_horizontal h
  have hin : InBounds c x y := by rw [InBounds, hW, hH]; omega
  simp [mapPixel, hin, h]

/-- The two forms R48 gives for the index of the horizontal packing. -/
theorem horizontalIndex_eq {c : Config} (hc : c.WF) (x y : Nat) :
    (y * c.H + x) / 8 = y * c.P + x / 8 := by
  rw [Config.H_eq hc, Nat.mul_left_comm, Nat.mul_add_div (by decide)]

/-- Every bit of the byte at a group of eight columns is at one of them, in either bit order (R48). -/
theorem exists_column_of_bit (c : Config) (y q : Nat) {b : Nat} (hb : b < 8) :
    ∃ x, x / 8 = q ∧ (placeHorizontal c x y).bit = b := by
  unfold placeHorizontal
  cases c.hbitOrder with
  | msbFirst => exact ⟨8 * q + (7 - b), by omega, by dsimp only; omega⟩
  | lsbFirst => exact ⟨8 * q + b, by omega, by dsimp only; omega⟩

/-- The vertical packing reaches every place: byte `i` is in page `i / W` and column `i % W`. -/
theorem mapPixel_vertical_surjective {c : Config} (hc : c.WF) (h : isVertical c = true) {i b : Nat}
    (hi : i < c.N) (hb : b < 8) : ∃ x y : Nat, mapPixel c x y = some ⟨i, b⟩ := by
  obtain ⟨-, -, hW, -⟩ := hc
  have hpage : i / c.W < c.P := Nat.div_lt_of_lt_mul (by rwa [Nat.mul_comm])
  have hrow : 8 * (i / c.W) + b < c.H := by unfold Config.P at hpage; omega
  refine ⟨i % c.W, 8 * (i / c.W) + b, ?_⟩
  rw [mapPixel_vertical h (Nat.mod_lt _ hW) hrow, placeVertical]
  have hdiv : (8 * (i / c.W) + b) / 8 = i / c.W := by omega
  have hmod : (8 * (i / c.W) + b) % 8 = b := by omega
  rw [hdiv, hmod, Nat.div_add_mod']

/-- The horizontal packing reaches every place: byte `i` is in row `i / P` and column group `i % P`. -/
theorem mapPixel_horizontal_surjective {c : Config} (h : isVertical c = false) {i b : Nat}
    (hi : i < c.N) (hb : b < 8) : ∃ x y : Nat, mapPixel c x y = some ⟨i, b⟩ := by
  have hP : 0 < c.P := Nat.pos_of_mul_pos_right (Nat.zero_lt_of_lt hi)
  have hrow : i / c.P < c.W := Nat.div_lt_of_lt_mul hi
  have hgroup : i % c.P < c.P := Nat.mod_lt _ hP
  obtain ⟨x, hx, hbit⟩ := exists_column_of_bit c (i / c.P) (i % c.P) hb
  have hcol : x < c.H := by unfold Config.P at hgroup hx; omega
  refine ⟨x, i / c.P, ?_⟩
  rw [mapPixel_horizontal h hcol hrow]
  have hindex : (placeHorizontal c x (i / c.P)).index = i := by
    rw [placeHorizontal, hx, Nat.div_add_mod']
  exact congrArg some (congrArg₂ Place.mk hindex hbit)

/-- Every bit of every byte is a pixel (R50). -/
theorem mapPixel_surjective {c : Config} (hc : c.WF) {i b : Nat} (hi : i < c.N) (hb : b < 8) :
    ∃ x y : Nat, mapPixel c x y = some ⟨i, b⟩ := by
  cases h : isVertical c with
  | true => exact mapPixel_vertical_surjective hc h hi hb
  | false => exact mapPixel_horizontal_surjective h hi hb

/-- Settles O1: the mapper's range and injectivity, and a preimage of every place in each packing. -/
theorem mapIsABijectionOntoTheBits : Obligations.MapIsABijectionOntoTheBits := by
  intro c hc
  refine ⟨fun x y p h => mapPixel_bounds hc h, fun x y x' y' p h h' => mapPixel_inj hc h h', ?_⟩
  intro i b hi hb
  obtain ⟨x, y, h⟩ := mapPixel_surjective hc hi hb
  exact ⟨x, y, mapPixel_inBounds h, h⟩

/-- Settles O2: the in-bounds test, then each packing on its orientations. -/
theorem mapFollowsThePackingFormulas : Obligations.MapFollowsThePackingFormulas := by
  intro c x y hc
  refine ⟨fun u v => mapPixel_isSome_iff c u v, fun ho => ?_, fun ho => ?_⟩
  · have hv := (isVertical_iff c).2 ho
    obtain ⟨hW, hH⟩ := logicalSize_vertical hv
    exact ⟨hW, hH, fun hx hy => mapPixel_vertical hv hx hy⟩
  · have hv := (isVertical_eq_false_iff c).2 ho
    obtain ⟨hW, hH⟩ := logicalSize_horizontal hv
    refine ⟨hW, hH, fun hx hy => ⟨(placeHorizontal c x y).bit, ?_, horizontalIndex_eq hc x y, ?_, ?_⟩⟩
    · rw [mapPixel_horizontal hv hx hy, horizontalIndex_eq hc]
      rfl
    · intro hm
      simp [placeHorizontal, hm]
    · intro hl
      simp [placeHorizontal, hl]

/-! ## The byte view and the pixel view (R54) -/

/-- BUF_WR below N, in a phase that serves it (R98 of 40_pixel_ops.md). -/
theorem exec_bufWr_of_lt {s : State} (hf : s.phase.isFaulted = false) {a : Nat} (ha : a < s.cfg.N)
    (v : Byte) : exec (.bufWr a v) s = .next (respond .ok 0x00 (setFb (s.fb.write a v) s)) := by
  have h : exec (.bufWr a v) s = execBufWr a v s := rfl
  rw [h, execBufWr, serve_serving hf, if_pos ha]

/-- BUF_RD below N, in a phase that serves it (R97 of 40_pixel_ops.md). -/
theorem exec_bufRd_of_lt {s : State} (hf : s.phase.isFaulted = false) {a : Nat} (ha : a < s.cfg.N) :
    exec (.bufRd a) s = .next (respond .ok (s.fb.read a) s) := by
  have h : exec (.bufRd a) s = execBufRd a s := rfl
  rw [h, execBufRd, serve_serving hf, if_pos ha]

/-- A mapped pixel is the bit of its byte. -/
theorem pixelAt_of_mapped {s : State} {x y : Int} {p : Place} (h : mapPixel s.cfg x y = some p) :
    pixelAt s x y = some ((s.fb.read p.index).getLsbD p.bit) := by
  simp [pixelAt, h, Mem.readBit]

/-- Settles O10: a mapped byte is below N, so BUF_WR writes it and BUF_RD reads it, and the pixel is its bit. -/
theorem byteViewAndPixelViewAgree : Obligations.ByteViewAndPixelViewAgree := by
  intro s x y p v hc hwf hp hmap
  have hf : s.phase.isFaulted = false := by rw [hp]; rfl
  obtain ⟨hlt, -⟩ := mapPixel_bounds hc hmap
  refine ⟨⟨_, exec_bufWr_of_lt hf hlt v, ?_⟩, ⟨_, _, exec_bufRd_of_lt hf hlt, rfl, rfl, ?_⟩⟩
  · rw [pixelAt_of_mapped (by simpa using hmap), respond_fb, setFb_fb, Mem.read_write_same hwf]
  · exact pixelAt_of_mapped hmap

/-! ## What writes the framebuffer (R44) -/

@[simp] theorem uninitStep_fb (s : State) : (uninitStep s).fb = s.fb := by
  unfold uninitStep
  split <;> rfl

@[simp] theorem delayStep_fb (ms : Nat) (s : State) : (delayStep ms s).fb = s.fb := by
  unfold delayStep
  split_ifs <;> rfl

@[simp] theorem endScript_fb (s : State) : (endScript s).fb = s.fb := by
  unfold endScript
  split <;> rfl

@[simp] theorem emit_fb (t : Transaction) (u : ShadowUpdate) (s : State) : (emit t u s).fb = s.fb :=
  (emit_frame t u s).1

/-- The requests that write the framebuffer (R44). -/
def WritesFb (i : Instr) : Prop :=
  (∃ x y c, i = .set x y c) ∨ (∃ c, i = .fill c) ∨ (∃ x y w h c, i = .fillRect x y w h c) ∨
    (∃ a v, i = .bufWr a v)

/-- No other instruction changes the framebuffer. -/
theorem writesFb_of_fbAfter_ne {cfg : Config} {m : Mem} {i : Instr} (h : fbAfter cfg m i ≠ m) :
    WritesFb i := by
  cases i with
  | set | fill | fillRect | bufWr => simp [WritesFb]
  | _ => exact absurd rfl h

/-- Out of block reset, only the CLEARBUF step and a writing request accepted in POWERED_ON change the
framebuffer. -/
theorem fb_changed_of_took {s t : State} (h : Took s t) (hr : s.pins.rstN = true) (hne : t.fb ≠ s.fb) :
    (s.phase ≠ .uninit ∧ ∃ l, currentStep s = some ⟨.clearBuf, l⟩) ∨
      (s.phase = .poweredOn ∧ reqReady s = true ∧
        ∃ r rest, s.offered = r :: rest ∧ WritesFb (decodeRequest r)) := by
  cases h with
  | blockReset hr' ht => rw [hr] at hr'; cases hr'
  | clearBuf lab hr hp hc ht => exact .inl ⟨hp, lab, hc⟩
  | answeredNow r rest st d hready ho hp hq ht =>
    subst ht
    exact .inr ⟨hp, hready, r, rest, ho, writesFb_of_fbAfter_ne hne⟩
  | uninit _ _ ht => exact absurd (ht ▸ uninitStep_fb s) hne
  | delay ms _ _ _ _ ht => exact absurd (ht ▸ delayStep_fb ms s) hne
  | ended _ _ _ _ ht => exact absurd (ht ▸ endScript_fb s) hne
  | cmd _ _ _ _ _ _ _ _ ht | data _ _ _ _ ht => exact absurd (ht ▸ emit_fb _ _ s) hne
  | taken _ _ _ _ _ _ ht | waited _ _ _ ht | answeredFaulted _ _ _ _ _ ht | started _ _ _ _ _ _ _ ht
  | rst _ _ _ _ _ ht =>
    subst ht
    exact absurd rfl hne

/-- Settles O42: the case list `Took` of a step, and what each case leaves in the framebuffer. -/
theorem framebufferIsWrittenOnlyByItsOperations : Obligations.FramebufferIsWrittenOnlyByItsOperations := by
  intro s t hc hr h hne
  simpa [WritesFb] using fb_changed_of_took (took_of_step hc h) hr (by simpa using hne)

/-! ## The canonical form (R43, log 3) -/

/-- Every request keeps the framebuffer canonical and in its address space. -/
theorem fbOk_exec_request {s t : State} (hc : s.cfg.WF) (hfb : FbOk s) (r : Request)
    (h : exec (decodeRequest r) s = .next t) : FbOk t := by
  obtain ⟨q, hq⟩ := bundleOf_decodeRequest r
  obtain ⟨hwf, hbelow⟩ := hfb
  obtain ⟨-, he⟩ | ⟨-, sc, -, he⟩ | ⟨-, -, st, d, he⟩ := exec_request hq s <;>
    rw [he] at h <;> injection h with h <;> subst h
  · exact ⟨hwf, hbelow⟩
  · exact ⟨hwf, hbelow⟩
  · exact ⟨wf_fbAfter hwf hbelow _, below_fbAfter hc hbelow _⟩

/-- Settles O49: canonical memories are determined by their reads, and every request keeps the form. -/
theorem canonicalMemoryIsUnique : Obligations.CanonicalMemoryIsUnique :=
  ⟨fun _ _ hm hm' heq => Mem.ext_from hm hm' heq, fun _ _ r hc hfb h => fbOk_exec_request hc hfb r h⟩

end Sys2Proof.Machine

/-! # Encodings (30_encoding.md): the bundle, the round trip, the bytes sent, the assembler -/

namespace Sys2Proof.Machine

/-! ## The bundle and its fields (R63) -/

/-- The six fields that a word puts together, each cut out again. The width stays the sum of the widths, as
the lemmas on `++` need it. -/
theorem requestFields_of_append (op : BitVec 4) (x y w h : Field16) (d : Byte) :
    let word := d ++ h ++ w ++ y ++ x ++ op
    word.extractLsb' 0 4 = op ∧ word.extractLsb' 4 16 = x ∧ word.extractLsb' 20 16 = y ∧
      word.extractLsb' 36 16 = w ∧ word.extractLsb' 52 16 = h ∧ word.extractLsb' 68 8 = d := by
  simp (disch := decide) only [BitVec.extractLsb'_append_eq_of_le, BitVec.extractLsb'_append_eq_of_add_le,
    Nat.reduceSub, BitVec.extractLsb'_eq_self, and_self]

theorem ofWord_toWord (r : Request) : Request.ofWord r.toWord = r := by
  obtain ⟨op, x, y, w, h, d⟩ := r
  obtain ⟨hop, hx, hy, hw, hh, hd⟩ := requestFields_of_append op x y w h d
  exact Request.mk.injEq .. ▸ ⟨hop, hx, hy, hw, hh, hd⟩

/-- Adjacent cuts of a word join to one cut, and the cut of all its bits is the word. -/
theorem toWord_ofWord (w : BitVec 76) : (Request.ofWord w).toWord = w := by
  simp (disch := rfl) only [Request.toWord, Request.ofWord,
    BitVec.extractLsb'_append_extractLsb'_eq_extractLsb']
  exact BitVec.extractLsb'_eq_self

/-- A bit of a cut is a bit of the word. -/
theorem getLsbD_of_extractLsb' {n start len : Nat} {word : BitVec n} {field : BitVec len}
    (h : word.extractLsb' start len = field) {k : Nat} (hk : k < len) :
    word.getLsbD (start + k) = field.getLsbD k := by
  rw [← h, BitVec.getLsbD_extractLsb', decide_eq_true hk, Bool.true_and]

/-- Settles O51: the fields are cuts of the word, the cuts join to the word, and a bit of a cut is the word's. -/
theorem bundlePacksItsFields : Obligations.BundlePacksItsFields := by
  refine ⟨ofWord_toWord, toWord_ofWord, fun r k => ?_⟩
  obtain ⟨hop, hx, hy, hw, hh, hd⟩ := requestFields_of_append r.op r.x r.y r.w r.h r.d
  refine ⟨fun hk => ?_, getLsbD_of_extractLsb' hx, getLsbD_of_extractLsb' hy, getLsbD_of_extractLsb' hw,
    getLsbD_of_extractLsb' hh, getLsbD_of_extractLsb' hd⟩
  rw [← getLsbD_of_extractLsb' hop hk, Nat.zero_add, Request.toWord]

/-! ## Reading a bundle's bytes back (log 19) -/

theorem length_bytesOfNat (n v : Nat) : (bytesOfNat n v).length = n := by
  induction n generalizing v with
  | zero => rfl
  | succ n ih => simp [bytesOfNat, ih]

theorem natOfBytes_bytesOfNat (n v : Nat) : natOfBytes (bytesOfNat n v) = v % 256 ^ n := by
  induction n generalizing v with
  | zero => simp [bytesOfNat, natOfBytes, Nat.mod_one]
  | succ n ih => rw [bytesOfNat, natOfBytes, ih, BitVec.toNat_ofNat, pow_succ' 256, Nat.mod_mul (b := 256 ^ n)]

/-- The ten bytes of a bundle are decoded as its fields. -/
theorem decode_bundle (r : Request) :
    decode (Code.bundle r).channel (Code.bundle r).bytes = .ok (decodeRequest r) := by
  have hlt : r.toWord.toNat < 2 ^ 76 := r.toWord.isLt
  have hnat : natOfBytes (bytesOfNat 10 r.toWord.toNat) = r.toWord.toNat := by
    rw [natOfBytes_bytesOfNat, Nat.mod_eq_of_lt (Nat.lt_trans hlt (by decide))]
  simp only [Code.channel, Code.bytes, decode, length_bytesOfNat, hnat, BitVec.ofNat_toNat,
    BitVec.setWidth_eq, ofWord_toWord]
  rw [if_neg (by simp), if_neg (Nat.not_le.2 hlt)]

theorem decode_byte (slot : Slot) (b : Byte) :
    decode (Code.byte slot b).channel (Code.byte slot b).bytes = decodeCommand slot b := rfl

/-! ## The operands of a request (R64) -/

theorem sext16_ofInt {v : Int} (h : InCoordRange v) : sext16 (.ofInt 16 v) = v := by
  obtain ⟨hlo, hhi⟩ := h
  rw [sext16, BitVec.toInt_ofInt]
  exact Int.bmod_eq_of_le (by omega) (by omega)

theorem zext16_ofNat {a : Nat} (h : InAddrRange a) : zext16 (.ofNat 16 a) = a := by
  rw [zext16, BitVec.toNat_ofNat]
  exact Nat.mod_eq_of_lt (Nat.lt_succ_of_le h)

@[simp] theorem bit0_bitByte (op : BitVec 4) (x y w h : Field16) (c : Bool) :
    Request.bit0 ⟨op, x, y, w, h, bitByte c⟩ = c := by
  revert c
  simp only [Request.bit0]
  decide

@[simp] theorem level_zeroExtend (op : BitVec 4) (x y w h : Field16) (L : BitVec 3) :
    Request.level ⟨op, x, y, w, h, L.zeroExtend 8⟩ = L := by
  revert L
  simp only [Request.level]
  decide

/-- A field is always in the range its reading as a coordinate or an address has (R64). -/
theorem field16_ranges (v : Field16) : InCoordRange v.toInt ∧ InAddrRange v.toNat :=
  ⟨⟨BitVec.le_toInt v, Int.le_of_lt_add_one (BitVec.toInt_lt (x := v))⟩, Nat.le_of_lt_succ v.isLt⟩

/-! ## The round trip -/

/-- A request is read back from its bundle, when its operands are in range. -/
theorem decodeRequest_of_bundleOf {i : Instr} (hi : i.wellFormed = true) {r : Request}
    (h : bundleOf i = some r) : decodeRequest r = i := by
  cases i <;> simp only [bundleOf, encodeCode, reduceCtorEq, Option.some.injEq] at h <;> subst h
  case set x y c | get x y =>
    obtain ⟨hx, hy⟩ := of_decide_eq_true hi
    simp [decodeRequest, sext16_ofInt hx, sext16_ofInt hy]
  case fillRect x y w h c =>
    obtain ⟨hx, hy, hw, hh⟩ := of_decide_eq_true hi
    simp [decodeRequest, sext16_ofInt hx, sext16_ofInt hy, sext16_ofInt hw, sext16_ofInt hh]
  case bufRd a | bufWr a v =>
    simp [decodeRequest, zext16_ofNat (of_decide_eq_true hi)]
  case fill | setInvert | setContrast => simp [decodeRequest]
  all_goals rfl

/-- A command is read back from its byte at its place, but for the flag that INVERT's byte drops (C1). -/
theorem decodeCommand_of_encodeCode {i : Instr} (hi : i ≠ .invert false) {slot : Slot} {b : Byte}
    (h : encodeCode i = .byte slot b) : decodeCommand slot b = .ok i := by
  have hcon : ∀ L : BitVec 3, decodeCommand .contrast (0x20#8 ||| L.zeroExtend 8) = .ok (.contrast L) := by
    decide
  cases i <;> simp only [encodeCode, reduceCtorEq, Code.byte.injEq] at h <;> obtain ⟨rfl, rfl⟩ := h
  case contrast L => exact hcon L
  case invert f =>
    cases f
    · exact absurd rfl hi
    · rfl
  all_goals rfl

/-- Settles O50: a code is read back from its bytes, as a bundle or as a byte at its place. -/
theorem decodeOfEncodeIsTheInstruction : Obligations.DecodeOfEncodeIsTheInstruction := by
  refine ⟨fun i hwf hne => ?_, rfl⟩
  unfold channelOf encode
  cases hcode : encodeCode i with
  | bundle r => rw [decode_bundle, decodeRequest_of_bundleOf hwf (by rw [bundleOf, hcode])]
  | byte slot b => rw [decode_byte, decodeCommand_of_encodeCode hne hcode]

/-! ## The opcode map and the reserved requests (R64 to R66) -/

/-- Settles O12: each opcode's row of the decoder, and the ranges of the fields. -/
theorem opcodeSelectsTheOperation : Obligations.OpcodeSelectsTheOperation := by
  rintro ⟨op, x, y, w, h, d⟩
  refine ⟨?_, ?_, ?_, ?_, ?_, ?_, ?_, ?_, ?_, ?_, ?_, ?_, ?_, ?_, ?_, ?_, fun v => ?_⟩
  case refine_17 =>
    obtain ⟨⟨hlo, hhi⟩, haddr⟩ := field16_ranges v
    exact ⟨hlo, hhi, haddr⟩
  all_goals rintro rfl; rfl

/-- The reserved requests (R66). -/
def reservedInstrs : List Instr := [.reserved0, .reservedC, .reservedD, .reservedE, .reservedF]

/-- All five reserved requests have one meaning. -/
theorem exec_reserved {i : Instr} (hi : i ∈ reservedInstrs) (s : State) : exec i s = illegalRequest s := by
  simp only [reservedInstrs, List.mem_cons, List.not_mem_nil, or_false] at hi
  rcases hi with rfl | rfl | rfl | rfl | rfl <;> rfl

theorem decodeRequest_reserved {r : Request} (h : r.op ∈ ([0x0, 0xC, 0xD, 0xE, 0xF] : List (BitVec 4))) :
    decodeRequest r ∈ reservedInstrs := by
  obtain ⟨op, x, y, w, h, d⟩ := r
  simp only [List.mem_cons, List.not_mem_nil, or_false] at h
  rcases h with rfl | rfl | rfl | rfl | rfl <;> simp [decodeRequest, reservedInstrs]

/-- Settles O13: a reserved request is `serve` of the response ILLEGAL. -/
theorem reservedRequestsAreIllegal : Obligations.ReservedRequestsAreIllegal := by
  refine ⟨fun r h => decodeRequest_reserved h, fun s i hi => ⟨fun hp => ?_, fun hp => ?_⟩⟩
  · rw [exec_reserved hi, illegalRequest, serve_serving (by rw [hp]; rfl)]
    rfl
  · rw [exec_reserved hi, illegalRequest, serve_faulted ((Phase.isFaulted_iff _).2 hp)]
    rfl

/-! ## The bytes sent (R68 to R91) -/

/-- A command answered Ok: its event, and the shadows after its byte and its own update. -/
theorem exec_command_ok {i : Instr} {b : Byte} (hb : commandByteOf i = some b) {s : State}
    (ha : s.pins.answer = some .ok) :
    ∃ t, exec i s = .next t ∧ t.trace = s.trace ++ [.cmd b (some .ok)] ∧
      t.shDisp = (if b = 0xAF then some true else if b = 0xAE then some false else s.shDisp) ∧
      t.shCon = (applyShadow (shadowOf i) s).shCon ∧ t.shInv = (applyShadow (shadowOf i) s).shInv := by
  refine ⟨_, exec_command hb s, ?_, shDisp_command_ok hb ha, ?_, ?_⟩ <;> rw [emit_ok ha]
  · simp
  · cases shadowOf i <;> rfl
  · cases shadowOf i <;> rfl

/-- CONTRAST's byte: its value, which is never that of a display command (R82). -/
theorem contrastByte (L : BitVec 3) :
    (0x20#8 ||| L.zeroExtend 8).toNat = 0x20 + L.toNat ∧ 0x20#8 ||| L.zeroExtend 8 ≠ 0xAF ∧
      0x20#8 ||| L.zeroExtend 8 ≠ 0xAE := by
  revert L
  decide

/-- Settles O17: the four commands as CMD steps answered Ok. -/
theorem shadowCommandsSendTheirBytes : Obligations.ShadowCommandsSendTheirBytes := by
  intro s ha
  refine ⟨?_, ?_, fun L => ?_, fun f => ?_⟩
  · obtain ⟨t, ht, htr, hd, hc, hi⟩ := exec_command_ok (i := .displayOff) rfl ha
    exact ⟨t, ht, htr, hd, hc, hi⟩
  · obtain ⟨t, ht, htr, hd, hc, hi⟩ := exec_command_ok (i := .displayOn) rfl ha
    exact ⟨t, ht, htr, hd, hc, hi⟩
  · obtain ⟨t, ht, htr, hd, hc, hi⟩ := exec_command_ok (i := .contrast L) rfl ha
    obtain ⟨hval, hon, hoff⟩ := contrastByte L
    rw [if_neg hon, if_neg hoff] at hd
    exact ⟨t, _, ht, htr, hval, hc, hd, hi⟩
  · have hb : commandByteOf (.invert f) = some 0x21 := by cases f <;> rfl
    obtain ⟨t, ht, htr, hd, hc, hi⟩ := exec_command_ok hb ha
    exact ⟨t, ht, htr, hi, hd, hc⟩

/-- Settles O53: the decoder evaluated on each word. -/
theorem writtenOutWordsDecode : Obligations.WrittenOutWordsDecode := by
  unfold Obligations.WrittenOutWordsDecode
  decide

/-- A stream of commands, each encoded at the place the one before it leaves (R91, log 18). -/
def InPlace : Slot → List Instr → Prop
  | _, [] => True
  | slot, i :: is => i ≠ .invert false ∧ (∃ b, encodeCode i = .byte slot b) ∧ InPlace (slotAfter i) is

/-- The bytes of such a stream are read back in order. -/
theorem decodeStream_of_inPlace {slot : Slot} {is : List Instr} (h : InPlace slot is) :
    decodeStream slot (is.filterMap commandByteOf) = .ok is := by
  induction is generalizing slot with
  | nil => rfl
  | cons i is ih =>
    obtain ⟨hne, ⟨b, hcode⟩, hrest⟩ := h
    have hb : commandByteOf i = some b := by rw [commandByteOf, hcode]
    simp only [List.filterMap_cons_some hb, decodeStream, decodeCommand_of_encodeCode hne hcode, ih hrest]

/-- INIT's commands: the soft reset where there is no reset line, the configuration, the orientation pair, the
addresses and the display-on (R115 of 41_sequencer_init.md). -/
theorem initCommands_eq (c : Config) :
    initCommands c = (if c.hasRst then [] else [.softReset]) ++ configCommands c ++ orientationPair c ++
      [.pageAddr0, .colHi0, .colLo0, .displayOn] := by
  unfold initCommands
  cases h : c.hasRst with
  | false => rw [initScript_soft h]; rfl
  | true => rw [initScript_hardware h]; rfl

theorem inPlace_initCommands (c : Config) : InPlace .main (initCommands c) := by
  rw [initCommands_eq, orientationPair]
  cases c.hasRst <;> cases c.orient <;>
    simp [configCommands, scanMirrorOf, ramControlOf, InPlace, slotAfter, encodeCode]

/-- Settles O38: every byte of INIT stands at the place that tells its meaning from the others of its value. -/
theorem initCommandStreamDecodes : Obligations.InitCommandStreamDecodes :=
  fun c => decodeStream_of_inPlace (inPlace_initCommands c)

/-! ## Only the listed bytes are sent (R89) -/

/-- A command event has a byte of the list, and a data event the bytes of the framebuffer. -/
def Listed (s : State) (e : Event) : Prop :=
  (∀ b a, e = .cmd b a → b ∈ commandBytes s.cfg) ∧ (∀ bs a, e = .data bs a → bs = s.fb.bytes s.cfg.N)

/-- From `s` on, the trace is extended by listed events only. -/
def Extends (s t : State) : Prop := ∃ es, t.trace = s.trace ++ es ∧ ∀ e ∈ es, Listed s e

theorem extends_of_trace_eq {s t : State} (h : t.trace = s.trace) : Extends s t :=
  ⟨[], by simp [h], by simp⟩

theorem extends_of_event {s t : State} {e : Event} (h : t.trace = s.trace ++ [e]) (he : Listed s e) :
    Extends s t :=
  ⟨[e], h, by simpa using he⟩

/-- An event that is no transaction needs no list. -/
theorem listed_of_not_transaction {e : Event} (h : isTransaction e = false) (s : State) : Listed s e := by
  cases e <;> simp_all [Listed, isTransaction]

/-- The transaction of the step at `seq_ptr` is listed, whatever its answer. -/
theorem StepSends.listed {s : State} {t : Transaction} (h : StepSends s t) (a : Option Answer) :
    Listed s (t.event a) := by
  obtain ⟨i, b, l, hc, hb, rfl⟩ | ⟨l, -, rfl⟩ := h
  · obtain ⟨b', hb', hm⟩ := scriptCommand_byte hc
    obtain rfl := Option.some.inj (hb.symm.trans hb')
    simpa [Listed] using hm
  · simp [Listed]

/-- An abandoned transaction is the one of its step. -/
theorem blockReset_extends {s : State} (hi : Inv s) : Extends s (blockReset s) := by
  cases htx : s.tx with
  | none => exact extends_of_trace_eq (by simp [abandonedEvents, htx])
  | some f =>
    exact extends_of_event (by simp [abandonedEvents, htx]) ((stepSends_of_tx hi htx).listed none)

/-- A transaction step adds its event once it is answered, and the response TRANSPORT_ERR on an Err. -/
theorem emit_extends {s : State} {t : Transaction} (ht : StepSends s t) (u : ShadowUpdate) :
    Extends s (emit t u s) := by
  rcases emit_cases t u s with ⟨-, h⟩ | ⟨-, h⟩ | ⟨-, h⟩ <;> rw [h]
  · exact extends_of_event (by simp) (ht.listed (some .ok))
  · cases hs : s.script with
    | none | init => exact extends_of_event (by simp [hs]) (ht.listed (some .err))
    | req r =>
      exact ⟨[t.event (some .err), .rsp .transportErr 0x00], by simp [hs],
        by simpa using ⟨ht.listed _, listed_of_not_transaction rfl s⟩⟩
  · exact extends_of_trace_eq (by simp)

theorem uninitStep_trace (s : State) : (uninitStep s).trace = s.trace := by
  unfold uninitStep
  split <;> rfl

theorem delayStep_extends (ms : Nat) (s : State) : Extends s (delayStep ms s) := by
  unfold delayStep
  split_ifs
  · exact extends_of_trace_eq rfl
  · exact extends_of_trace_eq rfl
  · exact extends_of_trace_eq rfl
  · exact extends_of_event rfl (listed_of_not_transaction rfl s)

theorem endScript_extends (s : State) : Extends s (endScript s) := by
  unfold endScript
  split
  · exact extends_of_trace_eq rfl
  · exact extends_of_trace_eq rfl
  · exact extends_of_event rfl (listed_of_not_transaction rfl s)

/-- Everything a step can do extends the trace by listed events. -/
theorem extends_of_took {s t : State} (hi : Inv s) (h : Took s t) : Extends s t := by
  cases h with
  | blockReset hr ht => exact ht ▸ blockReset_extends hi
  | uninit hr hp ht => exact extends_of_trace_eq (ht ▸ uninitStep_trace s)
  | delay ms lab hr hp hc ht => exact ht ▸ delayStep_extends ms s
  | cmd i b lab hr hp hc hb hm ht => exact ht ▸ emit_extends (.inl ⟨i, b, lab, hc, hb, rfl⟩) _
  | data lab hr hp hc ht =>
    exact ht ▸ emit_extends (.inr ⟨lab, hc, by rw [dataBytes_eq hi hc]⟩) _
  | ended hr hp hs he ht => exact ht ▸ endScript_extends s
  | answeredFaulted _ _ _ _ _ ht | answeredNow _ _ _ _ _ _ _ _ ht | rst _ _ _ _ _ ht =>
    subst ht
    exact extends_of_event rfl (listed_of_not_transaction rfl s)
  | taken _ _ _ _ _ _ ht | waited _ _ _ ht | started _ _ _ _ _ _ _ ht | clearBuf _ _ _ _ ht =>
    exact extends_of_trace_eq (ht ▸ rfl)

/-- Settles O43: the case list `Took`, and the invariant for what is outstanding. -/
theorem onlyTheListedBytesAreSent : Obligations.OnlyTheListedBytesAreSent := by
  intro s t hi h
  simpa [Extends, Listed] using extends_of_took (inv_sample hi) (took_of_step hi.config h)

/-! ## The assembler: operands (R92) -/

/-- A value where the operands are in range, and the refusal otherwise. -/
def checked {α : Type} (p : Prop) [Decidable p] (a : α) : Except AsmError α :=
  if p then .ok a else .error .outOfRange

theorem checked_of {α : Type} {p : Prop} [Decidable p] (h : p) (a : α) : checked p a = .ok a := if_pos h

theorem checked_of_not {α : Type} {p : Prop} [Decidable p] (h : ¬ p) (a : α) :
    checked p a = .error .outOfRange := if_neg h

/-- Two checks one after the other are one check: both refuse alike. -/
theorem checked_bind {α β : Type} (p q : Prop) [Decidable p] [Decidable q] (a : α) (f : α → β) :
    (checked p a >>= fun a => checked q (f a)) = checked (p ∧ q) (f a) := by
  by_cases hp : p
  · simp only [checked, hp, if_true, true_and]
    rfl
  · simp only [checked, hp, if_false, false_and]
    rfl

theorem checked_bind_pure {α β : Type} (p : Prop) [Decidable p] (a : α) (f : α → β) :
    (checked p a >>= fun a => pure (f a)) = checked p (f a) := by
  by_cases hp : p <;> simp only [checked, hp, if_true, if_false] <;> rfl

theorem map_inRange {α : Type} (lo hi v : Int) (f : Int → α) :
    (inRange lo hi v).map f = checked (lo ≤ v ∧ v ≤ hi) (f v) := by
  unfold inRange checked
  split <;> rfl

/-- The field of an operand may be written in any form that agrees with it in range. -/
theorem checked_congr {α : Type} {p : Prop} [Decidable p] {a b : α} (h : p → a = b) :
    checked p a = checked p b := by
  unfold checked
  split
  · rw [h ‹_›]
  · rfl

theorem coordOperand_eq (v : Int) : coordOperand v = checked (InCoordRange v) (.ofInt 16 v) := map_inRange ..

theorem byteOperand_eq (v : Int) : byteOperand v = checked (0 ≤ v ∧ v ≤ 255) (.ofInt 8 v) := map_inRange ..

theorem flagOperand_eq (v : Int) :
    flagOperand v = checked (0 ≤ v ∧ v ≤ 1) (bitByte (decide (v = 1))) := by
  refine (map_inRange ..).trans (checked_congr fun ⟨hlo, hhi⟩ => ?_)
  interval_cases v <;> rfl

theorem addrOperand_eq (a : Int) :
    addrOperand a = checked (0 ≤ a ∧ a ≤ 65535) (.ofNat 16 a.toNat) := by
  refine (map_inRange ..).trans (checked_congr fun ⟨hlo, _⟩ => ?_)
  rw [← BitVec.ofInt_natCast, Int.toNat_of_nonneg hlo]

/-! ## The assembler: a mnemonic and its operands (R92) -/

theorem assembleOp_set (x y c : Int) :
    assembleOp .set [x, y, c] = checked (InCoordRange x ∧ InCoordRange y ∧ 0 ≤ c ∧ c ≤ 1)
      ⟨0x1, .ofInt 16 x, .ofInt 16 y, 0, 0, bitByte (decide (c = 1))⟩ := by
  simp only [assembleOp, coordOperand_eq, flagOperand_eq, checked_bind_pure, checked_bind]

theorem assembleOp_get (x y : Int) :
    assembleOp .get [x, y] = checked (InCoordRange x ∧ InCoordRange y)
      ⟨0x2, .ofInt 16 x, .ofInt 16 y, 0, 0, 0⟩ := by
  simp only [assembleOp, coordOperand_eq, checked_bind_pure, checked_bind]

theorem assembleOp_fill (c : Int) :
    assembleOp .fill [c] = checked (0 ≤ c ∧ c ≤ 1) ⟨0x3, 0, 0, 0, 0, bitByte (decide (c = 1))⟩ := by
  simp only [assembleOp, flagOperand_eq, checked_bind_pure]

theorem assembleOp_fillRect (x y w h c : Int) :
    assembleOp .fillRect [x, y, w, h, c] =
      checked (InCoordRange x ∧ InCoordRange y ∧ InCoordRange w ∧ InCoordRange h ∧ 0 ≤ c ∧ c ≤ 1)
        ⟨0x4, .ofInt 16 x, .ofInt 16 y, .ofInt 16 w, .ofInt 16 h, bitByte (decide (c = 1))⟩ := by
  simp only [assembleOp, coordOperand_eq, flagOperand_eq, checked_bind_pure, checked_bind]

theorem assembleOp_setContrast (v : Int) :
    assembleOp .setContrast [v] = checked (0 ≤ v ∧ v ≤ 255) ⟨0x8, 0, 0, 0, 0, .ofInt 8 v⟩ := by
  simp only [assembleOp, byteOperand_eq, checked_bind_pure]

theorem assembleOp_setInvert (f : Int) :
    assembleOp .setInvert [f] = checked (0 ≤ f ∧ f ≤ 1) ⟨0x9, 0, 0, 0, 0, bitByte (decide (f = 1))⟩ := by
  simp only [assembleOp, flagOperand_eq, checked_bind_pure]

theorem assembleOp_bufRd (a : Int) :
    assembleOp .bufRd [a] = checked (0 ≤ a ∧ a ≤ 65535) ⟨0xA, .ofNat 16 a.toNat, 0, 0, 0, 0⟩ := by
  simp only [assembleOp, addrOperand_eq, checked_bind_pure]

theorem assembleOp_bufWr (a v : Int) :
    assembleOp .bufWr [a, v] = checked ((0 ≤ a ∧ a ≤ 65535) ∧ 0 ≤ v ∧ v ≤ 255)
      ⟨0xB, .ofNat 16 a.toNat, 0, 0, 0, .ofInt 8 v⟩ := by
  simp only [assembleOp, addrOperand_eq, byteOperand_eq, checked_bind_pure, checked_bind]

/-- A mnemonic that checks its operands and answers the encoding of a request assembles to that request in
range, and is refused out of range. -/
theorem assembles_of_checked {op : AsmOp} {args : List Int} {p : Prop} [Decidable p] {r : Request} {i : Instr}
    (h : assembleOp op args = checked p r) (hb : bundleOf i = some r) (hw : p → i.wellFormed = true) :
    (p → ∃ r, assembleOp op args = .ok r ∧ bundleOf i = some r ∧ decodeRequest r = i) ∧
      (¬ p → assembleOp op args = .error .outOfRange) :=
  ⟨fun hp => ⟨r, h.trans (checked_of hp r), hb, decodeRequest_of_bundleOf (hw hp) hb⟩,
    fun hp => h.trans (checked_of_not hp r)⟩

/-- The decoder masks the level of SET_CONTRAST's byte. -/
theorem decodeRequest_contrastByte (v : Int) :
    decodeRequest ⟨0x8, 0, 0, 0, 0, .ofInt 8 v⟩ = .setContrast (.ofInt 3 v) := by
  have hlevel : (BitVec.ofInt 8 v).extractLsb' 0 3 = BitVec.ofInt 3 v := by
    apply BitVec.eq_of_toNat_eq
    simp only [BitVec.extractLsb'_toNat, BitVec.toNat_ofInt, Nat.shiftRight_zero]
    omega
  exact congrArg Instr.setContrast hlevel

/-- Settles O52: every operand is a check, so a mnemonic is one check of them all. -/
theorem assemblerEncodesItsOperands : Obligations.AssemblerEncodesItsOperands := by
  refine ⟨fun x y c => ?_, fun x y => ?_, fun x y w h c => ?_, fun v => ?_, fun a v => ?_,
    ⟨rfl, rfl⟩, ⟨rfl, rfl⟩, rfl, rfl⟩
  · exact assembles_of_checked (assembleOp_set x y c) rfl
      fun ⟨hx, hy, _⟩ => decide_eq_true ⟨hx, hy⟩
  · exact assembles_of_checked (assembleOp_get x y) rfl fun hxy => decide_eq_true hxy
  · exact assembles_of_checked (assembleOp_fillRect x y w h c) rfl
      fun ⟨hx, hy, hw, hh, _⟩ => decide_eq_true ⟨hx, hy, hw, hh⟩
  · obtain ⟨hfill, hfill'⟩ := assembles_of_checked (i := .fill (decide (v = 1)))
      (assembleOp_fill v) rfl fun _ => rfl
    obtain ⟨hinv, hinv'⟩ := assembles_of_checked (i := .setInvert (decide (v = 1)))
      (assembleOp_setInvert v) rfl fun _ => rfl
    have hcon := assembleOp_setContrast v
    exact ⟨fun hv => ⟨hfill hv, hinv hv⟩, fun hv => ⟨hfill' hv, hinv' hv⟩,
      fun hv => ⟨_, hcon.trans (checked_of hv _), rfl, decodeRequest_contrastByte v⟩,
      fun hv => hcon.trans (checked_of_not hv _)⟩
  · have haddr : 0 ≤ a ∧ a ≤ 65535 → InAddrRange a.toNat := by omega
    obtain ⟨hrd, hrd'⟩ := assembles_of_checked (i := .bufRd a.toNat) (assembleOp_bufRd a) rfl
      fun ha => decide_eq_true (haddr ha)
    obtain ⟨hwr, hwr'⟩ := assembles_of_checked (i := .bufWr a.toNat (.ofInt 8 v)) (assembleOp_bufWr a v) rfl
      fun hav => decide_eq_true (haddr hav.1)
    rw [and_assoc] at hwr hwr'
    exact ⟨hrd, hrd', hwr, hwr'⟩

/-! ## The assembler: numbers (R92) -/

theorem digitValue_digitChar {base d : Nat} (hb : base ≤ 16) (hd : d < base) :
    digitValue base d.digitChar = some d := by
  have h16 : d < 16 := Nat.lt_of_lt_of_le hd hb
  unfold digitValue
  interval_cases d <;> exact if_pos hd

theorem digitsFrom_append (base acc : Nat) (l m : List Char) :
    digitsFrom base acc (l ++ m) = (digitsFrom base acc l).bind fun n => digitsFrom base n m := by
  induction l generalizing acc with
  | nil => rfl
  | cons c l ih => cases h : digitValue base c <;> simp [digitsFrom, h, ih]

/-- The digits of a number are read as it: the last digit after the digits before it. -/
theorem digitsFrom_toDigits {base : Nat} (h1 : 1 < base) (hb : base ≤ 16) (n : Nat) :
    digitsFrom base 0 (Nat.toDigits base n) = some n := by
  induction n using Nat.strong_induction_on with
  | _ n ih =>
    by_cases hn : n < base
    · simp [Nat.toDigits_of_lt_base hn, digitsFrom, digitValue_digitChar hb hn]
    · have hlt : n / base < n := Nat.div_lt_self (by omega) h1
      have hmod : n % base < base := Nat.mod_lt _ (by omega)
      rw [Nat.toDigits_of_base_le h1 (by omega), digitsFrom_append, ih _ hlt]
      simp [digitsFrom, digitValue_digitChar hb hmod, Nat.div_add_mod]

theorem digits_toDigits {base : Nat} (h1 : 1 < base) (hb : base ≤ 16) (n : Nat) :
    digits base (Nat.toDigits base n) = some n := by
  rw [← digitsFrom_toDigits h1 hb n]
  cases h : Nat.toDigits base n with
  | nil => exact absurd h Nat.toDigits_ne_nil
  | cons c l => rfl

/-- Decimal digits are neither a hexadecimal number nor a negative one, so they are read as they stand. -/
theorem number_of_digits {text : List Char} {n : Nat} (h : digits 10 text = some n) (signed : Bool) :
    number signed text = .ok (n : Int) := by
  have hx : ∀ rest, digits 10 ('0' :: 'x' :: rest) = none := fun _ => rfl
  have hminus : ∀ rest, digits 10 ('-' :: rest) = none := fun _ => rfl
  unfold number
  split
  next rest => rw [hx] at h; cases h
  next rest => rw [hminus] at h; cases h
  next => rw [h]; rfl

/-- Settles O59: digits are read one after the other, and the first two characters tell which base. -/
theorem assemblerReadsNumbers : Obligations.AssemblerReadsNumbers := by
  intro n signed
  have hdec := digits_toDigits (base := 10) (by decide) (by decide) n
  have hhex := digits_toDigits (base := 16) (by decide) (by decide) n
  refine ⟨number_of_digits hdec signed, ?_, ?_, fun text => rfl, rfl, ?_, rfl⟩
  · rw [number, hhex]
    rfl
  · rw [number, hdec]
    rfl
  · cases signed <;> rfl

/-! ## The assembler: lines of text (R92, log 33) -/

/-- Text that begins and ends with no blank. -/
def Tight (text : List Char) : Prop :=
  ∀ h : text ≠ [], isBlank (text.head h) = false ∧ isBlank (text.getLast h) = false

theorem trim_eq_rdropWhile (text : List Char) :
    trim text = (text.dropWhile isBlank).rdropWhile isBlank := rfl

theorem trim_of_tight {text : List Char} (h : Tight text) : trim text = text := by
  cases text with
  | nil => rfl
  | cons c text =>
    obtain ⟨hhead, hlast⟩ := h (List.cons_ne_nil c text)
    rw [List.head_cons] at hhead
    rw [trim_eq_rdropWhile, List.dropWhile_cons_of_neg (by simp [hhead]), List.rdropWhile_eq_self_iff]
    intro hne
    simp [hlast]

/-- Blanks in front do not count. -/
theorem trim_append_of_blank {blanks : List Char} (h : ∀ c ∈ blanks, isBlank c = true) (text : List Char) :
    trim (blanks ++ text) = trim text := by
  rw [trim_eq_rdropWhile, List.dropWhile_append_of_pos h, ← trim_eq_rdropWhile]

theorem tight_of_no_blank {text : List Char} (h : ∀ c ∈ text, isBlank c = false) : Tight text :=
  fun hne => ⟨h _ (List.head_mem hne), h _ (List.getLast_mem hne)⟩

/-- Two tight texts with anything between them. -/
theorem tight_append {a b : List Char} (ha : Tight a) (hb : Tight b) (ha' : a ≠ []) (hb' : b ≠ [])
    (m : List Char) : Tight (a ++ (m ++ b)) := by
  intro hne
  rw [List.head_append_of_ne_nil ha', List.getLast_append_of_ne_nil _ (by simp [hb']),
    List.getLast_append_of_ne_nil _ hb']
  exact ⟨(ha ha').1, (hb hb').2⟩

/-- The text before the comment is all that a line is read for. -/
theorem assembleLine_congr {line line' : List Char}
    (h : line.takeWhile (· != ';') = line'.takeWhile (· != ';')) : assembleLine line = assembleLine line' := by
  unfold assembleLine
  rw [h]

theorem takeWhile_not_comment {line : List Char} (h : ';' ∉ line) : line.takeWhile (· != ';') = line := by
  rw [List.takeWhile_eq_self_iff]
  intro c hc
  simpa using ne_of_mem_of_not_mem hc h

/-- A comment has no influence. -/
theorem assembleLine_comment {line : List Char} (h : ';' ∉ line) (comment : List Char) :
    assembleLine (line ++ ';' :: comment) = assembleLine line := by
  apply assembleLine_congr
  rw [List.takeWhile_append_of_pos (List.takeWhile_eq_self_iff.1 (takeWhile_not_comment h)),
    List.takeWhile_cons_of_neg (by simp), List.append_nil, takeWhile_not_comment h]

theorem assembleLine_blank {line : List Char} (h : ∀ c ∈ line, isBlank c = true) :
    assembleLine line = .ok none := by
  have hcomment : ';' ∉ line := fun hc => absurd (h _ hc) (by decide)
  have htrim : trim line = [] := by
    have := trim_append_of_blank h []
    rwa [List.append_nil] at this
  simp [assembleLine, takeWhile_not_comment hcomment, htrim]

/-! ### The mnemonic -/

theorem AsmOp.text_ne_nil (op : AsmOp) : op.text ≠ [] := by
  cases op <;> simp [AsmOp.text]

theorem AsmOp.text_no_blank (op : AsmOp) : ∀ c ∈ op.text, isBlank c = false := by
  cases op <;> simp [AsmOp.text, isBlank]

theorem AsmOp.text_no_comment (op : AsmOp) : ';' ∉ op.text := by
  cases op <;> simp [AsmOp.text]

theorem AsmOp.text_tight (op : AsmOp) : Tight op.text := tight_of_no_blank op.text_no_blank

/-- A mnemonic's text is no other mnemonic's. -/
theorem AsmOp.find_text (op : AsmOp) : (AsmOp.all.find? fun o => o.text == op.text) = some op := by
  cases op <;> rfl

/-- A line whose text starts with a mnemonic as its first word is read as that mnemonic and what follows. -/
theorem assembleLine_of_mnemonic {line : List Char} {op : AsmOp} {rest : List Char}
    (htext : trim (line.takeWhile (· != ';')) = op.text ++ rest)
    (hrest : ∀ c ∈ rest.head?, isBlank c = true) :
    assembleLine line =
      (numbers op.signedOperands (if (trim rest).isEmpty then [] else parts (trim rest))).bind
        fun vs => (assembleOp op vs).map some := by
  have hword : ∀ c ∈ op.text, (!isBlank c) = true := fun c hc => by simp [op.text_no_blank c hc]
  have hname : (op.text ++ rest).takeWhile (fun c => !isBlank c) = op.text := by
    rw [List.takeWhile_append_of_pos hword]
    cases rest with
    | nil => simp
    | cons c rest => simp [hrest c rfl]
  have hargs : (op.text ++ rest).dropWhile (fun c => !isBlank c) = rest := by
    rw [List.dropWhile_append_of_pos hword]
    cases rest with
    | nil => simp
    | cons c rest => simp [hrest c rfl]
  have hne : (op.text ++ rest).isEmpty = false := by simp [op.text_ne_nil]
  simp only [assembleLine, htext, hne, hname, hargs, op.find_text, Bool.false_eq_true, if_false]
  cases numbers op.signedOperands (if (trim rest).isEmpty then [] else parts (trim rest)) <;> rfl

/-- A line that assembles to a bundle has a mnemonic as its first word. -/
theorem mnemonic_of_assembleLine {line : List Char} {r : Request} (h : assembleLine line = .ok (some r)) :
    ∃ op vs, (trim (line.takeWhile (· != ';'))).takeWhile (fun c => !isBlank c) = AsmOp.text op ∧
      assembleOp op vs = .ok r := by
  simp only [assembleLine] at h
  split at h
  · cases h
  split at h
  · cases h
  next op hop =>
    split at h
    · cases h
    next vs hvs =>
      have hname := List.find?_some hop
      refine ⟨op, vs, (eq_of_beq hname).symm, ?_⟩
      cases hr : assembleOp op vs with
      | error e => rw [hr] at h; cases h
      | ok r' => rw [hr] at h; cases h; rfl

/-! ### The operand list -/

/-- Operand texts separated by commas, each after the first with blanks before it. -/
def operandText (p : List Char) (ps : List (List Char × List Char)) : List Char :=
  p ++ ps.flatMap fun q => ',' :: (q.1 ++ q.2)

@[simp] theorem operandText_nil (p : List Char) : operandText p [] = p := by simp [operandText]

@[simp] theorem operandText_cons (p : List Char) (q : List Char × List Char)
    (ps : List (List Char × List Char)) :
    operandText p (q :: ps) = p ++ ',' :: operandText (q.1 ++ q.2) ps := by
  simp [operandText]

theorem parts_ne_nil (text : List Char) : parts text ≠ [] := by
  cases text with
  | nil => simp [parts]
  | cons c text =>
    simp only [parts]
    split
    · simp
    · split <;> simp

theorem parts_comma (text : List Char) : parts (',' :: text) = [] :: parts text := by
  simp only [parts]
  split
  · exact absurd ‹_› (parts_ne_nil text)
  · simp [*]

/-- A word without a comma goes to the front of the first part. -/
theorem parts_append {w : List Char} (hw : ∀ c ∈ w, c ≠ ',') {text p : List Char} {ps : List (List Char)}
    (h : parts text = p :: ps) : parts (w ++ text) = (w ++ p) :: ps := by
  induction w with
  | nil => exact h
  | cons c w ih =>
    obtain ⟨hc, hw⟩ := List.forall_mem_cons.1 hw
    simp [parts, ih hw, hc]

theorem parts_operandText {p : List Char} (hp : ∀ c ∈ p, c ≠ ',') {ps : List (List Char × List Char)}
    (hps : ∀ q ∈ ps, ∀ c ∈ q.1 ++ q.2, c ≠ ',') :
    parts (operandText p ps) = p :: ps.map fun q => q.1 ++ q.2 := by
  induction ps generalizing p with
  | nil => simpa using parts_append hp (text := []) rfl
  | cons q ps ih =>
    obtain ⟨hq, hps⟩ := List.forall_mem_cons.1 hps
    rw [operandText_cons, List.map_cons, ← ih hq hps]
    simpa using parts_append hp (parts_comma _)

/-- The numbers are read from the parts without the blanks around them. -/
theorem numbers_congr {signed : Nat} {ps qs : List (List Char)} (h : ps.map trim = qs.map trim) :
    numbers signed ps = numbers signed qs := by
  induction ps generalizing qs signed with
  | nil => rw [List.map_eq_nil_iff.1 h.symm]
  | cons p ps ih =>
    obtain ⟨q, qs, rfl, hq, hqs⟩ := List.map_eq_cons_iff.1 h.symm
    rw [numbers, numbers, hq, ih hqs.symm]

/-- The text of one operand: not empty, without blanks and separators. -/
structure IsOperand (w : List Char) : Prop where
  ne_nil : w ≠ []
  no_blank : ∀ c ∈ w, isBlank c = false
  no_comma : ∀ c ∈ w, c ≠ ','
  no_comment : ∀ c ∈ w, c ≠ ';'

/-- An operand with blanks before it. -/
structure IsBlankOperand (q : List Char × List Char) : Prop where
  blanks : ∀ c ∈ q.1, isBlank c = true
  operand : IsOperand q.2

theorem isOperand_of_chars {w : List Char} (hne : w ≠ [])
    (h : ∀ c ∈ w, isBlank c = false ∧ c ≠ ',' ∧ c ≠ ';') : IsOperand w where
  ne_nil := hne
  no_blank c hc := (h c hc).1
  no_comma c hc := (h c hc).2.1
  no_comment c hc := (h c hc).2.2

theorem not_separator_of_blank {c : Char} (h : isBlank c = true) : c ≠ ',' ∧ c ≠ ';' := by
  constructor <;> rintro rfl <;> cases h

theorem IsBlankOperand.no_comma {q : List Char × List Char} (h : IsBlankOperand q) :
    ∀ c ∈ q.1 ++ q.2, c ≠ ',' :=
  List.forall_mem_append.2 ⟨fun c hc => (not_separator_of_blank (h.blanks c hc)).1, h.operand.no_comma⟩

theorem IsBlankOperand.no_comment {q : List Char × List Char} (h : IsBlankOperand q) :
    ∀ c ∈ q.1 ++ q.2, c ≠ ';' :=
  List.forall_mem_append.2 ⟨fun c hc => (not_separator_of_blank (h.blanks c hc)).2, h.operand.no_comment⟩

theorem operandText_ne_nil {p : List Char} (hp : p ≠ []) (ps : List (List Char × List Char)) :
    operandText p ps ≠ [] := by
  simp [operandText, hp]

theorem operandText_tight {p : List Char} (hp : IsOperand p) {ps : List (List Char × List Char)}
    (hps : ∀ q ∈ ps, IsBlankOperand q) : Tight (operandText p ps) := by
  induction ps generalizing p with
  | nil => simpa using tight_of_no_blank hp.no_blank
  | cons q ps ih =>
    obtain ⟨⟨-, hq⟩, hps⟩ := List.forall_mem_cons.1 hps
    have h := tight_append (tight_of_no_blank hp.no_blank) (ih hq hps) hp.ne_nil
      (operandText_ne_nil hq.ne_nil ps) (',' :: q.1)
    simpa [operandText] using h

theorem operandText_no_comment {p : List Char} (hp : IsOperand p) {ps : List (List Char × List Char)}
    (hps : ∀ q ∈ ps, IsBlankOperand q) : ';' ∉ operandText p ps := by
  have hfirst : ';' ∉ p := fun h => hp.no_comment _ h rfl
  have hothers : ∀ q ∈ ps, ';' ∉ q.1 ++ q.2 := fun q hq h => (hps q hq).no_comment _ h rfl
  simpa [operandText, hfirst] using hothers

/-- The numbers of an operand list are those of its operands. -/
theorem numbers_parts_operandText (signed : Nat) {p : List Char} (hp : IsOperand p)
    {ps : List (List Char × List Char)} (hps : ∀ q ∈ ps, IsBlankOperand q) :
    numbers signed (parts (operandText p ps)) = numbers signed (p :: ps.map (·.2)) := by
  rw [parts_operandText hp.no_comma fun q hq => (hps q hq).no_comma]
  apply numbers_congr
  simp only [List.map_cons, List.map_map, List.cons.injEq, true_and]
  exact List.map_congr_left fun q hq => trim_append_of_blank (hps q hq).blanks q.2

/-! ### The line -/

theorem assembleLine_mnemonic_alone (op : AsmOp) : assembleLine op.text = (assembleOp op []).map some := by
  have htext : trim (op.text.takeWhile (· != ';')) = op.text ++ [] := by
    rw [takeWhile_not_comment op.text_no_comment, trim_of_tight op.text_tight, List.append_nil]
  exact assembleLine_of_mnemonic htext (by simp)

theorem assembleLine_operands (op : AsmOp) {p : List Char} (hp : IsOperand p)
    {ps : List (List Char × List Char)} (hps : ∀ q ∈ ps, IsBlankOperand q) :
    assembleLine (op.text ++ ' ' :: operandText p ps) =
      (numbers op.signedOperands (p :: ps.map (·.2))).bind fun vs => (assembleOp op vs).map some := by
  have htight := operandText_tight hp hps
  have hne := operandText_ne_nil hp.ne_nil ps
  have hcomment : ';' ∉ op.text ++ ' ' :: operandText p ps := by
    simp [op.text_no_comment, operandText_no_comment hp hps]
  have htext : trim ((op.text ++ ' ' :: operandText p ps).takeWhile (· != ';')) =
      op.text ++ ' ' :: operandText p ps := by
    rw [takeWhile_not_comment hcomment]
    exact trim_of_tight (tight_append op.text_tight htight op.text_ne_nil hne [' '])
  have hrest : trim (' ' :: operandText p ps) = operandText p ps :=
    (trim_append_of_blank (blanks := [' ']) (by simp [isBlank]) _).trans (trim_of_tight htight)
  rw [assembleLine_of_mnemonic htext (by simp [isBlank]), hrest, List.isEmpty_eq_false_iff.2 hne,
    if_neg Bool.false_ne_true, numbers_parts_operandText _ hp hps]

/-- Settles O58: what is cut off a line, then its first word, then its parts. -/
theorem assemblerReadsALine : Obligations.AssemblerReadsALine := by
  refine ⟨assembleLine_mnemonic_alone, fun op p ps hne hp hps => ?_,
    fun line comment h => assembleLine_comment h comment, fun line h => assembleLine_blank h,
    fun line r h => mnemonic_of_assembleLine h⟩
  have hops : ∀ q ∈ ps, IsBlankOperand q := fun q hq => by
    obtain ⟨hne, hblanks, hchars⟩ := hps q hq
    exact ⟨hblanks, isOperand_of_chars hne hchars⟩
  refine (assembleLine_operands op (isOperand_of_chars hne hp) hops).trans ?_
  cases numbers op.signedOperands (p :: ps.map (·.2)) <;> rfl

end Sys2Proof.Machine

/-! # Pixel buffer operations (40_pixel_ops.md): SET, GET, FILL, FILL_RECT, BUF_RD, BUF_WR -/

namespace Sys2Proof.Machine

/-! ## What each operation answers in a phase that serves it -/

theorem not_faulted_of_poweredOn {s : State} (hp : s.phase = .poweredOn) : s.phase.isFaulted = false := by
  rw [hp]; rfl

theorem exec_set_of_serving {s : State} (hf : s.phase.isFaulted = false) (x y : Int) (c : Bool) :
    exec (.set x y c) s = .next (respond .ok 0x00 (setFb (s.fb.setPixel s.cfg x y c) s)) := by
  have h : exec (.set x y c) s = execSet x y c s := rfl
  rw [h, execSet, serve_serving hf]

theorem exec_fill_of_serving {s : State} (hf : s.phase.isFaulted = false) (c : Bool) :
    exec (.fill c) s =
      .next (respond .ok 0x00 (setFb (s.fb.fill s.cfg.N (if c then 0xFF#8 else 0x00#8)) s)) := by
  have h : exec (.fill c) s = execFill c s := rfl
  rw [h, execFill]
  exact serve_serving hf _

theorem exec_fillRect_of_serving {s : State} (hf : s.phase.isFaulted = false) (x y w h : Int) (c : Bool) :
    exec (.fillRect x y w h c) s =
      .next (respond .ok 0x00 (setFb (s.fb.fillRect s.cfg x y w h c) s)) := by
  have h : exec (.fillRect x y w h c) s = execFillRect x y w h c s := rfl
  rw [h, execFillRect, serve_serving hf]

theorem exec_get_of_mapped {s : State} (hf : s.phase.isFaulted = false) {x y : Int} {p : Place}
    (hmap : mapPixel s.cfg x y = some p) :
    exec (.get x y) s = .next (respond .ok (bitByte (s.fb.readBit p)) s) := by
  have h : exec (.get x y) s = execGet x y s := rfl
  rw [h, execGet, serve_serving hf, hmap]

/-- GET after an operation that left the framebuffer `m` and answered OK. -/
theorem exec_get_after_drawing {s : State} (hf : s.phase.isFaulted = false) {x y : Int} {p : Place}
    (hmap : mapPixel s.cfg x y = some p) (m : Mem) :
    exec (.get x y) (respond .ok 0x00 (setFb m s)) =
      .next (respond .ok (bitByte (m.readBit p)) (respond .ok 0x00 (setFb m s))) :=
  exec_get_of_mapped (s := respond .ok 0x00 (setFb m s)) hf hmap

theorem exec_get_of_not_inBounds {s : State} (hf : s.phase.isFaulted = false) {x y : Int}
    (hout : ¬ InBounds s.cfg x y) : exec (.get x y) s = .next (respond .oob 0x00 s) := by
  have h : exec (.get x y) s = execGet x y s := rfl
  rw [h, execGet, serve_serving hf, (mapPixel_eq_none_iff ..).2 hout]

theorem exec_bufRd_of_ge {s : State} (hf : s.phase.isFaulted = false) {a : Nat} (ha : s.cfg.N ≤ a) :
    exec (.bufRd a) s = .next (respond .oob 0x00 s) := by
  have h : exec (.bufRd a) s = execBufRd a s := rfl
  rw [h, execBufRd, serve_serving hf, if_neg (Nat.not_lt.2 ha)]

theorem exec_bufWr_of_ge {s : State} (hf : s.phase.isFaulted = false) {a : Nat} (ha : s.cfg.N ≤ a)
    (v : Byte) : exec (.bufWr a v) s = .next (respond .oob 0x00 s) := by
  have h : exec (.bufWr a v) s = execBufWr a v s := rfl
  rw [h, execBufWr, serve_serving hf, if_neg (Nat.not_lt.2 ha)]

/-- A request that starts no script only responds, and changes the framebuffer at most. -/
theorem exec_without_script {i : Instr} {r : Request} (hi : bundleOf i = some r)
    (hq : scriptStartedBy i = none) {s t : State} (h : exec i s = .next t) :
    ∃ m st d, t = respond st d (setFb m s) := by
  obtain ⟨-, he⟩ | ⟨-, q, hq', -⟩ | ⟨-, -, st, d, he⟩ := exec_request hi s
  · exact ⟨s.fb, _, _, Host.Outcome.next.inj (h.symm.trans he)⟩
  · rw [hq] at hq'; cases hq'
  · exact ⟨_, st, d, Host.Outcome.next.inj (h.symm.trans he)⟩

/-- A request in a faulted phase, whichever it is (R142 of 60_exceptions.md). -/
theorem exec_request_of_faulted {i : Instr} {r : Request} (hi : bundleOf i = some r) {s : State}
    (hf : s.phase.isFaulted = true) : exec i s = .next (respond .faulted 0x00 s) := by
  obtain ⟨-, he⟩ | ⟨hf', -⟩ | ⟨hf', -⟩ := exec_request hi s
  · exact he
  all_goals rw [hf] at hf'; cases hf'

/-- Two requests that agree where they are served agree in every phase. -/
theorem exec_request_congr {i j : Instr} {q r : Request} (hi : bundleOf i = some q)
    (hj : bundleOf j = some r) {s : State} (h : s.phase.isFaulted = false → exec i s = exec j s) :
    exec i s = exec j s := by
  cases hf : s.phase.isFaulted with
  | false => exact h hf
  | true => rw [exec_request_of_faulted hi hf, exec_request_of_faulted hj hf]

/-! ## Bytes and memories by their pixels (R50) -/

theorem exists_place_of_inBounds {c : Config} {x y : Int} (h : InBounds c x y) :
    ∃ p, mapPixel c x y = some p :=
  Option.isSome_iff_exists.1 ((mapPixel_isSome_iff c x y).2 h)

/-- A byte of the framebuffer is its eight pixels. -/
theorem Mem.read_eq_of_pixels {c : Config} (hc : c.WF) {m m' : Mem} {a : Nat} (ha : a < c.N)
    (h : ∀ x y q, mapPixel c x y = some q → q.index = a → m.readBit q = m'.readBit q) :
    m.read a = m'.read a := by
  refine BitVec.eq_of_getLsbD_eq fun b hb => ?_
  obtain ⟨x, y, hmap⟩ := mapPixel_surjective hc ha hb
  exact h x y ⟨a, b⟩ hmap rfl

/-- A memory within its bound reads as unlisted from the bound on. -/
theorem Mem.read_of_below {n i : Nat} {m : Mem} (h : m.below n = true) (hi : n ≤ i) :
    m.read i = unlistedByte := by
  rw [← Mem.read_filter_ge m hi, Mem.filter_of_below h]
  rfl

/-- Two framebuffers with the same pixels are the same memory. -/
theorem Mem.ext_of_pixels {c : Config} (hc : c.WF) {m m' : Mem} (hm : m.wf = true)
    (hm' : m'.wf = true) (hb : m.below c.N = true) (hb' : m'.below c.N = true)
    (h : ∀ x y q, mapPixel c x y = some q → m.readBit q = m'.readBit q) : m = m' := by
  refine Mem.ext_from hm hm' fun a => ?_
  by_cases ha : a < c.N
  · exact Mem.read_eq_of_pixels hc ha fun x y q hq _ => h x y q hq
  · rw [Mem.read_of_below hb (Nat.not_lt.1 ha), Mem.read_of_below hb' (Nat.not_lt.1 ha)]

/-! ## FILL_RECT by its unclipped rectangle (R96) -/

/-- Clipping takes no in-bounds pixel off a rectangle. -/
theorem mem_clipped_iff {c : Config} {px py : Int} (hb : InBounds c px py) (x y w h : Int) :
    (px ∈ rectColumns c x w ∧ py ∈ rectRows c y h) ↔ InRect x y w h px py := by
  obtain ⟨hx0, hx, hy0, hy⟩ := hb
  simp only [rectColumns, rectRows, mem_intRange]
  omega

theorem Mem.readBit_fillRect_inRect {c : Config} (hc : c.WF) {m : Mem} (hm : m.wf = true) {px py : Int}
    {q : Place} (x y w h : Int) (v : Bool) (hq : mapPixel c px py = some q) :
    (m.fillRect c x y w h v).readBit q = if InRect x y w h px py then v else m.readBit q := by
  rw [Mem.readBit_fillRect hc hm x y w h v hq]
  simp only [mem_clipped_iff (mapPixel_inBounds hq)]

/-- FILL_RECT writes no byte past the framebuffer. -/
theorem Mem.read_fillRect_of_ge {c : Config} (hc : c.WF) {a : Nat} (ha : c.N ≤ a) (m : Mem)
    (x y w h : Int) (v : Bool) : (m.fillRect c x y w h v).read a = m.read a := by
  refine Mem.fillRect_keeps (P := fun m' => m'.read a = m.read a) (fun m' px py hm' => ?_) rfl x y w h
  rw [← hm']
  refine Mem.read_setPixel_other fun p hp => ?_
  have := (mapPixel_bounds hc hp).1
  omega

/-- FILL_RECT writes no byte that holds no pixel of the rectangle. -/
theorem Mem.read_fillRect_other {c : Config} (hc : c.WF) {m : Mem} (hm : m.wf = true) {a : Nat}
    {x y w h : Int} {v : Bool}
    (hout : ∀ px py q, InRect x y w h px py → mapPixel c px py = some q → a ≠ q.index) :
    (m.fillRect c x y w h v).read a = m.read a := by
  by_cases ha : a < c.N
  · refine Mem.read_eq_of_pixels hc ha fun px py q hq hqa => ?_
    rw [Mem.readBit_fillRect_inRect hc hm x y w h v hq,
      if_neg fun hin => hout px py q hin hq hqa.symm]
  · exact Mem.read_fillRect_of_ge hc (Nat.not_lt.1 ha) m x y w h v

theorem Mem.fillRect_whole {c : Config} (hc : c.WF) {m : Mem} (hm : m.wf = true)
    (hb : m.below c.N = true) {x y w h : Int} (v : Bool) (hx : x ≤ 0) (hy : y ≤ 0)
    (hw : (logicalW c : Int) ≤ x + w) (hh : (logicalH c : Int) ≤ y + h) :
    m.fillRect c x y w h v = m.fill c.N (if v then 0xFF#8 else 0x00#8) := by
  refine Mem.ext_of_pixels hc (Mem.wf_fillRect hm ..) (Mem.wf_fill hb) (Mem.below_fillRect hc hb ..)
    (Mem.below_fill hb) fun px py q hq => ?_
  obtain ⟨hqi, hqb⟩ := mapPixel_bounds hc hq
  obtain ⟨hx0, hpx, hy0, hpy⟩ := mapPixel_inBounds hq
  have hin : InRect x y w h px py := by omega
  rw [Mem.readBit_fillRect_inRect hc hm x y w h v hq, if_pos hin, Mem.readBit_fill v hqi hqb]

theorem Mem.fillRect_one {c : Config} (hc : c.WF) {m : Mem} (hm : m.wf = true)
    (hb : m.below c.N = true) (x y : Int) (v : Bool) :
    m.fillRect c x y 1 1 v = m.setPixel c x y v := by
  refine Mem.ext_of_pixels hc (Mem.wf_fillRect hm ..) (Mem.wf_setPixel hm ..)
    (Mem.below_fillRect hc hb ..) (Mem.below_setPixel hc hb ..) fun px py q hq => ?_
  have hone : InRect x y 1 1 px py ↔ px = x ∧ py = y := by omega
  rw [Mem.readBit_fillRect_inRect hc hm x y 1 1 v hq, Mem.readBit_setPixel hc hm v hq]
  simp only [hone]

theorem intRange_eq_nil {lo hi : Int} (h : hi ≤ lo) : intRange lo hi = [] := by
  simp [intRange, h]

/-- A rectangle with no column or no row has no pixel to write. -/
theorem Mem.fillRect_empty {c : Config} {x y w h : Int} (hwh : w ≤ 0 ∨ h ≤ 0) (m : Mem) (v : Bool) :
    m.fillRect c x y w h v = m := by
  unfold Mem.fillRect
  rcases hwh with hw | hh
  · have hcols : rectColumns c x w = [] := intRange_eq_nil (by omega)
    simp [hcols]
  · have hrows : rectRows c y h = [] := intRange_eq_nil (by omega)
    simp [hrows]

/-! ## The statements -/

/-- Settles O3: SET is one bit write, at the place `Map` gives. -/
theorem setWritesItsPixelOnly : Obligations.SetWritesItsPixelOnly := by
  refine ⟨fun r => ?_, fun s x y c hc hwf hp =>
    ⟨_, exec_set_of_serving (not_faulted_of_poweredOn hp) x y c,
      fun px py q hq => Mem.readBit_setPixel hc hwf c hq, fun a ha => Mem.read_setPixel_other ha⟩⟩
  obtain ⟨-, hset, -⟩ := opcodeSelectsTheOperation r
  exact hset

/-- Settles O4: GET by whether its coordinate is mapped. -/
theorem getAnswersThePixelOrOob : Obligations.GetAnswersThePixelOrOob := by
  refine ⟨fun r => ?_, fun s x y hp =>
    have hf := not_faulted_of_poweredOn hp
    ⟨fun p hmap => exec_get_of_mapped hf hmap, fun hout => exec_get_of_not_inBounds hf hout⟩⟩
  obtain ⟨-, -, hget, -⟩ := opcodeSelectsTheOperation r
  exact hget

/-- Settles O5: every byte below N is the fill byte, and all its bits are the color. -/
theorem fillSetsEveryByteAndPixel : Obligations.FillSetsEveryByteAndPixel := by
  refine ⟨fun r => ?_, fun s c hc hp =>
    ⟨_, exec_fill_of_serving (not_faulted_of_poweredOn hp) c, fun a ha => ?_, fun a ha => ?_,
      fun px py q hq => ?_⟩⟩
  · obtain ⟨-, -, -, hfill, -⟩ := opcodeSelectsTheOperation r
    exact hfill
  · rw [setFb_fb, Mem.read_fill, if_pos ha]
  · rw [setFb_fb, Mem.read_fill, if_neg (Nat.not_lt.2 ha)]
  · obtain ⟨hi, hb⟩ := mapPixel_bounds hc hq
    exact Mem.readBit_fill c hi hb

/-- Settles O6: clipping loses no in-bounds pixel, and a byte is its eight pixels. -/
theorem fillRectSetsTheClippedRectangle : Obligations.FillRectSetsTheClippedRectangle := by
  refine ⟨fun r => ?_, fun s x y w h c hc hwf hp =>
    ⟨_, exec_fillRect_of_serving (not_faulted_of_poweredOn hp) x y w h c,
      fun px py q hq => Mem.readBit_fillRect_inRect hc hwf x y w h c hq,
      fun a ha => Mem.read_fillRect_other hc hwf ha⟩⟩
  obtain ⟨-, -, -, -, hrect, -⟩ := opcodeSelectsTheOperation r
  exact hrect

/-- Settles O7: BUF_RD by whether its address is below N. -/
theorem bufRdAnswersTheByteOrOob : Obligations.BufRdAnswersTheByteOrOob := by
  refine ⟨fun r => ?_, fun s a hp =>
    have hf := not_faulted_of_poweredOn hp
    ⟨fun ha => exec_bufRd_of_lt hf ha, fun ha => exec_bufRd_of_ge hf ha⟩⟩
  obtain ⟨-, -, -, -, -, -, -, -, -, -, hrd, -⟩ := opcodeSelectsTheOperation r
  exact hrd

/-- Settles O8: BUF_WR by whether its address is below N. -/
theorem bufWrWritesItsByteOnly : Obligations.BufWrWritesItsByteOnly := by
  refine ⟨fun r => ?_, fun s a v hwf hp =>
    have hf := not_faulted_of_poweredOn hp
    ⟨fun ha => ⟨_, exec_bufWr_of_lt hf ha v, Mem.read_write_same hwf,
      fun b hb => Mem.read_write_other v s.fb hb⟩, fun ha => exec_bufWr_of_ge hf ha v⟩⟩
  obtain ⟨-, -, -, -, -, -, -, -, -, -, -, hwr, -⟩ := opcodeSelectsTheOperation r
  exact hwr

/-- Settles O9: GET reads the bit that the bit write or the fill before it left, and an operation that starts no
script only responds. -/
theorem pixelRoundTripLaws : Obligations.PixelRoundTripLaws := by
  rintro s hc ⟨hwf, -⟩ hp
  have hf := not_faulted_of_poweredOn hp
  refine ⟨fun x y c hin => ?_, fun x y c hin => ?_, fun x y c px py hin hne => ?_, fun i t hi h => ?_⟩
  · obtain ⟨p, hmap⟩ := exists_place_of_inBounds hin
    refine ⟨_, _, exec_set_of_serving hf x y c, exec_get_after_drawing hf hmap _, ?_⟩
    simp [Mem.readBit_setPixel hc hwf c hmap]
  · obtain ⟨p, hmap⟩ := exists_place_of_inBounds hin
    obtain ⟨hi, hb⟩ := mapPixel_bounds hc hmap
    refine ⟨_, _, exec_fill_of_serving hf c, exec_get_after_drawing hf hmap _, ?_⟩
    simp [Mem.readBit_fill c hi hb]
  · obtain ⟨p, hmap⟩ := exists_place_of_inBounds hin
    refine ⟨_, _, _, exec_set_of_serving hf x y c, exec_get_after_drawing hf hmap _,
      exec_get_of_mapped hf hmap, ?_⟩
    have hother : ¬ (px = x ∧ py = y) := not_and_or.2 hne
    simp [Mem.readBit_setPixel hc hwf c hmap, hother]
  · obtain ⟨r, hr, hq⟩ : ∃ r, bundleOf i = some r ∧ scriptStartedBy i = none := by
      obtain ⟨x, y, c, rfl⟩ | ⟨x, y, rfl⟩ | ⟨c, rfl⟩ | ⟨x, y, w, h, c, rfl⟩ | ⟨a, rfl⟩ | ⟨a, v, rfl⟩ := hi <;>
        exact ⟨_, rfl, rfl⟩
    obtain ⟨m, st, d, rfl⟩ := exec_without_script hr hq h
    simp [isTransaction]

/-- Settles O11: framebuffers with the same pixels are the same memory, and an empty rectangle has no row or no
column. -/
theorem fillRectCornersAreFillAndSet : Obligations.FillRectCornersAreFillAndSet := by
  intro s c hc ⟨hwf, hbelow⟩
  refine ⟨fun x y w h hx hy hw hh => ?_, fun x y => ?_, fun x y w h hwh => Mem.fillRect_empty hwh s.fb c⟩
  · refine exec_request_congr rfl rfl fun hf => ?_
    rw [exec_fillRect_of_serving hf, exec_fill_of_serving hf,
      Mem.fillRect_whole hc hwf hbelow c hx hy hw hh]
  · refine exec_request_congr rfl rfl fun hf => ?_
    rw [exec_fillRect_of_serving hf, exec_set_of_serving hf, Mem.fillRect_one hc hwf hbelow x y c]

end Sys2Proof.Machine

/-! # The sequencer and INIT (41_sequencer_init.md): dispatch, CMD, DATA and DELAY steps, the phase, display-on -/

namespace Sys2Proof.Machine

/-! ## Requests that start a script (R118) -/

/-- Settles O15: each of the five requests is served by the start of its script. -/
theorem scriptRequestsStartTheirScript : Obligations.ScriptRequestsStartTheirScript := by
  intro s hp
  have hf := not_faulted_of_poweredOn hp
  exact ⟨serve_serving hf _, serve_serving hf _, serve_serving hf _, fun _ => serve_serving hf _,
    fun _ => serve_serving hf _⟩

/-! ## What a step runs (R100, R102, R117) -/

/-- Ten bytes that decode on the request port decode to the request of their bundle. -/
theorem decodeRequest_of_decode {bytes : List Byte} {i : Instr} (h : decode .request bytes = .ok i) :
    decodeRequest (.ofWord (BitVec.ofNat 76 (natOfBytes bytes))) = i := by
  simp only [decode] at h
  split_ifs at h
  exact Except.ok.inj h

/-- Settles O21: a ready block dispatches the bundle it latches. -/
theorem stepRunsTheDecodedRequest : Obligations.StepRunsTheDecodedRequest := by
  intro s bytes i rest hc hdec ho hr
  rw [step_accept hc ho hr, decodeRequest_of_decode hdec]
  rfl

/-- Settles O22: the CMD step at `seq_ptr` is performed, which is its instruction. -/
theorem stepRunsTheScriptCommand : Obligations.StepRunsTheScriptCommand :=
  fun _ _ _ hc hr hp hcur => step_script hc hr hp hcur

/-! ## What a step leaves of the request port (R117) -/

/-- The requests offered and the latch are as before. -/
def KeepsRequests (s t : State) : Prop := t.offered = s.offered ∧ t.req = s.req

theorem exec_request_keepsRequests {i : Instr} {r : Request} (hi : bundleOf i = some r) {s t : State}
    (h : exec i s = .next t) : KeepsRequests s t := by
  obtain ⟨-, he⟩ | ⟨-, q, -, he⟩ | ⟨-, -, st, d, he⟩ := exec_request hi s <;>
    obtain rfl := Host.Outcome.next.inj (he.symm.trans h) <;> exact ⟨rfl, rfl⟩

theorem uninitStep_keepsRequests (s : State) : KeepsRequests s (uninitStep s) := by
  unfold uninitStep
  split <;> exact ⟨rfl, rfl⟩

theorem delayStep_keepsRequests (ms : Nat) (s : State) : KeepsRequests s (delayStep ms s) := by
  unfold delayStep
  split_ifs <;> exact ⟨rfl, rfl⟩

theorem endScript_keepsRequests (s : State) : KeepsRequests s (endScript s) := by
  unfold endScript
  split <;> exact ⟨rfl, rfl⟩

theorem emit_keepsRequests (t : Transaction) (u : ShadowUpdate) (s : State) :
    KeepsRequests s (emit t u s) := by
  obtain ⟨-, -, hreq, -, -, -, -, -, hoffered⟩ := emit_frame t u s
  exact ⟨hoffered, hreq⟩

/-- Out of block reset, a block that is not ready neither latches nor loses a request. -/
theorem keepsRequests_of_took {s t : State} (h : Took s t) (hr : s.pins.rstN = true)
    (hready : reqReady s = false) : KeepsRequests s t := by
  cases h with
  | blockReset hr' => rw [hr] at hr'; cases hr'
  | answeredFaulted _ _ hready' | started _ _ _ hready' | answeredNow _ _ _ _ hready' =>
    rw [hready] at hready'; cases hready'
  | uninit _ _ ht => exact ht ▸ uninitStep_keepsRequests s
  | delay ms _ _ _ _ ht => exact ht ▸ delayStep_keepsRequests ms s
  | ended _ _ _ _ ht => exact ht ▸ endScript_keepsRequests s
  | cmd _ _ _ _ _ _ _ _ ht | data _ _ _ _ ht => exact ht ▸ emit_keepsRequests _ _ s
  | taken _ _ _ _ _ _ ht | waited _ _ _ ht | rst _ _ _ _ _ ht | clearBuf _ _ _ _ ht =>
    subst ht
    exact ⟨rfl, rfl⟩

/-- Settles O23: a ready block dispatches the request it latches, which leaves latch and offer; every other step
of `Took` leaves both. -/
theorem requestIsAcceptedWhenReadyAndHeldOtherwise :
    Obligations.RequestIsAcceptedWhenReadyAndHeldOtherwise := by
  refine fun s hc hr => ⟨fun r rest ho hready => ?_, fun hready t h => ?_⟩
  · have hstep := step_accept hc ho hready
    obtain ⟨t, ht⟩ := exec_answers_next (decodeRequest r) (latchRequest r rest (sample s))
    obtain ⟨q, hq⟩ := bundleOf_decodeRequest r
    obtain ⟨hoffered, hreq⟩ := exec_request_keepsRequests hq ht
    exact ⟨t, hstep.trans ht, hstep, hreq, hoffered⟩
  · obtain ⟨hoffered, hreq⟩ := keepsRequests_of_took (took_of_step hc h) hr hready
    exact ⟨hoffered, hreq.trans (sample_req s)⟩

/-! ## The labels of INIT (R107, R110 to R115) -/

/-- The labels of INIT: RESETTING on the hardware path's steps before the settling wait, CONFIGURING up to the CLEARBUF
step, CLEARED from then on. -/
theorem initPhaseAt_eq (c : Config) (k : Nat) :
    initPhaseAt c k =
      if c.hasRst = true ∧ k < 5 then .resetting else if k ≤ clearBufAt c then .configuring else .cleared := by
  have hlen := initScript_length c
  unfold clearBufAt
  cases h : c.hasRst with
  | false =>
    simp only [h, Bool.false_eq_true, if_false] at hlen
    by_cases hk : k < 22
    · rw [initPhaseAt, initScript_soft h]
      interval_cases k <;> rfl
    · have hafter : ¬ k ≤ 16 := by omega
      simp [initPhaseAt, List.getElem?_eq_none_iff.2 (hlen.trans_le (Nat.not_lt.1 hk)), hafter]
  | true =>
    simp only [h, if_true] at hlen
    by_cases hk : k < 26
    · rw [initPhaseAt, initScript_hardware h]
      interval_cases k <;> rfl
    · have hafter : ¬ k < 5 ∧ ¬ k ≤ 20 := by omega
      simp [initPhaseAt, List.getElem?_eq_none_iff.2 (hlen.trans_le (Nat.not_lt.1 hk)), hafter]

/-! ## The UNINIT step (R109) -/

theorem hasRequiredPins_eq_false_iff (c : Config) :
    hasRequiredPins c = false ↔ c.bus = .spi ∧ (c.hasDc = false ∨ c.hasCs = false) := by
  unfold hasRequiredPins
  cases c.bus <;> simp [imp_iff_not_or]

/-- INIT's first label (R109). -/
theorem initLabel_eq (c : Config) : initLabel c = if c.hasRst then .resetting else .configuring := by
  simp [initLabel_eq_initPhaseAt, initPhaseAt_eq]

/-- Settles O25: the UNINIT step by the lines an SPI instance needs. -/
theorem uninitStepStartsInitOrReportsConfigError : Obligations.UninitStepStartsInitOrReportsConfigError := by
  intro s hc hr hp
  have hstep : step s = .next (uninitStep (sample s)) := by
    rw [step_instance hc, sequencerStep_uninit hr (by simpa using hp)]
  rw [hstep, ← hasRequiredPins_eq_false_iff, Bool.not_eq_false]
  refine ⟨fun hpins => ?_, fun hpins => ?_⟩
  · rw [uninitStep, if_neg (by simp [hpins]), configErrorEntry]
  · have hlabel : initLabel (sample s).cfg = if s.cfg.hasRst then .resetting else .configuring := by
      rw [initLabel_eq, sample_cfg]
    rw [uninitStep, if_pos (by simp [hpins]), hlabel]

/-! ## Transactions answered Ok (R102, R103) -/

/-- The next state of a transaction step answered Ok; what is in `sh_disp` depends on the byte sent, and
`shDisp_command_ok` says it. -/
theorem emit_ok_eq {s : State} (ha : s.pins.answer = some .ok) (t : Transaction) (u : ShadowUpdate) :
    emit t u s =
      { s with
        tx := none
        trace := s.trace ++ [t.event (some .ok)]
        shDisp := (emit t u s).shDisp
        shCon := (applyShadow u s).shCon
        shInv := (applyShadow u s).shInv
        seqPtr := s.seqPtr + 1
        phase := ((scriptSteps s.cfg s.script)[(s.seqPtr + 1).toNat]?.map (·.label)).getD s.phase } := by
  rw [emit_ok ha]
  cases u <;> rfl

/-- The shadows a command instruction writes by its own update. -/
theorem applyShadow_shadowOf (i : Instr) (s : State) :
    (applyShadow (shadowOf i) s).shCon = (match i with | .contrast L => some L | _ => s.shCon) ∧
      (applyShadow (shadowOf i) s).shInv = (match i with | .invert f => some f | _ => s.shInv) := by
  cases i <;> exact ⟨rfl, rfl⟩

/-- Settles O16: a command instruction is a CMD step of its byte, and `sh_disp` follows the byte. -/
theorem commandAnsweredOkCompletes : Obligations.CommandAnsweredOkCompletes := by
  intro i b s hb ha
  obtain ⟨hcon, hinv⟩ := applyShadow_shadowOf i s
  rw [exec_command hb, emit_ok_eq ha, shDisp_command_ok hb ha, hcon, hinv]
  rfl

/-- Settles O20: the frame offered is the framebuffer, and so is one that was held. -/
theorem dataStepSendsTheWholeFrame : Obligations.DataStepSendsTheWholeFrame := by
  intro s htx ha
  have hbytes : dataBytes s = s.fb.bytes s.cfg.N := by
    unfold dataBytes
    split
    · rw [htx _ ‹_›]
    · rfl
  refine ⟨s.fb.bytes s.cfg.N, by simp [Mem.bytes], fun k hk => by simp [Mem.bytes, hk], ?_⟩
  have hdisp : (emit (dataTransaction (s.fb.bytes s.cfg.N)) .none s).shDisp = s.shDisp := by
    simp [emit_ok ha]
  rw [performStep, dataStep, hbytes, emit_ok_eq ha, hdisp]
  rfl

/-! ## DELAY steps (R105, R28) -/

/-- The ticks counted are the least number of periods that span the wait. -/
theorem ticksCeil_le_iff (p : Period) (ms k : Nat) :
    ticksCeil p ms ≤ k ↔ ms * (p.denPred + 1) ≤ k * (p.numPred + 1) :=
  Nat.mul_comm k _ ▸ ceilDiv_le_iff_le_mul (a := p.numPred + 1) (b := ms * (p.denPred + 1)) (Nat.succ_pos _)

theorem ticksCeil_mono (p : Period) {ms ms' : Nat} (h : ms ≤ ms') : ticksCeil p ms ≤ ticksCeil p ms' :=
  (ticksCeil_le_iff p ms _).2
    ((Nat.mul_le_mul_right _ h).trans ((ticksCeil_le_iff p ms' _).1 (Nat.le_refl _)))

/-- The ticks counted span the wait, and one fewer do not. -/
theorem ticksCeil_spans (p : Period) (ms : Nat) :
    ms * (p.denPred + 1) ≤ ticksCeil p ms * (p.numPred + 1) ∧
      (0 < ms → (ticksCeil p ms - 1) * (p.numPred + 1) < ms * (p.denPred + 1)) := by
  have hspan := (ticksCeil_le_iff p ms _).1 (Nat.le_refl _)
  refine ⟨hspan, fun hms => Nat.lt_of_not_le fun hle => ?_⟩
  have hfewer := (ticksCeil_le_iff p ms _).2 hle
  have hzero : ticksCeil p ms = 0 := by omega
  have hpos : 0 < ms * (p.denPred + 1) := Nat.mul_pos hms (Nat.succ_pos _)
  simp [hzero] at hspan
  omega

/-- The longest wait fits the counter (R28). -/
theorem delayTicks_lt (c : Config) {ms : Nat} (h : ms ≤ 100) : delayTicks c ms < 2 ^ waitWidth c :=
  calc delayTicks c ms < ticksCeil c.tTick tRstRecover + 2 :=
        Nat.add_lt_add_of_le_of_lt (ticksCeil_mono _ h) (by decide)
    _ ≤ 2 ^ waitWidth c := Nat.le_pow_clog (by decide) _

/-- A DELAY step that counts: a tick takes one off, and no tick leaves it. -/
theorem delayStep_counting {s : State} (hd : s.delaying = true) (hw : s.waitCnt ≠ 0) (ms : Nat) :
    delayStep ms s = { s with waitCnt := if s.pins.tick then s.waitCnt - 1 else s.waitCnt } := by
  rw [delayStep, if_pos hd, if_neg hw]
  split <;> rfl

/-- Settles O29: the three cases of a DELAY step, and the ticks as a ceiling. -/
theorem delayStepCountsTicks : Obligations.DelayStepCountsTicks := by
  refine ⟨fun s ms => ⟨fun hd => ?_, fun hd hw => ?_, fun hd hw => ?_⟩,
    fun c ms => ticksCeil_spans c.tTick ms, fun c ms => delayTicks_lt c⟩
  · rw [performStep, delayStep, if_neg (by simp [hd])]
  · rw [performStep, delayStep_counting hd hw]
  · rw [performStep, delayStep, if_pos hd, if_pos hw]
    rfl

/-- A step of an instance in a DELAY step whose ticks have not come. -/
theorem step_delay_counting {s : State} {p : Pins} {rest : List Pins} {ms : Nat} {l : Phase} (hc : s.cfg.WF)
    (hp : s.phase ≠ .uninit) (hcur : currentStep s = some ⟨.delay ms, l⟩) (hd : s.delaying = true)
    (hin : s.inputs = p :: rest) (hr : p.rstN = true) (hw : s.waitCnt ≠ 0) :
    step s = .next { sample s with waitCnt := if p.tick then s.waitCnt - 1 else s.waitCnt } := by
  rw [step_script hc (by simpa [hin] using hr) hp hcur, performStep,
    delayStep_counting (by simpa using hd) (by simpa using hw)]
  simp [hin]

/-- Settles O30: by induction on the rows, each of which takes its tick off `wait_cnt`, if it has one. -/
theorem delayIsHeldUntilItsTicksHaveCome : Obligations.DelayIsHeldUntilItsTicksHaveCome := by
  intro rows
  induction rows with
  | nil => exact fun s _ _ _ _ _ _ hd _ _ _ => ⟨s, rfl, rfl, rfl, rfl, rfl, hd, rfl⟩
  | cons p rows ih =>
    intro s ms l more hc hp hcur hd hin hrst hticks
    obtain ⟨hr, hrst⟩ := List.forall_mem_cons.1 hrst
    have hstep := step_delay_counting hc hp hcur hd hin hr (by omega)
    obtain ⟨t, hrun, hq, hs, hph, htr, hdel, hwait⟩ := ih
      { sample s with waitCnt := if p.tick then s.waitCnt - 1 else s.waitCnt } ms l more
      (by simpa using hc) (by simpa using hp) ((currentStep_sample s).trans hcur) (by simpa using hd)
      (by simp [hin]) hrst (by cases ht : p.tick <;> simp [ht] at hticks ⊢ <;> omega)
    refine ⟨t, (run_succ hstep).trans hrun, hq.trans (sample_seqPtr s), hs.trans (sample_script s),
      hph.trans (sample_phase s), htr.trans (sample_trace s), hdel, hwait.trans ?_⟩
    cases ht : p.tick <;> simp [ht]
    omega

/-! ## Completed and held steps -/

/-- The script goes on at the next step. -/
structure Completes (s t : State) : Prop where
  cfg : t.cfg = s.cfg
  script : t.script = s.script
  seqPtr : t.seqPtr = s.seqPtr + 1

/-- The script, the step and the phase are as before. -/
structure StaysAt (s t : State) : Prop where
  cfg : t.cfg = s.cfg
  script : t.script = s.script
  seqPtr : t.seqPtr = s.seqPtr
  phase : t.phase = s.phase

theorem emit_ok_completes {s : State} (ha : s.pins.answer = some .ok) (t : Transaction) (u : ShadowUpdate) :
    Completes s (emit t u s) := by
  rw [emit_ok ha]
  constructor <;> simp

/-- A DELAY step completes without an event, or stays with its own event at most. -/
theorem delayStep_cases (ms : Nat) (s : State) :
    (Completes s (delayStep ms s) ∧ (delayStep ms s).trace = s.trace) ∨
      (StaysAt s (delayStep ms s) ∧
        ((delayStep ms s).trace = s.trace ∨ (delayStep ms s).trace = s.trace ++ [.delay ms])) := by
  unfold delayStep
  split_ifs
  · exact .inl ⟨⟨rfl, rfl, rfl⟩, rfl⟩
  · exact .inr ⟨⟨rfl, rfl, rfl, rfl⟩, .inl rfl⟩
  · exact .inr ⟨⟨rfl, rfl, rfl, rfl⟩, .inl rfl⟩
  · exact .inr ⟨⟨rfl, rfl, rfl, rfl⟩, .inr rfl⟩

/-- A running INIT: the phase is the label at `seq_ptr`. -/
theorem phase_of_init {s : State} (hi : Inv s) (hs : s.script = .init) :
    s.phase = initPhaseAt s.cfg s.seqPtr.toNat := by
  have hso := hi.script
  simp only [ScriptOk, hs] at hso
  exact hso.1

/-- A running request script: the block is powered on. -/
theorem phase_of_req {s : State} (hi : Inv s) {r : ReqScript} (hs : s.script = .req r) :
    s.phase = .poweredOn := by
  have hso := hi.script
  simp only [ScriptOk, hs] at hso
  exact hso.1

/-! ## The phase (R107, R109, R140, R141) -/

/-- The phase stays, or moves along the source's state machine. -/
def PhaseFollows (p q : Phase) : Prop :=
  q = p ∨ (p, q) ∈
    [(Phase.uninit, Phase.resetting), (.uninit, .configuring), (.uninit, .configError),
     (.resetting, .configuring), (.configuring, .cleared), (.cleared, .poweredOn),
     (.configuring, .fault), (.cleared, .fault), (.poweredOn, .fault)]

theorem initPhaseAt_follows (c : Config) (k : Nat) :
    PhaseFollows (initPhaseAt c k) (initPhaseAt c (k + 1)) := by
  rw [initPhaseAt_eq, initPhaseAt_eq]
  unfold PhaseFollows clearBufAt
  cases c.hasRst <;> simp only [Bool.false_eq_true, false_and, true_and, if_false, if_true] <;>
    split_ifs <;> simp <;> omega

theorem phaseFollows_of_completes {s t : State} (hi : Inv s) (ht : Inv t) {st : ScriptStep}
    (hc : currentStep s = some st) (h : Completes s t) : PhaseFollows s.phase t.phase := by
  cases hs : s.script with
  | none => exact absurd hs (script_ne_none_of_current hc)
  | init =>
    rw [phase_of_init hi hs, phase_of_init ht (h.script.trans hs), h.cfg, h.seqPtr,
      seqPtr_succ (seqPtr_lt_of_current hc)]
    exact initPhaseAt_follows _ _
  | req r => exact .inl ((phase_of_req ht (h.script.trans hs)).trans (phase_of_req hi hs).symm)

/-- INIT sends nothing in RESETTING. -/
theorem initPhaseAt_ne_resetting {c : Config} {k : Nat} {st : ScriptStep} (h : (initScript c)[k]? = some st)
    (hk : (∃ i, st.kind = .cmd i) ∨ st.kind = .data) : initPhaseAt c k ≠ .resetting := by
  intro hphase
  rw [initPhaseAt_eq] at hphase
  split_ifs at hphase with hreset
  obtain ⟨hrst, hlt⟩ := hreset
  rw [initScript_hardware hrst] at h
  interval_cases k <;> simp at h <;> subst h <;> simp at hk

/-- The phases of a CMD or DATA step, from which FAULT is entered (R141). -/
theorem phase_of_cmd_or_data {s : State} (hi : Inv s) {st : ScriptStep} (hc : currentStep s = some st)
    (hk : (∃ i, st.kind = .cmd i) ∨ st.kind = .data) :
    s.phase = .configuring ∨ s.phase = .cleared ∨ s.phase = .poweredOn := by
  cases hs : s.script with
  | none => exact absurd hs (script_ne_none_of_current hc)
  | init =>
    rw [currentStep, hs, scriptSteps] at hc
    rw [phase_of_init hi hs]
    exact ((initPhaseAt_cases s.cfg _).resolve_left (initPhaseAt_ne_resetting hc hk)).imp_right .inl
  | req r => exact .inr (.inr (phase_of_req hi hs))

theorem phaseFollows_emit {s : State} (hi : Inv s) {st : ScriptStep} (hc : currentStep s = some st)
    (hk : (∃ i, st.kind = .cmd i) ∨ st.kind = .data) {t : Transaction} {u : ShadowUpdate}
    (ht : Inv (emit t u s)) : PhaseFollows s.phase (emit t u s).phase := by
  rcases emit_cases t u s with ⟨ha, -⟩ | ⟨-, h⟩ | ⟨-, h⟩
  · exact phaseFollows_of_completes hi ht hc (emit_ok_completes ha t u)
  · rw [h, transportFault_phase]
    rcases phase_of_cmd_or_data hi hc hk with hp | hp | hp <;> simp [PhaseFollows, hp]
  · exact .inl (by rw [h, hold_phase])

theorem phaseFollows_uninitStep {s : State} (hp : s.phase = .uninit) :
    PhaseFollows s.phase (uninitStep s).phase := by
  unfold uninitStep
  split
  · have hlabel : initLabel s.cfg = .resetting ∨ initLabel s.cfg = .configuring := by
      rw [initLabel_eq]
      split <;> simp
    rcases hlabel with h | h <;> simp [PhaseFollows, hp, h]
  · simp [PhaseFollows, hp]

/-- INIT ends in CLEARED (R108), a request script in POWERED_ON. -/
theorem phaseFollows_endScript {s : State} (hi : Inv s)
    (he : s.seqPtr.toNat = (scriptSteps s.cfg s.script).length) : PhaseFollows s.phase (endScript s).phase := by
  unfold endScript
  split
  · exact .inl rfl
  next hs =>
    have hcleared : s.phase = .cleared := by
      rw [phase_of_init hi hs, initPhaseAt, List.getElem?_eq_none_iff.2 (by rw [he, hs]; exact Nat.le_refl _)]
      rfl
    simp [PhaseFollows, hcleared]
  · exact .inl rfl

/-- Out of block reset, whatever a step does, the phase follows the state machine. -/
theorem phaseFollows_of_took {s t : State} (hi : Inv s) (h : Took s t) (hr : s.pins.rstN = true) :
    PhaseFollows s.phase t.phase := by
  have ht' := inv_of_took hi h
  cases h with
  | blockReset hr' => rw [hr] at hr'; cases hr'
  | uninit _ hp ht => exact ht ▸ phaseFollows_uninitStep hp
  | rst l lab _ _ hc ht => exact phaseFollows_of_completes hi ht' hc (ht ▸ ⟨rfl, rfl, rfl⟩)
  | clearBuf lab _ _ hc ht => exact phaseFollows_of_completes hi ht' hc (ht ▸ ⟨rfl, rfl, rfl⟩)
  | delay ms lab _ _ hc ht =>
    subst ht
    obtain ⟨hdone, -⟩ | ⟨hstays, -⟩ := delayStep_cases ms s
    · exact phaseFollows_of_completes hi ht' hc hdone
    · exact .inl hstays.phase
  | cmd i b lab _ _ hc _ _ ht =>
    subst ht
    exact phaseFollows_emit hi hc (.inl ⟨i, rfl⟩) ht'
  | data lab _ _ hc ht =>
    subst ht
    exact phaseFollows_emit hi hc (.inr rfl) ht'
  | ended _ _ _ he ht => exact ht ▸ phaseFollows_endScript hi he
  | taken _ _ _ _ _ _ ht | waited _ _ _ ht | answeredFaulted _ _ _ _ _ ht | started _ _ _ _ _ _ _ ht
  | answeredNow _ _ _ _ _ _ _ _ ht => exact .inl (ht ▸ rfl)

/-- Settles O45: block reset enters UNINIT, and every other step of `Took` follows the state machine. -/
theorem phaseFollowsTheStateMachine : Obligations.PhaseFollowsTheStateMachine := by
  intro s t hi h hne
  have htook := took_of_step hi.config h
  cases hr : (sample s).pins.rstN with
  | false =>
    rw [step_instance hi.config, sequencerStep_reset hr] at h
    exact .inl ⟨Host.Outcome.next.inj h ▸ blockReset_phase _, rfl⟩
  | true => exact .inr ((sample_phase s ▸ phaseFollows_of_took (inv_sample hi) htook hr).resolve_left hne)

/-! ## Display-on comes after the blank frame (R116) -/

/-- The block is powered on, or past INIT's DATA step: where the blank frame must have been sent. -/
def PastBlankFrame (s : State) : Prop :=
  s.phase = .poweredOn ∨ (s.script = .init ∧ initDataAt s.cfg < s.seqPtr.toNat)

theorem clearBufAt_lt_initDataAt (c : Config) : clearBufAt c < initDataAt c := by
  unfold clearBufAt initDataAt
  split <;> decide

theorem initDataAt_lt_length (c : Config) : initDataAt c < (initScript c).length := by
  rw [initScript_length, initDataAt]
  split <;> decide

theorem initScript_at_data (c : Config) : (initScript c)[initDataAt c]? = some ⟨.data, .cleared⟩ := by
  unfold initDataAt
  cases h : c.hasRst with
  | false => rw [initScript_soft h]; rfl
  | true => rw [initScript_hardware h]; rfl

/-- INIT's display-on stands behind its DATA step (R114). -/
theorem initScript_displayOn {c : Config} {k : Nat} {lab : Phase}
    (h : (initScript c)[k]? = some ⟨.cmd .displayOn, lab⟩) : initDataAt c < k := by
  have hk := (List.getElem?_eq_some_iff.1 h).1.trans_le (initScript_length_le c)
  have hscan : scanMirrorOf c.orient ≠ .displayOn ∧ ramControlOf c.orient ≠ .displayOn := by
    cases c.orient <;> simp [scanMirrorOf, ramControlOf]
  unfold initDataAt
  cases hr : c.hasRst with
  | false =>
    rw [initScript_soft hr] at h
    interval_cases k <;> simp_all
  | true =>
    rw [initScript_hardware hr] at h
    interval_cases k <;> simp_all

/-- At INIT's DATA step the framebuffer is blank, and its frame is the blank frame. -/
theorem event_at_initData {s : State} (hi : Inv s) (hs : s.script = .init)
    (hk : s.seqPtr.toNat = initDataAt s.cfg) {t : Transaction} (ht : StepSends s t) :
    t.event (some .ok) = blankFrame s.cfg := by
  have hcur : currentStep s = some ⟨.data, .cleared⟩ := by
    rw [currentStep, hs, hk, scriptSteps, initScript_at_data]
  have hread : s.fb.read = fun _ => 0x00 := funext (hi.blank hs (hk ▸ clearBufAt_lt_initDataAt _))
  obtain ⟨i, b, l, hc, -⟩ | ⟨l, -, rfl⟩ := ht
  · rw [hcur] at hc
    cases hc
  · simp [blankFrame, Mem.bytes, hread]

/-- The value bytes INIT sends are those of the instance. -/
theorem valueByte_of_initCommand {c : Config} {b : Byte} :
    (.pmValue b ∈ initCommands c → b = c.pmValue) ∧ (.comEndValue b ∈ initCommands c → b = c.comEndValue) := by
  have hpair : .pmValue b ∉ orientationPair c ∧ .comEndValue b ∉ orientationPair c := by
    unfold orientationPair
    cases c.orient <;> simp [scanMirrorOf, ramControlOf]
  rw [initCommands_eq]
  cases c.hasRst <;> simp [configCommands, hpair]

/-- Of INIT's commands only display-on sends 0xAF, when the value bytes do not. -/
theorem displayOn_of_initCommand {c : Config} (hpm : c.pmValue ≠ 0xAF) (hcom : c.comEndValue ≠ 0xAF) {i : Instr}
    (hm : i ∈ initCommands c) (hb : commandByteOf i = some 0xAF) : i = .displayOn := by
  obtain rfl | rfl | rfl | rfl := command_of_display_byte hb (.inl rfl)
  · rfl
  · cases hb
  · exact absurd (valueByte_of_initCommand.1 hm).symm hpm
  · exact absurd (valueByte_of_initCommand.2 hm).symm hcom

/-- A CMD step of a running INIT runs one of INIT's commands. -/
theorem mem_initCommands {c : Config} {k : Nat} {i : Instr} {lab : Phase}
    (h : (initScript c)[k]? = some ⟨.cmd i, lab⟩) : i ∈ initCommands c :=
  List.mem_filterMap.2 ⟨_, List.mem_of_getElem? h, rfl⟩

/-- A display-on is sent by a powered-on block, or by INIT past its DATA step. -/
theorem pastBlankFrame_of_sends_displayOn {s : State} (hi : Inv s) (hpm : s.cfg.pmValue ≠ 0xAF)
    (hcom : s.cfg.comEndValue ≠ 0xAF) {t : Transaction} (ht : StepSends s t) {a : Option Answer}
    (hon : isDisplayOn (t.event a) = true) : PastBlankFrame s := by
  obtain ⟨i, b, l, hc, hb, rfl⟩ | ⟨l, -, rfl⟩ := ht
  · cases hs : s.script with
    | none => exact absurd hs (script_ne_none_of_current hc)
    | req r => exact .inl (phase_of_req hi hs)
    | init =>
      rw [currentStep, hs, scriptSteps] at hc
      obtain rfl : b = 0xAF := by simpa [isDisplayOn] using hon
      obtain rfl := displayOn_of_initCommand hpm hcom (mem_initCommands hc) hb
      exact .inr ⟨hs, initScript_displayOn hc⟩
  · cases hon

/-- Completing a step comes past the blank frame at INIT's DATA step only. -/
theorem pastBlankFrame_of_completes {s t : State} (hi : Inv s) (ht : Inv t) {st : ScriptStep}
    (hc : currentStep s = some st) (h : Completes s t) (hpast : PastBlankFrame t) :
    PastBlankFrame s ∨ (s.script = .init ∧ s.seqPtr.toNat = initDataAt s.cfg) := by
  cases hs : s.script with
  | none => exact absurd hs (script_ne_none_of_current hc)
  | req r => exact .inl (.inl (phase_of_req hi hs))
  | init =>
    have hphase := phase_of_init ht (h.script.trans hs)
    obtain hp | ⟨-, hlt⟩ := hpast
    · rw [hp] at hphase
      rcases initPhaseAt_cases t.cfg t.seqPtr.toNat with h | h | h <;> rw [h] at hphase <;> cases hphase
    · rw [h.cfg, h.seqPtr, seqPtr_succ (seqPtr_lt_of_current hc)] at hlt
      obtain hlt | heq := Nat.lt_succ_iff_lt_or_eq.1 hlt
      · exact .inl (.inr ⟨hs, hlt⟩)
      · exact .inr ⟨rfl, heq.symm⟩

/-- The step at INIT's DATA index is the DATA step. -/
theorem seqPtr_ne_initDataAt {s : State} {st : ScriptStep} (hc : currentStep s = some st)
    (hk : st.kind ≠ .data) (hs : s.script = .init) : s.seqPtr.toNat ≠ initDataAt s.cfg := by
  intro h
  rw [currentStep, hs, h, scriptSteps, initScript_at_data] at hc
  exact hk (Option.some.inj hc ▸ rfl)

/-- Staying at a step stays on the same side of the blank frame. -/
theorem pastBlankFrame_of_staysAt {s t : State} (h : StaysAt s t) (ht : PastBlankFrame t) :
    PastBlankFrame s := by
  rwa [PastBlankFrame, h.cfg, h.script, h.seqPtr, h.phase] at ht

/-- What the guard needs of a step: it sends display-on past the blank frame only, and comes past it with the blank
frame only. -/
def KeepsGuard (s t : State) : Prop :=
  t.cfg = s.cfg ∧ ∃ es, t.trace = s.trace ++ es ∧ (∀ e ∈ es, isDisplayOn e = true → PastBlankFrame s) ∧
    (PastBlankFrame t → PastBlankFrame s ∨ blankFrame s.cfg ∈ es)

/-- More events keep the guard, when each display-on among them has the blank frame before all of them. -/
theorem displayOnGuarded_append {c : Config} {tr es : List Event} (h : DisplayOnGuarded c tr)
    (hes : ∀ e ∈ es, isDisplayOn e = true → blankFrame c ∈ tr) : DisplayOnGuarded c (tr ++ es) := by
  intro before e after heq hon
  obtain ⟨mid, rfl, hmid⟩ | ⟨mid, rfl, hmid⟩ := List.append_eq_append_iff.1 heq
  · exact List.mem_append_left _ (hes e (by simp [hmid]) hon)
  · cases mid with
    | nil =>
      obtain rfl : e :: after = es := hmid
      simpa using hes e List.mem_cons_self hon
    | cons e' mid =>
      obtain ⟨rfl, -⟩ := List.cons.inj hmid
      exact h before e mid rfl hon

/-- The guard goes on over such a step. -/
theorem KeepsGuard.blankBeforeOn {s t : State} (h : KeepsGuard s t) {n : Nat} (hg : BlankBeforeOn n s) :
    BlankBeforeOn n t := by
  obtain ⟨hcfg, es, htr, hon, hpast⟩ := h
  obtain ⟨hn, hguard, hblank⟩ := hg
  have hdrop : t.trace.drop n = s.trace.drop n ++ es := by rw [htr, List.drop_append_of_le_length hn]
  refine ⟨by rw [htr, List.length_append]; omega, ?_, fun ht => ?_⟩ <;> rw [hcfg, hdrop]
  · exact displayOnGuarded_append hguard fun e he hd => hblank (hon e he hd)
  · exact List.mem_append.2 ((hpast ht).imp_left hblank)

/-- Past the blank frame every step that only adds events keeps the guard. -/
theorem keepsGuard_of_past {s t : State} {es : List Event} (hcfg : t.cfg = s.cfg) (htr : t.trace = s.trace ++ es)
    (h : PastBlankFrame s) : KeepsGuard s t :=
  ⟨hcfg, es, htr, fun _ _ _ => h, fun _ => .inl h⟩

/-- A step that sends no display-on and does not come past the blank frame keeps the guard. -/
theorem keepsGuard_of_silent {s t : State} {es : List Event} (hcfg : t.cfg = s.cfg)
    (htr : t.trace = s.trace ++ es) (hes : ∀ e ∈ es, isDisplayOn e = false)
    (h : PastBlankFrame t → PastBlankFrame s) : KeepsGuard s t :=
  ⟨hcfg, es, htr, fun e he hon => absurd hon (by simp [hes e he]), fun ht => .inl (h ht)⟩

/-- So does a completed step that is not the DATA step. -/
theorem keepsGuard_of_completes {s t : State} {es : List Event} (hi : Inv s) (ht : Inv t) {st : ScriptStep}
    (hc : currentStep s = some st) (hk : st.kind ≠ .data) (h : Completes s t) (htr : t.trace = s.trace ++ es)
    (hes : ∀ e ∈ es, isDisplayOn e = false) : KeepsGuard s t :=
  keepsGuard_of_silent h.cfg htr hes fun hpast =>
    (pastBlankFrame_of_completes hi ht hc h hpast).resolve_right fun ⟨hs, hq⟩ =>
      seqPtr_ne_initDataAt hc hk hs hq

/-- Block reset abandons a display-on past the blank frame only. -/
theorem keepsGuard_blockReset {s : State} (hi : Inv s) (hpm : s.cfg.pmValue ≠ 0xAF)
    (hcom : s.cfg.comEndValue ≠ 0xAF) : KeepsGuard s (blockReset s) := by
  refine ⟨rfl, abandonedEvents s, rfl, fun e he hon => ?_, fun h => by simp [PastBlankFrame] at h⟩
  cases htx : s.tx with
  | none => simp [abandonedEvents, htx] at he
  | some f =>
    obtain rfl : e = f.txn.event none := by simpa [abandonedEvents, htx] using he
    exact pastBlankFrame_of_sends_displayOn hi hpm hcom (stepSends_of_tx hi htx) hon

/-- A transaction step: answered Ok at INIT's DATA step it sends the blank frame. -/
theorem keepsGuard_emit {s : State} (hi : Inv s) (hpm : s.cfg.pmValue ≠ 0xAF) (hcom : s.cfg.comEndValue ≠ 0xAF)
    {st : ScriptStep} (hc : currentStep s = some st) {t : Transaction} (hsends : StepSends s t)
    {u : ShadowUpdate} (hinv : Inv (emit t u s)) : KeepsGuard s (emit t u s) := by
  rcases emit_cases t u s with ⟨ha, h⟩ | ⟨-, h⟩ | ⟨-, h⟩
  · have hdone := emit_ok_completes ha t u
    refine ⟨hdone.cfg, [t.event (some .ok)], by simp [h], ?_, fun ht => ?_⟩
    · simpa using pastBlankFrame_of_sends_displayOn hi hpm hcom hsends
    · refine (pastBlankFrame_of_completes hi hinv hc hdone ht).imp_right fun ⟨hs, hq⟩ => ?_
      simp [event_at_initData hi hs hq hsends]
  · rw [h]
    have hfault : ¬ PastBlankFrame (transportFault (answered t .err s)) := by simp [PastBlankFrame]
    cases hs : s.script with
    | none | init =>
      refine ⟨by simp, [t.event (some .err)], by simp [hs], ?_, fun ht => absurd ht hfault⟩
      simpa using pastBlankFrame_of_sends_displayOn hi hpm hcom hsends
    | req r =>
      exact keepsGuard_of_past (es := [t.event (some .err), .rsp .transportErr 0x00]) (by simp) (by simp [hs])
        (.inl (phase_of_req hi hs))
  · rw [h]
    exact keepsGuard_of_silent (es := []) (by simp) (by simp) (by simp)
      (pastBlankFrame_of_staysAt ⟨hold_cfg _ _, hold_script _ _, hold_seqPtr _ _, hold_phase _ _⟩)

theorem keepsGuard_uninitStep {s : State} (hi : Inv s) (hp : s.phase = .uninit) : KeepsGuard s (uninitStep s) := by
  have hs := script_none_of_uninit hi.script hp
  refine keepsGuard_of_silent (es := []) ?_ (by simp [uninitStep_trace]) (by simp) ?_ <;> unfold uninitStep
  · split <;> rfl
  · split
    · simp only [PastBlankFrame, initLabel_eq]
      split <;> simp
    · simp [PastBlankFrame, hs]

theorem keepsGuard_delayStep {s : State} (hi : Inv s) {ms : Nat} {lab : Phase}
    (hc : currentStep s = some ⟨.delay ms, lab⟩) (hinv : Inv (delayStep ms s)) : KeepsGuard s (delayStep ms s) := by
  obtain ⟨hdone, htr⟩ | ⟨hstays, htr | htr⟩ := delayStep_cases ms s
  · exact keepsGuard_of_completes (es := []) hi hinv hc (by simp) hdone (by simpa using htr) (by simp)
  · exact keepsGuard_of_silent (es := []) hstays.cfg (by simpa using htr) (by simp)
      (pastBlankFrame_of_staysAt hstays)
  · exact keepsGuard_of_silent hstays.cfg htr (by simp [isDisplayOn]) (pastBlankFrame_of_staysAt hstays)

/-- A script at its end is past the blank frame: INIT has its DATA step behind it. -/
theorem keepsGuard_endScript {s : State} (hi : Inv s)
    (he : s.seqPtr.toNat = (scriptSteps s.cfg s.script).length) : KeepsGuard s (endScript s) := by
  unfold endScript
  split
  · exact keepsGuard_of_silent (es := []) rfl (by simp) (by simp) id
  next hs =>
    rw [hs, scriptSteps] at he
    exact keepsGuard_of_past (es := []) rfl (by simp) (.inr ⟨hs, he ▸ initDataAt_lt_length _⟩)
  · exact keepsGuard_of_past rfl rfl (.inl (phase_of_req hi ‹_›))

/-- Everything a step can do keeps the guard, when the value bytes are not 0xAF. -/
theorem keepsGuard_of_took {s t : State} (hi : Inv s) (hpm : s.cfg.pmValue ≠ 0xAF)
    (hcom : s.cfg.comEndValue ≠ 0xAF) (h : Took s t) : KeepsGuard s t := by
  have hinv := inv_of_took hi h
  cases h with
  | blockReset hr ht => exact ht ▸ keepsGuard_blockReset hi hpm hcom
  | uninit hr hp ht => exact ht ▸ keepsGuard_uninitStep hi hp
  | taken _ _ _ _ _ _ ht | waited _ _ _ ht =>
    subst ht
    exact keepsGuard_of_silent (es := []) rfl (by simp) (by simp) id
  | answeredFaulted r rest _ _ _ ht =>
    subst ht
    exact keepsGuard_of_silent rfl rfl (by simp [isDisplayOn]) id
  | started r rest q _ _ hp _ ht =>
    subst ht
    exact keepsGuard_of_past (es := []) rfl (by simp) (.inl hp)
  | answeredNow r rest st d _ _ hp _ ht =>
    subst ht
    exact keepsGuard_of_past rfl rfl (.inl hp)
  | rst l lab _ _ hc ht =>
    subst ht
    exact keepsGuard_of_completes hi hinv hc (by simp) ⟨rfl, rfl, rfl⟩ rfl (by simp [isDisplayOn])
  | clearBuf lab _ _ hc ht =>
    subst ht
    exact keepsGuard_of_completes (es := []) hi hinv hc (by simp) ⟨rfl, rfl, rfl⟩ (by simp [clearBufStep])
      (by simp)
  | delay ms lab _ _ hc ht =>
    subst ht
    exact keepsGuard_delayStep hi hc hinv
  | cmd i b lab _ _ hc hb _ ht =>
    subst ht
    exact keepsGuard_emit hi hpm hcom hc (.inl ⟨i, b, lab, hc, hb, rfl⟩) hinv
  | data lab _ _ hc ht =>
    subst ht
    exact keepsGuard_emit hi hpm hcom hc (.inr ⟨lab, hc, by rw [dataBytes_eq hi hc]⟩) hinv
  | ended _ _ _ he ht => exact ht ▸ keepsGuard_endScript hi he

/-- Before any event the guard holds of a block that need not have sent the blank frame. -/
theorem blankBeforeOn_of_not_past {s : State} (h : ¬ PastBlankFrame s) : BlankBeforeOn s.trace.length s := by
  have hnone : s.trace.drop s.trace.length = [] := List.drop_length
  exact ⟨Nat.le_refl _, fun before e after heq _ => by simp [hnone] at heq, fun hpast => absurd hpast h⟩

/-- Settles O40: right after block reset there is no event. -/
theorem displayOnGuardHoldsAtReset : Obligations.DisplayOnGuardHoldsAtReset :=
  fun c rows offers =>
    ⟨blankBeforeOn_of_not_past (s := { State.ofConfig c with inputs := rows, offered := offers })
      (by simp [PastBlankFrame, State.ofConfig]),
    blankBeforeOn_of_not_past (s := State.reset) (by simp [PastBlankFrame, State.reset, State.ofConfig])⟩

/-- Settles O39: everything in `Took` keeps the guard, and block reset leaves a block in UNINIT. -/
theorem displayOnFollowsABlankFrame : Obligations.DisplayOnFollowsABlankFrame := by
  intro n s t hi hpm hcom hg h
  refine ⟨?_, fun hr => ?_⟩
  · have hg' : BlankBeforeOn n (sample s) := by simpa [BlankBeforeOn] using hg
    exact (keepsGuard_of_took (inv_sample hi) (by simpa using hpm) (by simpa using hcom)
      (took_of_step hi.config h)).blankBeforeOn hg'
  · rw [step_instance hi.config, sequencerStep_reset hr] at h
    obtain rfl := Host.Outcome.next.inj h
    exact blankBeforeOn_of_not_past (by simp [PastBlankFrame])

end Sys2Proof.Machine

/-! # Runtime operations (42_runtime_ops.md): the request scripts from acceptance to response -/

namespace Sys2Proof.Machine

/-! ## A request script at one of its steps -/

/-- A block that can run a request script: a well-formed configuration in POWERED_ON with no transaction outstanding. -/
structure Serving (s : State) : Prop where
  config : s.cfg.WF
  phase : s.phase = .poweredOn
  tx : s.tx = none

theorem serving_of_idleWith {s : State} {r : Request} {rest : List Request} (h : IdleWith s r rest) : Serving s :=
  ⟨h.config, h.phase, h.tx⟩

theorem Serving.applyShadow {s : State} (h : Serving s) (u : ShadowUpdate) : Serving (applyShadow u s) := by
  obtain ⟨hc, hp, htx⟩ := h
  constructor <;> simpa

/-- The environment after the rows `rows`: their requests are offered behind `rest`, and `more` is to come. -/
def withRows (rest : List Request) (rows more : List Pins) (s : State) : State :=
  { s with
    offered := rest ++ rows.flatMap (·.req.toList)
    pins := rows.getLastD .quiet
    inputs := more }

theorem sample_withRows (rest : List Request) (rows more : List Pins) (p : Pins) (s : State) :
    sample (withRows rest rows (p :: more) s) = withRows rest (rows ++ [p]) more s := by
  rw [sample_row rfl]
  simp [withRows]

/-- The script of the latched request `r` at its step `n`, with the events `es` made since it was accepted. -/
def atStep (q : ReqScript) (r : Request) (n : Nat) (es : List Event) (s : State) : State :=
  { s with script := .req q, seqPtr := BitVec.ofNat 8 n, req := some r, trace := s.trace ++ es }

theorem toNat_stepIndex {q : ReqScript} {n : Nat} (h : n ≤ (reqKinds q).length) : (BitVec.ofNat 8 n).toNat = n := by
  have := reqKinds_length_le q
  exact Nat.mod_eq_of_lt (by omega)

/-- A request script stays in POWERED_ON, at its steps and at its end (R107 of 41_sequencer_init.md). -/
theorem label_requestScript (c : Config) (q : ReqScript) (n : Nat) :
    ((scriptSteps c (.req q))[n]?.map (·.label)).getD .poweredOn = .poweredOn := by
  cases h : (reqKinds q)[n]? <;> simp [scriptSteps, h]

/-! ## What a step of a request script sends -/

/-- A step sends `t` from a block with the framebuffer of `s`, and has the shadow update `u`. A command's update of
`sh_disp` is the one its byte makes (R23 of 10_state.md), which a value byte need not meet (log 32). -/
inductive Sends (s : State) : StepKind → Transaction → ShadowUpdate → Prop where
  | cmd {i : Instr} {b : Byte} (hb : commandByteOf i = some b)
      (hdisp : ∀ x, (applyShadow (shadowOf i) x).shDisp = displayShadow (cmdTransaction b) .ok x.shDisp) :
      Sends s (.cmd i) (cmdTransaction b) (shadowOf i)
  | data : Sends s .data (dataTransaction (s.fb.bytes s.cfg.N)) .none

theorem Sends.performs {s : State} {k : StepKind} {t : Transaction} {u : ShadowUpdate} (h : Sends s k t u) {x : State}
    (hc : x.cfg = s.cfg) (hfb : x.fb = s.fb) (htx : x.tx = none) : performStep k x = .next (emit t u x) := by
  cases h with
  | cmd hb => exact exec_command hb x
  | data => simp only [performStep, dataStep, dataBytes, htx, hc, hfb]

theorem Sends.shDisp_ok {s : State} {k : StepKind} {t : Transaction} {u : ShadowUpdate} (h : Sends s k t u) {x : State}
    (ha : x.pins.answer = some .ok) : (emit t u x).shDisp = (applyShadow u x).shDisp := by
  cases h with
  | cmd hb hdisp => rw [shDisp_command_ok hb ha, hdisp, displayShadow_cmd]
  | data => simp [emit_ok ha]

/-! ## The steps of a request script: acceptance, a transaction and its answer, the end -/

section
variable {s : State} {r : Request} {rest : List Request} {rows more : List Pins} {p : Pins} {q : ReqScript}
  {n : Nat} {es : List Event} {k : StepKind} {t : Transaction} {u : ShadowUpdate}

theorem step_accept_script (hi : IdleWith s r rest) (hq : scriptStartedBy (decodeRequest r) = some q)
    (hin : s.inputs = p :: more) (hr : p.rstN = true) :
    step s = .next (withRows rest [p] more (atStep q r 0 [] s)) := by
  obtain ⟨hc, hp, hs, -, hrsp, -, ho⟩ := hi
  have hready : reqReady (sample s) = true := (reqReady_iff _).2 (by simp [hin, hr, hs, hrsp, hp])
  have hstep := step_accept (r := r) (rest := rest ++ p.req.toList) hc (by simp [ho, hin]) hready
  obtain ⟨b, hb⟩ := bundleOf_decodeRequest r
  obtain ⟨hf, -⟩ | ⟨-, q', hq', he⟩ | ⟨-, hq', -⟩ :=
    exec_request hb (latchRequest r (rest ++ p.req.toList) (sample s))
  · simp [hp, Phase.isFaulted] at hf
  · obtain rfl := Option.some.inj (hq.symm.trans hq')
    rw [hstep, he, sample_row hin]
    simp [startScript, latchRequest, withRows, atStep]
  · rw [hq] at hq'; cases hq'

theorem step_transaction (hs : Serving s) (hk : (reqKinds q)[n]? = some k) (hsend : Sends s k t u)
    (hr : p.rstN = true) :
    step (withRows rest rows (p :: more) (atStep q r n es s)) =
      .next (emit t u (withRows rest (rows ++ [p]) more (atStep q r n es s))) := by
  obtain ⟨hc, hp, htx⟩ := hs
  have hn := toNat_stepIndex (List.getElem?_eq_some_iff.1 hk).1.le
  have hcur : currentStep (withRows rest rows (p :: more) (atStep q r n es s)) = some ⟨k, .poweredOn⟩ := by
    simp [currentStep, withRows, atStep, scriptSteps, -BitVec.toNat_ofNat, hn, hk]
  have hstep := step_script (s := withRows rest rows (p :: more) (atStep q r n es s)) hc
    (by simpa [withRows] using hr) (by simp [withRows, atStep, hp]) hcur
  rw [hstep, sample_withRows]
  exact hsend.performs rfl rfl htx

theorem step_transaction_ok (hs : Serving s) (hk : (reqKinds q)[n]? = some k) (hsend : Sends s k t u)
    (hr : p.rstN = true) (ha : p.answer = some .ok) :
    step (withRows rest rows (p :: more) (atStep q r n es s)) =
      .next (withRows rest (rows ++ [p]) more
        (atStep q r (n + 1) (es ++ [t.event (some .ok)]) (applyShadow u s))) := by
  have ha' : (withRows rest (rows ++ [p]) more (atStep q r n es s)).pins.answer = some .ok := by
    simpa [withRows] using ha
  rw [step_transaction hs hk hsend hr, emit_ok_eq ha', hsend.shDisp_ok ha']
  have hlabel := label_requestScript s.cfg q
  cases u <;> simp [withRows, atStep, applyShadow, hs.phase, hs.tx, hlabel, BitVec.ofNat_add]

theorem step_transaction_err (hs : Serving s) (hk : (reqKinds q)[n]? = some k) (hsend : Sends s k t u)
    (hr : p.rstN = true) (ha : p.answer = some .err) :
    step (withRows rest rows (p :: more) (atStep q r n es s)) =
      .next (transportFault (answered t .err (withRows rest (rows ++ [p]) more (atStep q r n es s)))) := by
  rw [step_transaction hs hk hsend hr, emit_err (by simpa [withRows] using ha)]

theorem step_end_requestScript (hs : Serving s) (hn : n = (reqKinds q).length) (hr : p.rstN = true) :
    step (withRows rest rows (p :: more) (atStep q r n es s)) =
      .next (withRows rest (rows ++ [p]) more
        { s with
          script := .none
          seqPtr := 0
          req := some r
          rsp := some ⟨.ok, 0x00⟩
          trace := s.trace ++ es ++ [.rsp .ok 0x00] }) := by
  have hstep := step_end (s := withRows rest rows (p :: more) (atStep q r n es s)) hs.config
    (by simpa [withRows] using hr) (by simp [withRows, atStep, hs.phase]) (by simp [withRows, atStep])
    (by simpa [withRows, atStep, scriptSteps, -BitVec.toNat_ofNat, hn] using toNat_stepIndex Nat.le.refl)
  rw [hstep, sample_withRows]
  rfl

end

/-! ## Requests with one command (R122 to R125) -/

/-- The runs of a request whose script is the one command `i`. -/
theorem runsOneCommand {op : BitVec 4} {b : Request → Byte} {after : Request → State → State}
    {q : Request → ReqScript} {i : Request → Instr}
    (hstart : ∀ r, r.op = op → scriptStartedBy (decodeRequest r) = some (q r))
    (hkinds : ∀ r, reqKinds (q r) = [.cmd (i r)])
    (hsends : ∀ r s, Sends s (.cmd (i r)) (cmdTransaction (b r)) (shadowOf (i r)))
    (hafter : ∀ r s, after r s = applyShadow (shadowOf (i r)) s) : RunsOneCommand op b after := by
  intro s r rest p1 p2 p3 more hi hop hr1 hr2
  have hs := serving_of_idleWith hi
  have hk : (reqKinds (q r))[0]? = some (.cmd (i r)) := by simp [hkinds]
  refine ⟨fun hin hr3 ha => ?_, fun hin ha => ?_⟩
  · rw [run_succ (step_accept_script hi (hstart r hop) hin hr1),
      run_succ (step_transaction_ok hs hk (hsends r s) hr2 ha),
      run_succ (step_end_requestScript (hs.applyShadow _) (by simp [hkinds]) hr3), run_zero, hafter]
    cases shadowOf (i r) <;> simp [withRows, applyShadow, hi.script, hi.seqPtr]
  · rw [run_succ (step_accept_script hi (hstart r hop) hin hr1),
      run_succ (step_transaction_err hs hk (hsends r s) hr2 ha), run_zero]
    simp [transportFault, answered, withRows, atStep, respond, hi.script, hi.seqPtr, hi.phase, hi.tx, Phase.code]

/-- Settles O32: the script of the one command DISPLAY_ON. -/
theorem powerOnRequestRuns : Obligations.PowerOnRequestRuns :=
  runsOneCommand (q := fun _ => .powerOn) (i := fun _ => .displayOn) (by rintro ⟨⟩ rfl; rfl) (fun _ => rfl)
    (fun _ _ => .cmd rfl fun _ => rfl) fun _ _ => rfl

/-- Settles O33: the script of the one command DISPLAY_OFF. -/
theorem powerOffRequestRuns : Obligations.PowerOffRequestRuns :=
  runsOneCommand (q := fun _ => .powerOff) (i := fun _ => .displayOff) (by rintro ⟨⟩ rfl; rfl) (fun _ => rfl)
    (fun _ _ => .cmd rfl fun _ => rfl) fun _ _ => rfl

/-- `d & 0x07` is the level `L` as a byte (R124). -/
theorem and_seven_eq_level (r : Request) : r.d &&& 0x07#8 = r.level.zeroExtend 8 := by
  apply BitVec.eq_of_toNat_eq
  have hmod := Nat.and_two_pow_sub_one_eq_mod r.d.toNat 3
  have hlt : r.d.toNat % 8 < 256 := by omega
  simpa [Request.level, Nat.mod_eq_of_lt hlt] using hmod

/-- Settles O34: the script of the one command CONTRAST, whose byte is no display command's. -/
theorem setContrastRequestRuns : Obligations.SetContrastRequestRuns :=
  runsOneCommand (q := fun r => .setContrast r.level) (i := fun r => .contrast r.level) (by rintro ⟨⟩ rfl; rfl)
    (fun _ => rfl)
    (fun r _ => by
      obtain ⟨-, hon, hoff⟩ := contrastByte r.level
      rw [and_seven_eq_level]
      exact .cmd rfl fun _ => by rw [displayShadow_cmd, if_neg hon, if_neg hoff]; rfl)
    fun _ _ => rfl

/-- Both flags send one byte (R125). -/
theorem invertByte (f : Bool) : 0x21#8 ||| bitByte f = 0x21 := by
  cases f <;> rfl

/-- Settles O35: the script of the one command INVERT. -/
theorem setInvertRequestRuns : Obligations.SetInvertRequestRuns :=
  runsOneCommand (q := fun r => .setInvert r.bit0) (i := fun r => .invert r.bit0) (by rintro ⟨⟩ rfl; rfl)
    (fun _ => rfl) (fun r _ => .cmd (congrArg some (invertByte r.bit0)) fun _ => rfl) fun _ _ => rfl

/-! ## FLUSH (R121) -/

/-- The transactions of FLUSH: the addressing reset and the frame. -/
def flushTransactions (s : State) : List Transaction :=
  [cmdTransaction 0xB0, cmdTransaction 0x10, cmdTransaction 0x00, dataTransaction (s.fb.bytes s.cfg.N)]

theorem flush_sends (s : State) {n : Nat} (hn : n < 4) :
    ∃ k t, (reqKinds .flush)[n]? = some k ∧ (flushTransactions s)[n]? = some t ∧ Sends s k t .none :=
  match n, hn with
  | 0, _ => ⟨_, _, rfl, rfl, .cmd (i := .pageAddr0) rfl fun _ => rfl⟩
  | 1, _ => ⟨_, _, rfl, rfl, .cmd (i := .colHi0) rfl fun _ => rfl⟩
  | 2, _ => ⟨_, _, rfl, rfl, .cmd (i := .colLo0) rfl fun _ => rfl⟩
  | 3, _ => ⟨_, _, rfl, rfl, .data⟩

/-- FLUSH with its first `n` transactions answered Ok. -/
def flushAt (r : Request) (n : Nat) (s : State) : State :=
  atStep .flush r n (((flushTransactions s).take n).map (·.event (some .ok))) s

section
variable {s : State} {r : Request} {rest : List Request}

theorem step_flush_ok (hs : Serving s) {n : Nat} (hn : n < 4) {p : Pins} (hr : p.rstN = true)
    (ha : p.answer = some .ok) (rows more : List Pins) :
    step (withRows rest rows (p :: more) (flushAt r n s)) =
      .next (withRows rest (rows ++ [p]) more (flushAt r (n + 1) s)) := by
  obtain ⟨k, t, hk, ht, hsend⟩ := flush_sends s hn
  rw [flushAt, step_transaction_ok hs hk hsend hr ha, flushAt, List.take_add_one, ht]
  simp [applyShadow]

/-- Rows that answer Ok take FLUSH that many transactions further. -/
theorem run_flush_oks (hs : Serving s) {oks more : List Pins}
    (hok : ∀ p ∈ oks, p.rstN = true ∧ p.answer = some .ok) {rows : List Pins} {n : Nat} (hn : n + oks.length ≤ 4) :
    Sys2Proof.core.run oks.length (withRows rest rows (oks ++ more) (flushAt r n s)) =
      .next (withRows rest (rows ++ oks) more (flushAt r (n + oks.length) s)) := by
  induction oks generalizing rows n with
  | nil => simp [run_zero]
  | cons p oks ih =>
    obtain ⟨⟨hr, ha⟩, hok⟩ := List.forall_mem_cons.1 hok
    rw [List.length_cons] at hn
    have hstep := step_flush_ok (r := r) (rest := rest) hs (n := n) (by omega) hr ha rows (oks ++ more)
    rw [List.length_cons, List.cons_append, run_succ hstep, ih hok (by omega)]
    simp [Nat.add_assoc, Nat.add_comm 1]

/-- FLUSH from acceptance up to the last of its rows, with every answer before that row Ok. -/
theorem run_flush_to_last_row (hi : IdleWith s r rest) (hop : r.op = 0x5) {rows more : List Pins}
    (hin : s.inputs = rows ++ more) (hrst : ∀ p ∈ rows, p.rstN = true) {n : Nat} (hlen : rows.length = n + 2)
    (hn : n ≤ 4) (hok : ∀ j p, 1 ≤ j → j ≤ n → rows[j]? = some p → p.answer = some .ok) :
    ∃ before last, rows = before ++ [last] ∧ before.length = n + 1 ∧ last.rstN = true ∧
      Sys2Proof.core.run (n + 1) s = .next (withRows rest before (last :: more) (flushAt r n s)) := by
  obtain rfl | ⟨before, last, rfl⟩ := List.eq_nil_or_concat' rows
  · simp at hlen
  obtain _ | ⟨p, oks⟩ := before
  · simp at hlen
  obtain rfl : oks.length = n := by simpa using hlen
  have hoks : ∀ p ∈ oks, p.rstN = true ∧ p.answer = some .ok := by
    intro p hp
    obtain ⟨j, hj, rfl⟩ := List.mem_iff_getElem.1 hp
    exact ⟨hrst _ (by simp), hok (j + 1) _ (by omega) (by omega) (by simp [List.getElem?_append_left, hj])⟩
  have hstart : scriptStartedBy (decodeRequest r) = some .flush := by
    obtain ⟨⟩ := r
    subst hop
    rfl
  have haccept : step s = .next (withRows rest [p] (oks ++ last :: more) (flushAt r 0 s)) :=
    step_accept_script hi hstart (by simpa using hin) (hrst p (by simp))
  have hrun := run_flush_oks (rest := rest) (r := r) (more := last :: more) (serving_of_idleWith hi) hoks
    (rows := [p]) (n := 0) (by omega)
  rw [Nat.zero_add] at hrun
  exact ⟨p :: oks, last, rfl, rfl, hrst last (by simp), (run_succ haccept).trans hrun⟩

end

/-- Settles O36: up to its last row FLUSH is answered Ok; that row is the end of the script after the four
transactions, or the transport fault of transaction `k`. -/
theorem flushRequestRuns : Obligations.FlushRequestRuns := by
  intro s r rest rows more hi hop hin hrst txs
  have htxs : txs = flushTransactions s := rfl
  clear_value txs
  subst htxs
  have hs := serving_of_idleWith hi
  refine ⟨fun hlen hok => ?_, fun k hk hlen hok herr => ?_⟩
  · obtain ⟨before, last, rfl, -, hr, hrun⟩ := run_flush_to_last_row hi hop hin hrst hlen (Nat.le_refl 4) hok
    have hend : step (withRows rest before (last :: more) (flushAt r 4 s)) = _ := step_end_requestScript hs rfl hr
    refine ((run_add hrun).trans (run_succ (k := 0) hend)).trans ?_
    rw [hi.script, hi.seqPtr]
    rfl
  · obtain ⟨before, last, rfl, hbefore, hr, hrun⟩ := run_flush_to_last_row hi hop hin hrst hlen hk.le hok
    obtain ⟨kind, t, hkind, ht, hsend⟩ := flush_sends s hk
    have ha : last.answer = some .err := herr last (by simp [← hbefore])
    have hfault : step (withRows rest before (last :: more) (flushAt r k s)) = _ :=
      step_transaction_err hs hkind hsend hr ha
    refine ⟨_, (run_add hrun).trans (run_succ (k := 0) hfault), ?_⟩
    simp [withRows, atStep, hi.phase, Phase.code, ht]

end Sys2Proof.Machine

/-! # The transport (43_transport.md): held transactions, the reset line, the framing on the bus -/

namespace Sys2Proof.Machine

/-! ## An unanswered transaction is held (R129, R40) -/

/-- The adapter takes a byte exactly when it is ready for one and one is left. -/
theorem handOver_eq (ready : Bool) (f : InFlight) :
    handOver ready f = ⟨f.txn, if ready = true ∧ f.handed < f.txn.bytes.length then f.handed + 1 else f.handed⟩ := by
  simp only [handOver, Bool.and_eq_true, decide_eq_true_eq]
  split <;> rfl

/-- A transaction that is not outstanding yet becomes so, from its first byte on. -/
theorem hold_first {s : State} (h : s.tx = none) (t : Transaction) :
    hold t s = { s with tx := some (handOver s.pins.txReady ⟨t, 0⟩) } := by
  simp [hold, h]

/-- An outstanding transaction stays, whatever the step would offer. -/
theorem hold_outstanding {s : State} {g : InFlight} (h : s.tx = some g) (t : Transaction) :
    hold t s = { s with tx := some (handOver s.pins.txReady g) } := by
  simp [hold, h]

theorem exec_command_unanswered {i : Instr} {b : Byte} (hb : commandByteOf i = some b) {s : State}
    (ha : s.pins.answer = none) : exec i s = .next (hold (cmdTransaction b) s) := by
  rw [exec_command hb, emit_unanswered ha]

theorem performStep_data_unanswered {s : State} (ha : s.pins.answer = none) :
    performStep .data s = .next (hold (dataTransaction (dataBytes s)) s) := by
  rw [performStep, dataStep, emit_unanswered ha]

/-- A DATA step that starts sends the framebuffer. -/
theorem dataBytes_first {s : State} (h : s.tx = none) : dataBytes s = s.fb.bytes s.cfg.N := by
  simp [dataBytes, h]

/-- The port presents the next byte of the transaction on it. -/
theorem txOut_of_onPort {s : State} {f : InFlight} {c : Byte} (hr : s.pins.rstN = true) (hf : onPort s = some f)
    (hc : f.txn.bytes[f.handed]? = some c) :
    txOut s = some (f.txn.kind.code, c, decide (f.handed + 1 = f.txn.bytes.length)) := by
  simp [txOut, hr, hf, hc]

theorem TxKind.code_eq (k : TxKind) : k.code = if k = .cmd then 0 else 1 := by
  cases k <;> rfl

/-- An instance has at least one framebuffer byte (R6). -/
theorem Config.N_pos {c : Config} (h : c.WF) : 0 < c.N := by
  obtain ⟨hmod, hH, hW, -⟩ := h
  exact Nat.mul_pos (Nat.div_pos hH (by decide)) hW

theorem Mem.getElem?_bytes {n k : Nat} (h : k < n) (m : Mem) : (m.bytes n)[k]? = some (m.read k) := by
  simp [Mem.bytes, h]

/-- Settles O19: an unanswered step is `hold`, and the port presents the byte that `hold` lets the adapter take. -/
theorem unansweredTransactionIsHeld : Obligations.UnansweredTransactionIsHeld := by
  intro s i b hb ha held
  have hheld (t : Transaction) (k : Nat) : held t k = { s with tx := some (handOver s.pins.txReady ⟨t, k⟩) } :=
    congrArg (fun f => { s with tx := some f }) (handOver_eq s.pins.txReady ⟨t, k⟩).symm
  rw [exec_command_unanswered hb ha, performStep_data_unanswered ha]
  refine ⟨fun htx => ⟨?_, ?_, fun hr hp l => ⟨fun hcur => ?_, fun hcur hc => ?_⟩⟩,
    fun g htx => ⟨?_, ?_, fun hr c hbyte => ?_⟩⟩
  · rw [hold_first htx, hheld]
    rfl
  · rw [hold_first htx, hheld, dataBytes_first htx]
    rfl
  · exact txOut_of_onPort hr (onPort_cmd htx hp hcur hb) rfl
  · have hbyte := Mem.getElem?_bytes (Config.N_pos hc) s.fb
    rw [txOut_of_onPort hr (onPort_data htx hp hcur) hbyte]
    simp [dataTransaction, TxKind.code, eq_comm]
  · rw [hold_outstanding htx, hheld]
  · rw [hold_outstanding htx, hheld]
  · rw [txOut_of_onPort hr (onPort_outstanding htx) hbyte, TxKind.code_eq]

/-! ## The reset line (R137) -/

@[simp] theorem uninitStep_rstOut (s : State) : (uninitStep s).rstOut = s.rstOut := by
  unfold uninitStep
  split <;> rfl

@[simp] theorem delayStep_rstOut (ms : Nat) (s : State) : (delayStep ms s).rstOut = s.rstOut := by
  unfold delayStep
  split_ifs <;> rfl

@[simp] theorem endScript_rstOut (s : State) : (endScript s).rstOut = s.rstOut := by
  unfold endScript
  split <;> rfl

@[simp] theorem emit_rstOut (t : Transaction) (u : ShadowUpdate) (s : State) :
    (emit t u s).rstOut = s.rstOut := by
  obtain ⟨-, -, -, hrstOut, -⟩ := emit_frame t u s
  exact hrstOut

@[simp] theorem rstStep_rstOut (level : Bool) (s : State) : (rstStep level s).rstOut = level := rfl

/-- Out of block reset, only a RST step of INIT changes the reset line, to the level it drives. -/
theorem rstOut_changed_of_took {s t : State} (h : Took s t) (hr : s.pins.rstN = true)
    (hne : t.rstOut ≠ s.rstOut) :
    s.script = .init ∧ ∃ l lab, currentStep s = some ⟨.rst l, lab⟩ ∧ t.rstOut = l := by
  cases h with
  | blockReset hr' => rw [hr] at hr'; cases hr'
  | rst l lab _ _ hc ht =>
    exact ⟨script_init_of_current hc (by simp) (by simp), l, lab, hc, ht ▸ rstStep_rstOut l s⟩
  | uninit _ _ ht => exact absurd (ht ▸ uninitStep_rstOut s) hne
  | delay ms _ _ _ _ ht => exact absurd (ht ▸ delayStep_rstOut ms s) hne
  | ended _ _ _ _ ht => exact absurd (ht ▸ endScript_rstOut s) hne
  | cmd _ _ _ _ _ _ _ _ ht | data _ _ _ _ ht => exact absurd (ht ▸ emit_rstOut _ _ s) hne
  | taken _ _ _ _ _ _ ht | waited _ _ _ ht | answeredFaulted _ _ _ _ _ ht | started _ _ _ _ _ _ _ ht
  | answeredNow _ _ _ _ _ _ _ _ ht | clearBuf _ _ _ _ ht =>
    subst ht
    exact absurd rfl hne

/-- Settles O44: block reset drives the line inactive, and of the other cases of `Took` only the RST step drives
it. -/
theorem resetLineChangesOnlyInRstSteps : Obligations.ResetLineChangesOnlyInRstSteps := by
  refine fun s t hc h => ⟨fun hr => ?_, fun hr hne => ?_⟩
  · rw [step_instance hc, sequencerStep_reset hr] at h
    rw [← Host.Outcome.next.inj h, blockReset_rstOut, sample_cfg]
  · simpa using rstOut_changed_of_took (took_of_step hc h) hr (by simpa using hne)

/-! ## The framing on the bus (R131, R132, R134, R135) -/

theorem frameOf_i2c {c : Config} (h : c.bus = .i2c) (t : Transaction) :
    frameOf c t = [.i2cWrite (i2cTarget c t.kind) t.bytes] := by
  simp [frameOf, h]

theorem frameOf_spi {c : Config} (h : c.bus = .spi) (t : Transaction) :
    frameOf c t =
      .chipSelect c.csActive :: .dataSelect (selectLevel t.kind) ::
        (t.bytes.map .shiftOut ++ [.chipSelect (!c.csActive)]) := by
  simp [frameOf, h]

/-- The base address of an instance leaves room for the data address (R8). -/
theorem toNat_i2cTarget_data {c : Config} (hc : c.WF) (hbus : c.bus = .i2c) :
    (i2cTarget c .data).toNat = c.i2cAddr.toNat + 1 := by
  obtain ⟨-, -, -, -, hi2c⟩ := hc
  have hle : c.i2cAddr.toNat ≤ 126 := (hi2c hbus).1
  have hlt : c.i2cAddr.toNat + (1#7).toNat < 2 ^ 7 := by simp; omega
  exact BitVec.toNat_add_of_lt hlt

/-- Settles O56: the framing of each bus, for a transaction of one byte and for one of any bytes. -/
theorem adapterFramesEveryTransaction : Obligations.AdapterFramesEveryTransaction :=
  fun _ _ _ hc =>
    ⟨fun hbus => ⟨frameOf_i2c hbus _, _, toNat_i2cTarget_data hc hbus, frameOf_i2c hbus _⟩,
      fun hbus => ⟨frameOf_spi hbus _, frameOf_spi hbus _⟩⟩

end Sys2Proof.Machine

/-! # Exceptions (60_exceptions.md): the faulted phases, FAULT entry, and the tick strobe outside a DELAY -/

namespace Sys2Proof.Machine

/-! ## The faulted phases (R142, R147) -/

/-- Settles O14: a faulted phase is one of the phases that accept requests, and every decoded bundle is a request. -/
theorem faultedPhaseAnswersEveryRequest : Obligations.FaultedPhaseAnswersEveryRequest := by
  refine fun s hp => ⟨fun hr hs hrsp => (reqReady_iff s).2 ⟨hr, hs, hrsp, .inr hp⟩, fun r => ?_⟩
  obtain ⟨q, hq⟩ := bundleOf_decodeRequest r
  exact exec_request_of_faulted hq ((Phase.isFaulted_iff _).2 hp)

/-- Out of block reset, a faulted block without a script waits, has its response taken, or answers FAULTED. -/
theorem took_of_faulted {s t : State} (h : Took s t) (hr : s.pins.rstN = true)
    (hf : s.phase.isFaulted = true) (hs : s.script = .none) :
    t = s ∨ t = { s with rsp := none } ∨ ∃ r rest, t = respond .faulted 0x00 (latchRequest r rest s) := by
  cases h with
  | waited _ _ _ ht => exact .inl ht
  | taken _ _ _ _ _ _ ht => exact .inr (.inl ht)
  | answeredFaulted r rest _ _ _ ht => exact .inr (.inr ⟨r, rest, ht⟩)
  | blockReset hr' => rw [hr] at hr'; cases hr'
  | uninit _ hp | started _ _ _ _ _ hp | answeredNow _ _ _ _ _ _ hp => rw [hp] at hf; cases hf
  | rst _ _ _ _ hc | delay _ _ _ _ hc | cmd _ _ _ _ _ hc | data _ _ _ hc | clearBuf _ _ _ hc =>
    exact absurd hs (script_ne_none_of_current hc)
  | ended _ _ hs' => exact absurd hs hs'

/-- Settles O27: block reset enters UNINIT, and none of the three other steps of a faulted block touches what is
kept. -/
theorem onlyBlockResetLeavesAFaultedPhase : Obligations.OnlyBlockResetLeavesAFaultedPhase := by
  refine fun s t hc hp hs h => ⟨fun hr => ?_, fun hr => ?_⟩
  · rw [step_instance hc, sequencerStep_reset hr] at h
    exact Host.Outcome.next.inj h ▸ ⟨rfl, rfl, rfl, rfl⟩
  · have hf : (sample s).phase.isFaulted = true := by rwa [sample_phase, Phase.isFaulted_iff]
    obtain rfl | rfl | ⟨r, rest, rfl⟩ := took_of_faulted (took_of_step hc h) hr hf (by rwa [sample_script]) <;>
      simp [hs]

/-! ## FAULT entry (R141) -/

/-- Settles O18: a command instruction and the DATA step are transaction steps, and answered Err such a step is the
transport fault, read off by the script that runs. -/
theorem transactionAnsweredErrEntersFault : Obligations.TransactionAnsweredErrEntersFault := by
  intro s ha entered
  have hentered (t : Transaction) (u : ShadowUpdate) : emit t u s = entered (t.event (some .err)) := by
    rw [emit_err ha]
    cases hs : s.script <;> simp [entered, transportFault, answered, respond, hs]
  exact ⟨fun i b hb => (exec_command hb s).trans (congrArg _ (hentered _ _)), congrArg _ (hentered _ _)⟩

/-! ## The tick strobe outside a DELAY step (R146) -/

/-- The tick strobe of the sampled row replaced, and nothing else. -/
def withTick (b : Bool) (s : State) : State := { s with pins := { s.pins with tick := b } }

/-- Whatever `f` answers, it answers with any tick strobe, which stays in the record of the row alone. -/
def IgnoresTick (f : State → Result) : Prop :=
  ∀ b s t, f s = .next t → f (withTick b s) = .next (withTick b t)

theorem ignoresTick_next {f : State → State} (hf : ∀ b s, f (withTick b s) = withTick b (f s)) :
    IgnoresTick fun s => .next (f s) :=
  fun b s _ h => Host.Outcome.next.inj h ▸ congrArg _ (hf b s)

theorem ignoresTick_serve {f : State → State} (hf : ∀ b s, f (withTick b s) = withTick b (f s)) :
    IgnoresTick (serve f) :=
  ignoresTick_next fun b s => by
    rw [hf, apply_ite (withTick b)]
    rfl

theorem transportFault_withTick (b : Bool) (s : State) :
    transportFault (withTick b s) = withTick b (transportFault s) := by
  cases hs : s.script <;> simp [transportFault, withTick, respond, hs]

/-- A transaction step reads the answer and, while it is held, `tx_ready`, but no tick. -/
theorem emit_withTick (t : Transaction) (u : ShadowUpdate) (b : Bool) (s : State) :
    emit t u (withTick b s) = withTick b (emit t u s) := by
  cases ha : s.pins.answer with
  | none => rw [emit_unanswered ha, emit_unanswered (s := withTick b s) ha]; rfl
  | some a =>
    cases a with
    | ok =>
      rw [emit_ok ha, emit_ok (s := withTick b s) ha]
      cases u <;> rfl
    | err =>
      rw [emit_err ha, emit_err (s := withTick b s) ha]
      exact transportFault_withTick b (answered t .err s)

/-- No instruction reads the tick strobe: a command by its transaction, a request by what it performs. -/
theorem ignoresTick_exec (i : Instr) : IgnoresTick (exec i) := by
  cases hb : commandByteOf i with
  | some c =>
    rw [funext (exec_command hb)]
    exact ignoresTick_next (emit_withTick _ _)
  | none =>
    cases i with
    | get x y =>
      refine ignoresTick_serve fun b s => ?_
      cases h : mapPixel s.cfg x y <;> simp [withTick, respond, h]
    | bufRd | bufWr =>
      refine ignoresTick_serve fun b s => ?_
      rw [apply_ite (withTick b)]
      rfl
    | set | fill | fillRect | flush | powerOn | powerOff | setContrast | setInvert | reserved0 | reservedC
    | reservedD | reservedE | reservedF => exact ignoresTick_serve fun _ _ => rfl
    | _ => cases hb

theorem uninitStep_withTick (b : Bool) (s : State) : uninitStep (withTick b s) = withTick b (uninitStep s) := by
  unfold uninitStep
  rw [apply_ite (withTick b)]
  rfl

theorem endScript_withTick (b : Bool) (s : State) : endScript (withTick b s) = withTick b (endScript s) := by
  cases hs : s.script <;> simp [endScript, withTick, respond, hs]

/-- Of the script steps, only a DELAY step reads the tick strobe. -/
theorem ignoresTick_performStep {k : StepKind} (hk : ∀ ms, k ≠ .delay ms) : IgnoresTick (performStep k) := by
  cases k with
  | rst l => exact ignoresTick_next fun _ _ => rfl
  | delay ms => exact absurd rfl (hk ms)
  | cmd i => exact ignoresTick_exec i
  | data => exact ignoresTick_next fun b s => emit_withTick _ _ b s
  | clearBuf => exact ignoresTick_next fun _ _ => rfl

theorem runStep_withTick {s t : State} (hd : ∀ ms l, currentStep s ≠ some ⟨.delay ms, l⟩) (b : Bool)
    (h : runStep s = .next t) : runStep (withTick b s) = .next (withTick b t) := by
  cases hc : currentStep s with
  | some st =>
    rw [runStep_current hc] at h
    rw [runStep_current (s := withTick b s) hc]
    exact ignoresTick_performStep (fun ms hk => hd ms st.label (by rw [hc, ← hk])) b s t h
  | none =>
    have hend : s.seqPtr.toNat = (scriptSteps s.cfg s.script).length := by
      by_contra hne
      simp [runStep, hc, hne] at h
    rw [runStep_end hend] at h
    rw [runStep_end (s := withTick b s) hend, endScript_withTick, Host.Outcome.next.inj h]

/-- A block that is not ready leaves the offered request on the port (R117 of 41_sequencer_init.md). -/
theorem idleStep_notReady {s : State} (h : s.rsp = none) (hr : reqReady s = false) : idleStep s = .next s := by
  cases ho : s.offered <;> simp [idleStep, h, ho, hr]

theorem ignoresTick_idleStep : IgnoresTick idleStep := by
  intro b s t h
  cases hrsp : s.rsp with
  | some r =>
    rw [idleStep_pending hrsp] at h
    rw [idleStep_pending (s := withTick b s) hrsp, ← Host.Outcome.next.inj h, apply_ite (withTick b)]
    rfl
  | none =>
    cases hready : reqReady s with
    | false =>
      rw [idleStep_notReady hrsp hready] at h
      rw [idleStep_notReady (s := withTick b s) hrsp hready, Host.Outcome.next.inj h]
    | true =>
      cases ho : s.offered with
      | nil =>
        rw [idleStep_quiet hrsp ho] at h
        rw [idleStep_quiet (s := withTick b s) hrsp ho, Host.Outcome.next.inj h]
      | cons r rest =>
        rw [idleStep_accept hrsp ho hready] at h
        rw [idleStep_accept (s := withTick b s) hrsp ho hready]
        exact ignoresTick_exec _ b (latchRequest r rest s) t h

/-- Of the enabled steps of R100 (41_sequencer_init.md), only a DELAY step reads the tick strobe. -/
theorem sequencerStep_withTick {s t : State} (hd : ∀ ms l, currentStep s ≠ some ⟨.delay ms, l⟩) (b : Bool)
    (h : sequencerStep s = .next t) : sequencerStep (withTick b s) = .next (withTick b t) := by
  obtain ⟨hr, hstep⟩ | ⟨hr, hp, hstep⟩ | ⟨hr, hp, hs, hstep⟩ | ⟨hr, hp, hs, hstep⟩ := sequencerStep_cases s <;>
    rw [hstep] at h
  · rw [sequencerStep_reset (s := withTick b s) hr, ← Host.Outcome.next.inj h]
    rfl
  · rw [sequencerStep_uninit (s := withTick b s) hr hp, uninitStep_withTick, Host.Outcome.next.inj h]
  · rw [sequencerStep_idle (s := withTick b s) hr hp hs]
    exact ignoresTick_idleStep b s t h
  · rw [sequencerStep_script (s := withTick b s) hr hp hs]
    exact runStep_withTick hd b h

/-- The step of a row with its tick strobe replaced. -/
theorem step_tick {s : State} {p : Pins} {rest : List Pins} (hc : s.cfg.WF) (hin : s.inputs = p :: rest) (b : Bool) :
    step { s with inputs := { p with tick := b } :: rest } = sequencerStep (withTick b (sample s)) := by
  rw [step_instance (by exact hc), sample_row hin]
  rfl

/-- Settles O31: the two rows differ in the tick alone, which stays in the record of the row. -/
theorem tickOutsideADelayIsIgnored : Obligations.TickOutsideADelayIsIgnored := by
  intro s p rest hc hin hd t u ht hu
  rw [step_tick hc hin] at ht hu
  have hd' : ∀ ms l, currentStep (sample s) ≠ some ⟨.delay ms, l⟩ := by rwa [currentStep_sample]
  have hu' := sequencerStep_withTick (s := withTick true (sample s)) hd' false ht
  obtain rfl := Host.Outcome.next.inj (hu'.symm.trans hu)
  rfl

end Sys2Proof.Machine

/-! # Reset (70_reset_and_hazards.md): block reset, and INIT in a friendly environment -/

namespace Sys2Proof.Machine

/-! ## Block reset (R156, R157) -/

/-- The step of an instance while `rst_n = 0`. -/
theorem step_blockReset {s : State} (hc : s.cfg.WF) (hr : (sample s).pins.rstN = false) :
    step s = .next (blockReset (sample s)) := by
  rw [step_instance hc, sequencerStep_reset hr]

/-- The outputs that read `rst_n` are at their reset values while it is 0 (R37 of 10_state.md). -/
theorem outputs_of_rstN_low {s : State} (hr : s.pins.rstN = false) :
    reqReady s = false ∧ rspValid s = false ∧ txOut s = none ∧
      (s.cfg.hasRst = true → lcdRst s = some (!s.cfg.rstActive)) := by
  simp [reqReady, rspValid, txOut, lcdRst, hr]

/-- The CLEARBUF step blanks every byte of the framebuffer (R106 of 41_sequencer_init.md). -/
theorem read_clearBufStep (s : State) {a : Nat} (ha : a < s.cfg.N) : (clearBufStep s).fb.read a = 0x00 := by
  rw [clearBufStep, advance_fb, setFb_fb, Mem.read_fill, if_pos ha]

/-- Settles O26: the registers are those of `State.ofConfig`, and the outputs follow them and `rst_n`. -/
theorem blockResetRestoresTheResetValues : Obligations.BlockResetRestoresTheResetValues := by
  intro s hc hr
  obtain ⟨hready, hvalid, htx, hrst⟩ := outputs_of_rstN_low (s := blockReset (sample s)) hr
  have hcfg : (blockReset (sample s)).cfg = s.cfg := sample_cfg s
  have hstatus : status (blockReset (sample s)) = s.cfg.orient.code ++ 0#14 := hcfg ▸ status_ofConfig _
  have herr : errInfo (blockReset (sample s)) = 0x0000 := errInfo_ofConfig s.cfg
  rw [hcfg] at hrst
  refine ⟨⟨_, step_blockReset hc hr, hcfg, rfl, rfl, rfl, rfl, rfl, rfl, rfl, rfl, rfl, rfl, rfl, ?_, rfl, rfl,
    hstatus, herr, rfl, hready, hvalid, htx, hrst⟩, fun u a ha => ⟨_, rfl, read_clearBufStep u ha⟩⟩
  rw [blockReset_rstOut, sample_cfg]

/-- Settles O57: block reset keeps what was sampled, and the trace but for the transaction abandoned. -/
theorem blockResetKeepsTheEnvironmentAndTheTrace : Obligations.BlockResetKeepsTheEnvironmentAndTheTrace := by
  intro s hc hr
  refine ⟨_, step_blockReset hc hr, rfl, rfl, rfl, fun htx => ?_, fun b k htx => ?_, fun bs k htx => ?_⟩ <;>
    simp [abandonedEvents, htx, Transaction.event]

/-- Right after block reset of an instance, whatever is to come, the invariant holds: block reset leaves this state
as it is. -/
theorem inv_ofConfig {c : Config} (hc : c.WF) (rows : List Pins) (offers : List Request) :
    Inv { State.ofConfig c with inputs := rows, offered := offers } :=
  inv_blockReset (s := { State.ofConfig c with inputs := rows, offered := offers }) hc

/-- The worked configuration is an instance (log 2). -/
theorem Config.worked_wf : Config.worked.WF :=
  ⟨by decide, by decide, by decide, by decide, fun h => Bus.noConfusion h⟩

/-- Settles O47: the state right after block reset, for every instance and for the worked one. -/
theorem resetMeetsTheInvariant : Obligations.ResetMeetsTheInvariant :=
  ⟨fun _ rows offers hc => inv_ofConfig hc rows offers, inv_ofConfig Config.worked_wf [] []⟩

/-! ## INIT as a list of steps: what each costs and shows in a friendly environment -/

/-- The model steps of a script step when every row ticks and answers Ok (logs 6 and 10). -/
def friendlySteps (c : Config) : StepKind → Nat
  | .delay ms => delaySteps c ms
  | .rst _ | .cmd _ | .data | .clearBuf => 1

/-- The events of a step of INIT when every transaction is answered Ok (R102 to R106 of 41_sequencer_init.md). -/
def friendlyEvents (c : Config) : StepKind → List Event
  | .rst level => [.rst level]
  | .delay ms => [.delay ms]
  | .cmd i => (commandByteOf i).toList.map fun b => .cmd b (some .ok)
  | .data => [blankFrame c]
  | .clearBuf => []

/-- The model steps of a list of script steps. -/
def stepsOf (c : Config) (steps : List ScriptStep) : Nat := (steps.map fun st => friendlySteps c st.kind).sum

/-- The events of a list of script steps. -/
def eventsOf (c : Config) (steps : List ScriptStep) : List Event := steps.flatMap fun st => friendlyEvents c st.kind

@[simp] theorem stepsOf_cons (c : Config) (st : ScriptStep) (steps : List ScriptStep) :
    stepsOf c (st :: steps) = friendlySteps c st.kind + stepsOf c steps := rfl

@[simp] theorem eventsOf_cons (c : Config) (st : ScriptStep) (steps : List ScriptStep) :
    eventsOf c (st :: steps) = friendlyEvents c st.kind ++ eventsOf c steps := rfl

/-- INIT's own steps, with the UNINIT step before them and the end of the script after them (R109, R108). -/
theorem initSteps_eq (c : Config) : initSteps c = stepsOf c (initScript c) + 2 := by
  unfold initSteps
  cases h : c.hasRst with
  | false =>
    rw [initScript_soft h]
    simp [stepsOf, friendlySteps, tSettle]
    omega
  | true =>
    rw [initScript_hardware h]
    simp [stepsOf, friendlySteps, tRstAssert, tRstRecover, tSettle]
    omega

/-- The events of INIT's steps are those of V40 and V41. -/
theorem eventsOf_initScript (c : Config) : eventsOf c (initScript c) = initEvents c := by
  unfold initEvents resetEvents orientationBytes
  cases h : c.hasRst with
  | false => rw [initScript_soft h]; cases c.orient <;> rfl
  | true => rw [initScript_hardware h]; cases c.orient <;> rfl

/-- INIT ends with the display-on (R114). -/
theorem initScript_last {c : Config} {k : Nat} (hk : k + 1 = (initScript c).length) :
    (initScript c)[k]? = some ⟨.cmd .displayOn, .cleared⟩ := by
  rw [initScript_length] at hk
  cases h : c.hasRst with
  | false =>
    obtain rfl : k = 21 := by simpa [h] using hk
    rw [initScript_soft h]; rfl
  | true =>
    obtain rfl : k = 25 := by simpa [h] using hk
    rw [initScript_hardware h]; rfl

/-- No command of INIT writes `sh_con` or `sh_inv` (R112 to R114). -/
theorem applyShadow_initCommand (c : Config) (s : State) : ∀ i ∈ initCommands c,
    (applyShadow (shadowOf i) s).shCon = s.shCon ∧ (applyShadow (shadowOf i) s).shInv = s.shInv := by
  rw [initCommands_eq, orientationPair]
  cases c.hasRst <;> cases c.orient <;>
    simp [configCommands, scanMirrorOf, ramControlOf, shadowOf]

/-! ## A running INIT: the model steps and the events still to come -/

/-- The steps of INIT from `seq_ptr` on. -/
def toGo (s : State) : List ScriptStep := (initScript s.cfg).drop s.seqPtr.toNat

/-- The model steps left of INIT's steps: of a DELAY step in progress its ticks and its completion. -/
def stepsLeft (s : State) : Nat :=
  if s.delaying then s.waitCnt + 1 + stepsOf s.cfg (toGo s).tail else stepsOf s.cfg (toGo s)

/-- The events left: a DELAY step in progress has made its own. -/
def eventsLeft (s : State) : List Event :=
  if s.delaying then eventsOf s.cfg (toGo s).tail else eventsOf s.cfg (toGo s)

/-- What is left of INIT in the middle of a DELAY step. -/
theorem left_of_delaying {s : State} (h : s.delaying = true) :
    stepsLeft s = s.waitCnt + 1 + stepsOf s.cfg (toGo s).tail ∧ eventsLeft s = eventsOf s.cfg (toGo s).tail :=
  ⟨if_pos h, if_pos h⟩

/-- What is left of INIT before a step starts. -/
theorem left_of_not_delaying {s : State} (h : s.delaying = false) :
    stepsLeft s = stepsOf s.cfg (toGo s) ∧ eventsLeft s = eventsOf s.cfg (toGo s) := by
  simp [stepsLeft, eventsLeft, h]

/-- Sampling the inputs leaves what is to come. -/
theorem left_sample (s : State) :
    stepsLeft (sample s) = stepsLeft s ∧ eventsLeft (sample s) = eventsLeft s := by
  simp [stepsLeft, eventsLeft, toGo]

/-- The step at `seq_ptr` is the first to go. -/
theorem toGo_of_current {s : State} {st : ScriptStep} (hs : s.script = .init) (hcur : currentStep s = some st) :
    toGo s = st :: (toGo s).tail := by
  rw [currentStep, hs, scriptSteps] at hcur
  obtain ⟨hlt, rfl⟩ := List.getElem?_eq_some_iff.1 hcur
  rw [toGo, List.drop_eq_getElem_cons hlt, List.tail_cons]

/-- A step completed is gone. -/
theorem toGo_of_completes {s t : State} {st : ScriptStep} (hcur : currentStep s = some st) (h : Completes s t) :
    toGo t = (toGo s).tail := by
  rw [toGo, toGo, List.tail_drop, h.cfg, h.seqPtr, seqPtr_succ (seqPtr_lt_of_current hcur)]

/-- A step that goes on stays. -/
theorem toGo_of_staysAt {s t : State} (h : StaysAt s t) : toGo t = toGo s := by rw [toGo, toGo, h.cfg, h.seqPtr]

/-- While model steps are left, a step stands at `seq_ptr`. -/
theorem current_of_stepsLeft {s : State} (hi : Inv s) (hs : s.script = .init) (hleft : stepsLeft s ≠ 0) :
    ∃ st, currentStep s = some st := by
  rw [← Option.ne_none_iff_exists']
  intro hcur
  obtain ⟨hd, -, -⟩ := nothing_in_progress hi hcur
  rw [currentStep, hs, scriptSteps, List.getElem?_eq_none_iff] at hcur
  simp [stepsLeft, hd, toGo, List.drop_eq_nil_of_le hcur, stepsOf] at hleft

/-- Every step takes at least one model step. -/
theorem friendlySteps_pos (c : Config) (k : StepKind) : 0 < friendlySteps c k := by
  cases k <;> simp [friendlySteps, delaySteps]

/-- When none is left, INIT is at its end. -/
theorem seqPtr_of_stepsLeft_zero {s : State} (hi : Inv s) (hs : s.script = .init) (hleft : stepsLeft s = 0) :
    s.seqPtr.toNat = (scriptSteps s.cfg s.script).length := by
  refine (seqPtr_le_of_scriptOk hi.script).antisymm (Nat.le_of_not_lt fun hlt => ?_)
  have htoGo := toGo_of_current hs (List.getElem?_eq_getElem hlt)
  have hpos := friendlySteps_pos s.cfg (scriptSteps s.cfg s.script)[s.seqPtr.toNat].kind
  rw [stepsLeft, htoGo, stepsOf_cons] at hleft
  split at hleft <;> omega

/-- At the end of INIT no event is left. -/
theorem eventsLeft_at_end {s : State} (hi : Inv s) (hs : s.script = .init)
    (hend : s.seqPtr.toNat = (scriptSteps s.cfg s.script).length) : eventsLeft s = [] := by
  obtain ⟨hd, -, -⟩ := nothing_in_progress hi (List.getElem?_eq_none_iff.2 hend.ge)
  rw [(left_of_not_delaying hd).2, toGo, hend, hs, scriptSteps, List.drop_length]
  rfl

/-! ## One step of a running INIT with a tick and an Ok answer -/

/-- What no step of INIT touches: the shadows of contrast and inversion, the host's offers and the rows to come. -/
structure InitFrame (s t : State) : Prop where
  shCon : t.shCon = s.shCon
  shInv : t.shInv = s.shInv
  offered : t.offered = s.offered
  inputs : t.inputs = s.inputs

/-- A step of INIT done, or a part of its DELAY: one model step fewer is left, and the events so far with those left
are the same. -/
structure InitStep (s t : State) : Prop where
  moves : Completes s t ∨ StaysAt s t
  stepsLeft : stepsLeft s = stepsLeft t + 1
  events : t.trace ++ eventsLeft t = s.trace ++ eventsLeft s
  frame : InitFrame s t

/-- What makes a step that completes a step of INIT. -/
theorem initStep_of_completes {s t : State} {st : ScriptStep} (hcur : currentStep s = some st) (h : Completes s t)
    (hd : t.delaying = false) (hsteps : stepsLeft s = 1 + stepsOf s.cfg (toGo s).tail)
    (hevents : t.trace ++ eventsOf s.cfg (toGo s).tail = s.trace ++ eventsLeft s) (hframe : InitFrame s t) :
    InitStep s t := by
  obtain ⟨hleft, hleft'⟩ := left_of_not_delaying hd
  rw [h.cfg, toGo_of_completes hcur h] at hleft hleft'
  exact ⟨.inl h, by rw [hsteps, hleft, Nat.add_comm], by rw [hleft', hevents], hframe⟩

/-- What makes a DELAY step that goes on a step of INIT. -/
theorem initStep_of_staysAt {s t : State} (h : StaysAt s t) (hd : t.delaying = true)
    (hsteps : stepsLeft s = t.waitCnt + 2 + stepsOf s.cfg (toGo s).tail)
    (hevents : t.trace ++ eventsOf s.cfg (toGo s).tail = s.trace ++ eventsLeft s) (hframe : InitFrame s t) :
    InitStep s t := by
  obtain ⟨hleft, hleft'⟩ := left_of_delaying hd
  rw [h.cfg, toGo_of_staysAt h] at hleft hleft'
  exact ⟨.inr h, by omega, by rw [hleft', hevents], hframe⟩

/-- A step other than DELAY completes in one model step, with its own events. -/
theorem initStep_of_single {s t : State} {st : ScriptStep} (hi : Inv s) (hs : s.script = .init)
    (hcur : currentStep s = some st) (hk : ∀ ms, st.kind ≠ .delay ms) (h : Completes s t)
    (hd : t.delaying = s.delaying) (htr : t.trace = s.trace ++ friendlyEvents s.cfg st.kind)
    (hframe : InitFrame s t) : InitStep s t := by
  obtain ⟨hrest, -⟩ := notDelaying hi hcur hk
  obtain ⟨hleft, hleft'⟩ := left_of_not_delaying hrest
  have hone : friendlySteps s.cfg st.kind = 1 := by
    cases hkind : st.kind with
    | delay ms => exact absurd hkind (hk ms)
    | rst | cmd | data | clearBuf => rfl
  rw [toGo_of_current hs hcur] at hleft hleft'
  refine initStep_of_completes hcur h (hd.trans hrest) ?_ ?_ hframe
  · rw [hleft, stepsOf_cons, hone]
  · rw [hleft', htr, eventsOf_cons, List.append_assoc]

/-- With a tick, a DELAY step starts, counts the tick, or completes. -/
theorem initStep_delayStep {s : State} {ms : Nat} {l : Phase} (hs : s.script = .init)
    (hcur : currentStep s = some ⟨.delay ms, l⟩) (htick : s.pins.tick = true) : InitStep s (delayStep ms s) := by
  cases hd : s.delaying with
  | false =>
    obtain ⟨hleft, hleft'⟩ := left_of_not_delaying hd
    rw [toGo_of_current hs hcur] at hleft hleft'
    rw [delayStep, if_neg (by simp [hd])]
    refine initStep_of_staysAt ⟨rfl, rfl, rfl, rfl⟩ rfl hleft ?_ ⟨rfl, rfl, rfl, rfl⟩
    rw [hleft', eventsOf_cons, List.append_assoc]
    rfl
  | true =>
    obtain ⟨hleft, hleft'⟩ := left_of_delaying hd
    by_cases hw : s.waitCnt = 0
    · rw [delayStep, if_pos hd, if_pos hw]
      exact initStep_of_completes hcur ⟨rfl, rfl, rfl⟩ rfl (by rw [hleft, hw]) (by rw [hleft']; rfl)
        ⟨rfl, rfl, rfl, rfl⟩
    · rw [delayStep_counting hd hw, if_pos htick]
      refine initStep_of_staysAt ⟨rfl, rfl, rfl, rfl⟩ hd ?_ (by rw [hleft']) ⟨rfl, rfl, rfl, rfl⟩
      rw [hleft]
      dsimp only
      omega

/-- With a tick and an Ok answer, the step at `seq_ptr` makes such a step. -/
theorem initStep_of_performStep {s t : State} {st : ScriptStep} (hi : Inv s) (hs : s.script = .init)
    (ha : s.pins.answer = some .ok) (htick : s.pins.tick = true) (hcur : currentStep s = some st)
    (h : performStep st.kind s = .next t) : InitStep s t := by
  obtain ⟨k, l⟩ := st
  have hinit : (initScript s.cfg)[s.seqPtr.toNat]? = some ⟨k, l⟩ := by rwa [currentStep, hs, scriptSteps] at hcur
  cases k with
  | delay ms =>
    obtain rfl := Host.Outcome.next.inj h
    exact initStep_delayStep hs hcur htick
  | rst level =>
    obtain rfl := Host.Outcome.next.inj h
    exact initStep_of_single hi hs hcur (by simp) ⟨rfl, rfl, rfl⟩ rfl rfl ⟨rfl, rfl, rfl, rfl⟩
  | clearBuf =>
    obtain rfl := Host.Outcome.next.inj h
    exact initStep_of_single hi hs hcur (by simp) ⟨rfl, rfl, rfl⟩ rfl (List.append_nil _).symm ⟨rfl, rfl, rfl, rfl⟩
  | cmd i =>
    obtain ⟨b, hb, -⟩ := scriptCommand_byte hcur
    obtain ⟨hcon, hinv⟩ := applyShadow_initCommand s.cfg s i (mem_initCommands hinit)
    rw [performStep, exec_command hb, emit_ok_eq ha] at h
    obtain rfl := Host.Outcome.next.inj h
    exact initStep_of_single hi hs hcur (by simp) ⟨rfl, rfl, rfl⟩ rfl (by simp [friendlyEvents, hb])
      ⟨hcon, hinv, rfl, rfl⟩
  | data =>
    have hblank : (dataTransaction (dataBytes s)).event (some .ok) = blankFrame s.cfg :=
      event_at_initData hi hs (initScript_data hinit) (.inr ⟨l, hcur, by rw [dataBytes_eq hi hcur]⟩)
    rw [performStep, dataStep, emit_ok_eq ha, hblank] at h
    obtain rfl := Host.Outcome.next.inj h
    exact initStep_of_single hi hs hcur (by simp) ⟨rfl, rfl, rfl⟩ rfl rfl ⟨rfl, rfl, rfl, rfl⟩

/-! ## INIT from block reset to POWERED_ON (R158) -/

/-- INIT of the instance `c` is running, and its events so far with those left are `initEvents c`. -/
structure RunsInit (c : Config) (s : State) : Prop where
  inv : Inv s
  cfg : s.cfg = c
  script : s.script = .init
  events : s.trace ++ eventsLeft s = initEvents c
  shDisp : s.seqPtr.toNat = (initScript c).length → s.shDisp = some true
  shCon : s.shCon = none
  shInv : s.shInv = none

/-- A friendly row takes INIT one model step on. -/
theorem RunsInit.step {c : Config} {s : State} (h : RunsInit c s) (hleft : stepsLeft s ≠ 0) {p : Pins}
    {rest : List Pins} (hin : s.inputs = p :: rest) (hr : p.rstN = true) (ha : p.answer = some .ok)
    (htick : p.tick = true) :
    ∃ t, step s = .next t ∧ RunsInit c t ∧ stepsLeft s = stepsLeft t + 1 ∧ t.inputs = rest ∧
      t.offered = s.offered ++ p.req.toList := by
  obtain ⟨hi, rfl, hs, hev, -, hcon, hinv⟩ := h
  obtain ⟨st, hcur⟩ := current_of_stepsLeft hi hs hleft
  obtain ⟨t, ht⟩ := stepNeverStopsUnderTheInvariant s hi
  have hp := (phase_of_scriptOk hi.script (by simp [hs])).1
  have hr' : (sample s).pins.rstN = true := by simpa [hin] using hr
  have ha' : (sample s).pins.answer = some .ok := by simpa [hin] using ha
  obtain ⟨hmoves, hsteps, hevents, hframe⟩ := initStep_of_performStep (inv_sample hi) (by simpa using hs) ha'
    (by simpa [hin] using htick) (by simpa using hcur) ((step_script hi.config hr' hp hcur).symm.trans ht)
  have hinputs : t.inputs = rest := by simpa [hin] using hframe.inputs
  have hoffered : t.offered = s.offered ++ p.req.toList := by simpa [hin] using hframe.offered
  have hcfg : t.cfg = s.cfg := by rcases hmoves with h | h <;> simpa using h.cfg
  have hscript : t.script = .init := by rcases hmoves with h | h <;> simpa [hs] using h.script
  obtain ⟨hsteps', hevents'⟩ := left_sample s
  rw [hsteps'] at hsteps
  rw [hevents', sample_trace, hev] at hevents
  refine ⟨t, ht, ⟨stepKeepsTheInvariant s t hi ht, hcfg, hscript, hevents, fun hend => ?_, ?_, ?_⟩, hsteps, hinputs,
    hoffered⟩
  · have hlt := seqPtr_lt_of_current hcur
    have hnext := seqPtr_succ hlt
    rw [hs, scriptSteps] at hlt
    obtain h | h := hmoves
    · have hlast : currentStep s = some ⟨.cmd .displayOn, .cleared⟩ := by
        rw [currentStep, hs]
        exact initScript_last (by rw [← hnext, ← hend, h.seqPtr, sample_seqPtr])
      exact shDisp_of_step_cmd_ok hi ht hr' hp ha' hlast rfl
    · rw [h.seqPtr, sample_seqPtr] at hend
      omega
  · simpa [hcon] using hframe.shCon
  · simpa [hinv] using hframe.shInv

/-- Over as many friendly rows as there are model steps left, INIT comes to its end. -/
theorem RunsInit.run {c : Config} {rows more : List Pins} (hf : Friendly rows) {s : State} (h : RunsInit c s)
    (hin : s.inputs = rows ++ more) (hlen : rows.length = stepsLeft s) :
    ∃ t, Sys2Proof.core.run rows.length s = .next t ∧ RunsInit c t ∧ stepsLeft t = 0 ∧ t.inputs = more ∧
      t.offered = s.offered ++ rows.flatMap (·.req.toList) := by
  induction rows generalizing s with
  | nil => exact ⟨s, run_zero s, h, hlen.symm, hin, by simp⟩
  | cons p rows ih =>
    obtain ⟨⟨hr, ha, htick⟩, hf⟩ := List.forall_mem_cons.1 hf
    rw [List.length_cons] at hlen
    obtain ⟨u, hstep, hu, hleft, hin', hoff⟩ := h.step (by omega) hin hr ha htick
    obtain ⟨t, hrun, ht, hzero, hin'', hoff'⟩ := ih hf hu hin' (by omega)
    exact ⟨t, (run_succ hstep).trans hrun, ht, hzero, hin'', by rw [hoff', hoff]; simp⟩

/-- The UNINIT step of an instance that has its pins starts INIT. -/
theorem runsInit_of_uninit {c : Config} (hc : c.WF) (hpins : hasRequiredPins c = true) {p : Pins} {rest : List Pins}
    (hr : p.rstN = true) (offers : List Request) :
    ∃ t, step { State.ofConfig c with inputs := p :: rest, offered := offers } = .next t ∧ RunsInit c t ∧
      stepsLeft t = stepsOf c (initScript c) ∧ t.inputs = rest ∧ t.offered = offers ++ p.req.toList := by
  have hi := inv_ofConfig hc (p :: rest) offers
  have hstep := (step_instance hi.config).trans (sequencerStep_uninit hr rfl)
  rw [uninitStep, if_pos (by exact hpins)] at hstep
  refine ⟨_, hstep, ⟨stepKeepsTheInvariant _ _ hi hstep, rfl, rfl, eventsOf_initScript c, fun hend => ?_, rfl, rfl⟩,
    rfl, rfl, rfl⟩
  exact absurd (initDataAt_lt_length c) (by simp [← hend])

/-- Outside the faulted phases there is no error code (R26 of 10_state.md). -/
theorem errCode_of_not_faulted {s : State} (h : ErrOk s) (hf : s.phase ≠ .fault) (hc : s.phase ≠ .configError) :
    s.errCode = .none := by
  obtain ⟨htr, hcf, -⟩ := h
  cases he : s.errCode with
  | none => rfl
  | config => exact absurd (hcf.1 he) hc
  | transport => exact absurd (htr.1 he) hf

/-- The end of INIT (R108): the block is powered on, ready, and blank. -/
theorem endScript_of_runsInit {c : Config} {s : State} (h : RunsInit c s) (hleft : stepsLeft s = 0) {p : Pins}
    {more : List Pins} (hin : s.inputs = p :: more) (hr : p.rstN = true) :
    ∃ t, step s = .next t ∧
      t.trace = initEvents c ∧ t.phase = .poweredOn ∧ t.script = .none ∧ t.seqPtr = 0 ∧
      (∀ a, t.fb.read a = 0x00) ∧ t.shDisp = some true ∧ t.shCon = none ∧ t.shInv = none ∧
      t.errCode = .none ∧ t.rstOut = !c.rstActive ∧ reqReady t = true ∧ t.offered = s.offered ++ p.req.toList := by
  obtain ⟨hi, rfl, hs, hev, hdisp, hcon, hinv⟩ := h
  have hend := seqPtr_of_stepsLeft_zero hi hs hleft
  have hnone := eventsLeft_at_end hi hs hend
  have hrst := rst_inactive_at_end hi hend
  have hrsp := rsp_of_scriptOk hi.script (by simp [hs])
  obtain ⟨hphase, hfault, hconfig⟩ := phase_of_scriptOk hi.script (by simp [hs])
  have hstep := step_end hi.config (by simpa [hin] using hr) hphase (by simp [hs]) hend
  rw [endScript, sample_script, hs] at hstep
  rw [hs, scriptSteps] at hend
  have herr := errCode_of_not_faulted hi.err hfault hconfig
  have hblank := hi.blank hs (hend ▸ (clearBufAt_lt_initDataAt _).trans (initDataAt_lt_length _))
  refine ⟨_, hstep, ?_⟩
  simp [← hev, hnone, hblank, hdisp hend, hcon, hinv, herr, Bool.eq_not.2 hrst, reqReady, Phase.isServing, hin, hr,
    hrsp]

/-- Settles O37: the UNINIT step, INIT's steps one row after the other, and the end of the script. -/
theorem initReachesPoweredOn : Obligations.InitReachesPoweredOn := by
  intro c rows more offers hc hpins hf hlen
  rw [initSteps_eq] at hlen
  obtain _ | ⟨first, rows⟩ := rows
  · simp at hlen
  obtain rfl | ⟨rows, last, rfl⟩ := List.eq_nil_or_concat' rows
  · simp at hlen
  have hrows : rows.length = stepsOf c (initScript c) := by simpa using hlen
  obtain ⟨⟨hr, -⟩, hf⟩ := List.forall_mem_cons.1 hf
  obtain ⟨hf, hlast⟩ := List.forall_mem_append.1 hf
  obtain ⟨⟨hr', -⟩, -⟩ := List.forall_mem_cons.1 hlast
  obtain ⟨s, hstart, hs, hleft, hin, hoff⟩ := runsInit_of_uninit hc hpins hr (rest := rows ++ last :: more) offers
  obtain ⟨u, hrun, hu, hzero, hin', hoff'⟩ := hs.run hf hin (hrows.trans hleft.symm)
  obtain ⟨t, hend, ht⟩ := endScript_of_runsInit hu hzero hin' hr'
  refine ⟨t, ?_, ?_⟩
  · rw [initSteps_eq, ← hrows, List.cons_append, List.append_assoc]
    exact (run_succ hstart).trans ((run_add hrun).trans (run_succ (k := 0) hend))
  · simpa [hoff', hoff] using ht

end Sys2Proof.Machine
